-- ==== Sys2Proof/Word.lean ====
section
/-! DEFINITION. The word types of the spec's notation (spec/00_scope.md R15, R16): unsigned bit vectors of the written
width, and byte strings as finite lists of bytes. -/

namespace Sys2Proof

/-- `u8`. -/
abbrev Byte := BitVec 8

/-- A byte string (R16). -/
abbrev Bytes := List Byte

/-- `u16`: register numbers, element counts, the CRC accumulator. -/
abbrev U16 := BitVec 16

/-- `u32`: the command word and AUX. -/
abbrev U32 := BitVec 32

/-- `u64`: a slot of the mapper's target. -/
abbrev U64 := BitVec 64

end Sys2Proof
end

