-- ==== Sys2Proof/Syntax.lean ====
section
/-! DEFINITION. The commands of the block, one constructor per row of spec/opcode_table.json (spec/30_encoding.md R94).
A constructor's arguments are the fields of the command word that the row uses, each in a type that holds exactly the
values the row's encoding admits. The input byte string DIN is no part of the command word: it comes with the command at
the port (R90) and the state holds it. -/

namespace Sys2Proof

/-- The queue a queue command acts on: field U, 0 for RXQ and 1 for TXQ (30_encoding R95). -/
inductive QueueId where
  | rx
  | tx
deriving DecidableEq, Repr

/-- The CRC seed variant: field U, 0 for plain and 1 for Modbus (30_encoding R95, 41_crc16 R153). -/
inductive CrcVariant where
  | plain
  | modbus
deriving DecidableEq, Repr

/-- The primitive kinds of the struct mapper (43_struct_mapper R201). -/
inductive Prim where
  | uint
  | i16
  | i32
  | i64
  | f32
  | f64
deriving DecidableEq, Repr

/-- The 46 commands of 30_encoding R94. -/
inductive Instr where
  | nop
  | qInit (q : QueueId) (byteSize : U16)
  | qPush (q : QueueId)
  | qPop (q : QueueId)
  | qPopv (q : QueueId)
  | qSetchk (q : QueueId) (id : Byte)
  | qEmpty (q : QueueId)
  | qCount (q : QueueId)
  | qClear (q : QueueId)
  | qSetcd (q : QueueId)
  | qDeinit (q : QueueId)
  | crcSeed (v : CrcVariant)
  | crcUpd (b : Byte)
  | crcUpdn
  | crcCalc (v : CrcVariant)
  | crcRd
  | cdcSend
  | cdcSendp
  | cdcRecv
  | cdcPoll
  | cdcSetcrc (enable : Bool)
  | cdcSethdl (id : Byte)
  | cdcPhase
  | mapParse (l : BitVec 4)
  | mapPrint (l : BitVec 4) (n : U16)
  | mapParsepUint (slot : Byte)
  | mapParsepI16 (slot : Byte)
  | mapParsepI32 (slot : Byte)
  | mapParsepI64 (slot : Byte)
  | mapParsepF32 (slot : Byte)
  | mapParsepF64 (slot : Byte)
  | mapPrintpUint (len slot : Byte)
  | mapPrintpI16 (len slot : Byte)
  | mapPrintpI32 (len slot : Byte)
  | mapPrintpI64 (len slot : Byte)
  | mapPrintpF32 (len slot : Byte)
  | mapPrintpF64 (len slot : Byte)
  | mapTrd (slot : Byte)
  | mapTwr (slot : Byte)
  | regSet
  | regGet
  | regDisp
  | rfRd (r : U16)
  | rfWr (r : U16)
  | wbAdd
  | wbClr
deriving DecidableEq, Repr

end Sys2Proof
end

