-- ==== Sys2Proof/Decode.lean ====
section
/-! DEFINITION. The decoder, total on 32-bit command words and rejecting by name (spec/30_encoding.md R90, R94, R97, R98),
and after it the encoder, written from the same table. A command is one 32-bit word (R99); the port delivers it whole, so
no byte order applies to it. -/

namespace Sys2Proof

/-- Why a command word is illegal (30_encoding R97): (a), (b), (c) or (d) or a U bit of (e), an IMM bit of (e). -/
inductive Illegal where
  | undefinedOp
  | reservedZ
  | undefinedU
  | reservedImm
deriving DecidableEq, Repr

/-- CW[31:24] (R90). -/
def fieldOp (w : U32) : Byte := w.extractLsb' 24 8

/-- CW[23:20] (R90). -/
def fieldU (w : U32) : BitVec 4 := w.extractLsb' 20 4

/-- CW[19:16] (R90). -/
def fieldZ (w : U32) : BitVec 4 := w.extractLsb' 16 4

/-- CW[15:0] (R90). -/
def fieldImm (w : U32) : U16 := w.extractLsb' 0 16

/-- IMM[15:8] (R92). -/
def immHigh (w : U32) : Byte := w.extractLsb' 8 8

/-- IMM[7:0] (R92). -/
def immLow (w : U32) : Byte := w.extractLsb' 0 8

/-- Z must be 0 (R93); the rest of the word is read by `k`. -/
def checkZ (w : U32) (k : Except Illegal Instr) : Except Illegal Instr :=
  if fieldZ w = 0#4 then k else .error .reservedZ

/-- A row whose U column is 0. -/
def checkU0 (w : U32) (k : Except Illegal Instr) : Except Illegal Instr :=
  if fieldU w = 0#4 then k else .error .undefinedU

/-- A row that selects a queue by U (R95). -/
def readQueue (w : U32) (k : QueueId → Except Illegal Instr) : Except Illegal Instr :=
  if fieldU w = 0#4 then k .rx else if fieldU w = 1#4 then k .tx else .error .undefinedU

/-- A row that selects a CRC variant by U (R95). -/
def readVariant (w : U32) (k : CrcVariant → Except Illegal Instr) : Except Illegal Instr :=
  if fieldU w = 0#4 then k .plain else if fieldU w = 1#4 then k .modbus else .error .undefinedU

/-- A row that selects a primitive kind by U: 0..5 are defined (R95, R97 (d)). -/
def readKind (w : U32) (k : Prim → Except Illegal Instr) : Except Illegal Instr :=
  match (fieldU w).toNat with
  | 0 => k .uint
  | 1 => k .i16
  | 2 => k .i32
  | 3 => k .i64
  | 4 => k .f32
  | 5 => k .f64
  | _ => .error .undefinedU

/-- A row whose IMM column is 0. -/
def checkImm0 (w : U32) (i : Instr) : Except Illegal Instr :=
  if fieldImm w = 0#16 then .ok i else .error .reservedImm

/-- A row that uses IMM[7:0], with IMM[15:8] = 0. -/
def readImm8 (w : U32) (k : Byte → Instr) : Except Illegal Instr :=
  if immHigh w = 0#8 then .ok (k (immLow w)) else .error .reservedImm

/-- A row that uses IMM[0], with IMM[15:1] = 0 (CDC.SETCRC). -/
def readImm1 (w : U32) (k : Bool → Instr) : Except Illegal Instr :=
  if fieldImm w = 0#16 then .ok (k false) else if fieldImm w = 1#16 then .ok (k true) else .error .reservedImm

/-- The row MAP.PARSEP.* of a kind. -/
def parsepOf : Prim → Byte → Instr
  | .uint => .mapParsepUint
  | .i16 => .mapParsepI16
  | .i32 => .mapParsepI32
  | .i64 => .mapParsepI64
  | .f32 => .mapParsepF32
  | .f64 => .mapParsepF64

/-- The row MAP.PRINTP.* of a kind; its operands are len and slot. -/
def printpOf : Prim → Byte → Byte → Instr
  | .uint => .mapPrintpUint
  | .i16 => .mapPrintpI16
  | .i32 => .mapPrintpI32
  | .i64 => .mapPrintpI64
  | .f32 => .mapPrintpF32
  | .f64 => .mapPrintpF64

/-- The command a word stands for, or why it is illegal (R98): OP first, then Z, then U, then IMM. -/
def decode (w : U32) : Except Illegal Instr :=
  match (fieldOp w).toNat with
  | 0x00 => checkZ w (checkU0 w (checkImm0 w .nop))
  | 0x10 => checkZ w (readQueue w fun q => .ok (.qInit q (fieldImm w)))
  | 0x11 => checkZ w (readQueue w fun q => checkImm0 w (.qPush q))
  | 0x12 => checkZ w (readQueue w fun q => checkImm0 w (.qPop q))
  | 0x13 => checkZ w (readQueue w fun q => checkImm0 w (.qPopv q))
  | 0x14 => checkZ w (readQueue w fun q => readImm8 w (.qSetchk q))
  | 0x15 => checkZ w (readQueue w fun q => checkImm0 w (.qEmpty q))
  | 0x16 => checkZ w (readQueue w fun q => checkImm0 w (.qCount q))
  | 0x17 => checkZ w (readQueue w fun q => checkImm0 w (.qClear q))
  | 0x18 => checkZ w (readQueue w fun q => checkImm0 w (.qSetcd q))
  | 0x19 => checkZ w (readQueue w fun q => checkImm0 w (.qDeinit q))
  | 0x20 => checkZ w (readVariant w fun v => checkImm0 w (.crcSeed v))
  | 0x21 => checkZ w (checkU0 w (readImm8 w .crcUpd))
  | 0x22 => checkZ w (checkU0 w (checkImm0 w .crcUpdn))
  | 0x23 => checkZ w (readVariant w fun v => checkImm0 w (.crcCalc v))
  | 0x24 => checkZ w (checkU0 w (checkImm0 w .crcRd))
  | 0x30 => checkZ w (checkU0 w (checkImm0 w .cdcSend))
  | 0x31 => checkZ w (checkU0 w (checkImm0 w .cdcSendp))
  | 0x32 => checkZ w (checkU0 w (checkImm0 w .cdcRecv))
  | 0x33 => checkZ w (checkU0 w (checkImm0 w .cdcPoll))
  | 0x34 => checkZ w (checkU0 w (readImm1 w .cdcSetcrc))
  | 0x35 => checkZ w (checkU0 w (readImm8 w .cdcSethdl))
  | 0x36 => checkZ w (checkU0 w (checkImm0 w .cdcPhase))
  | 0x40 => checkZ w (checkImm0 w (.mapParse (fieldU w)))
  | 0x41 => checkZ w (.ok (.mapPrint (fieldU w) (fieldImm w)))
  | 0x42 => checkZ w (readKind w fun k => readImm8 w (parsepOf k))
  | 0x43 => checkZ w (readKind w fun k => .ok (printpOf k (immHigh w) (immLow w)))
  | 0x44 => checkZ w (checkU0 w (readImm8 w .mapTrd))
  | 0x45 => checkZ w (checkU0 w (readImm8 w .mapTwr))
  | 0x50 => checkZ w (checkU0 w (checkImm0 w .regSet))
  | 0x51 => checkZ w (checkU0 w (checkImm0 w .regGet))
  | 0x52 => checkZ w (checkU0 w (checkImm0 w .regDisp))
  | 0x53 => checkZ w (checkU0 w (.ok (.rfRd (fieldImm w))))
  | 0x54 => checkZ w (checkU0 w (.ok (.rfWr (fieldImm w))))
  | 0x55 => checkZ w (checkU0 w (checkImm0 w .wbAdd))
  | 0x56 => checkZ w (checkU0 w (checkImm0 w .wbClr))
  | _ => .error .undefinedOp

/-- The command word of the fields OP, U, IMM, with Z = 0 (R90). -/
def wordOf (op : Byte) (u : BitVec 4) (imm : U16) : U32 :=
  op ++ u ++ 0#4 ++ imm

/-- Field U of a queue command (R95). -/
def queueCode : QueueId → BitVec 4
  | .rx => 0#4
  | .tx => 1#4

/-- Field U of a CRC variant command (R95). -/
def variantCode : CrcVariant → BitVec 4
  | .plain => 0#4
  | .modbus => 1#4

/-- The kind code of a primitive kind (43_struct_mapper R201). -/
def primCode : Prim → BitVec 4
  | .uint => 0#4
  | .i16 => 1#4
  | .i32 => 2#4
  | .i64 => 3#4
  | .f32 => 4#4
  | .f64 => 5#4

/-- IMM of a command that uses IMM[7:0] alone. -/
def imm8 (b : Byte) : U16 := 0#8 ++ b

/-- The command word of a command (R94). -/
def encode : Instr → U32
  | .nop => wordOf 0x00#8 0#4 0#16
  | .qInit q n => wordOf 0x10#8 (queueCode q) n
  | .qPush q => wordOf 0x11#8 (queueCode q) 0#16
  | .qPop q => wordOf 0x12#8 (queueCode q) 0#16
  | .qPopv q => wordOf 0x13#8 (queueCode q) 0#16
  | .qSetchk q id => wordOf 0x14#8 (queueCode q) (imm8 id)
  | .qEmpty q => wordOf 0x15#8 (queueCode q) 0#16
  | .qCount q => wordOf 0x16#8 (queueCode q) 0#16
  | .qClear q => wordOf 0x17#8 (queueCode q) 0#16
  | .qSetcd q => wordOf 0x18#8 (queueCode q) 0#16
  | .qDeinit q => wordOf 0x19#8 (queueCode q) 0#16
  | .crcSeed v => wordOf 0x20#8 (variantCode v) 0#16
  | .crcUpd b => wordOf 0x21#8 0#4 (imm8 b)
  | .crcUpdn => wordOf 0x22#8 0#4 0#16
  | .crcCalc v => wordOf 0x23#8 (variantCode v) 0#16
  | .crcRd => wordOf 0x24#8 0#4 0#16
  | .cdcSend => wordOf 0x30#8 0#4 0#16
  | .cdcSendp => wordOf 0x31#8 0#4 0#16
  | .cdcRecv => wordOf 0x32#8 0#4 0#16
  | .cdcPoll => wordOf 0x33#8 0#4 0#16
  | .cdcSetcrc e => wordOf 0x34#8 0#4 (if e then 1#16 else 0#16)
  | .cdcSethdl id => wordOf 0x35#8 0#4 (imm8 id)
  | .cdcPhase => wordOf 0x36#8 0#4 0#16
  | .mapParse l => wordOf 0x40#8 l 0#16
  | .mapPrint l n => wordOf 0x41#8 l n
  | .mapParsepUint s => wordOf 0x42#8 (primCode .uint) (imm8 s)
  | .mapParsepI16 s => wordOf 0x42#8 (primCode .i16) (imm8 s)
  | .mapParsepI32 s => wordOf 0x42#8 (primCode .i32) (imm8 s)
  | .mapParsepI64 s => wordOf 0x42#8 (primCode .i64) (imm8 s)
  | .mapParsepF32 s => wordOf 0x42#8 (primCode .f32) (imm8 s)
  | .mapParsepF64 s => wordOf 0x42#8 (primCode .f64) (imm8 s)
  | .mapPrintpUint n s => wordOf 0x43#8 (primCode .uint) (n ++ s)
  | .mapPrintpI16 n s => wordOf 0x43#8 (primCode .i16) (n ++ s)
  | .mapPrintpI32 n s => wordOf 0x43#8 (primCode .i32) (n ++ s)
  | .mapPrintpI64 n s => wordOf 0x43#8 (primCode .i64) (n ++ s)
  | .mapPrintpF32 n s => wordOf 0x43#8 (primCode .f32) (n ++ s)
  | .mapPrintpF64 n s => wordOf 0x43#8 (primCode .f64) (n ++ s)
  | .mapTrd s => wordOf 0x44#8 0#4 (imm8 s)
  | .mapTwr s => wordOf 0x45#8 0#4 (imm8 s)
  | .regSet => wordOf 0x50#8 0#4 0#16
  | .regGet => wordOf 0x51#8 0#4 0#16
  | .regDisp => wordOf 0x52#8 0#4 0#16
  | .rfRd r => wordOf 0x53#8 0#4 r
  | .rfWr r => wordOf 0x54#8 0#4 r
  | .wbAdd => wordOf 0x55#8 0#4 0#16
  | .wbClr => wordOf 0x56#8 0#4 0#16

/-- The command the decoder reads from the low `nbits` bits of `w`, numbered as spec/opcode_table.json numbers them, the
bits above them 0; `none` where it refuses. -/
def decodeTableWord (nbits w : Nat) : Option Instr :=
  match decode (BitVec.ofNat 32 (w % 2 ^ nbits)) with
  | .ok i => some i
  | .error _ => none

end Sys2Proof
end

