-- ==== Sys2Proof/Config.lean ====
section
/-! DEFINITION. What an implementation fixes: the record PARAMS (spec/00_scope.md R8 to R13) as plain data with its
defaults, and the free values. PARAMS is an argument of the spec's model; here every machine state carries one (its field
`params`, which no command writes), so that a claim over every state is a claim over every PARAMS (log 4).

The spec's CHECKERS and CUSTOM parameters are functions. A `Params` fixes such a function at the inputs it lists
(`points`) and leaves it free, an opaque constant of this file, at every other input (log 5, 6). -/

namespace Sys2Proof

/-- The tri-state result of every command (00_scope R18, 60_exceptions R271). -/
inductive Res where
  | ok
  | fail
  | inv
deriving DecidableEq, Repr, Inhabited

/-- The mapper's target record: 256 slots of 64 bits (10_state R54). -/
abbrev Target := Vector U64 256

/-- What a checker does on a view (40_ring_queue R122): one of its three verdicts, or the breach of its contract by
calling `get_value(o)` with `o ≥ get_count()`. The breach by `OK(n)` with a bad `n` is an `ok n`. -/
inductive CheckerAnswer where
  | inv
  | fail
  | ok (n : Nat)
  | badRead
deriving DecidableEq, Repr, Inhabited

/-- One input at which a CHECKERS entry is fixed: the view's elements, oldest first, the custom data, and the answer. -/
structure CheckerPoint where
  view : List Bytes
  cd : Option Bytes
  answer : CheckerAnswer
deriving DecidableEq, Repr

/-- A CHECKERS entry (00_scope R10, 40_ring_queue R122). The id is a natural number so that a record with an id outside
2..255 can be written, and refused (60_exceptions R276). -/
structure CheckerDef where
  id : Nat
  points : List CheckerPoint
deriving DecidableEq, Repr

/-- One input (slot index, bytes) at which a CUSTOM_PARSE function is fixed, for every target: its result, and the new
target as the slots it writes (43_struct_mapper R216). -/
structure ParsePoint where
  index : Nat
  bytes : Bytes
  res : Res
  writes : List (Nat × U64)
deriving DecidableEq, Repr

/-- One input (slot index, length) at which a CUSTOM_PRINT function is fixed, for every target (43_struct_mapper R216). -/
structure PrintPoint where
  index : Nat
  len : Nat
  res : Res
  bytes : Bytes
deriving DecidableEq, Repr

/-- A CUSTOM entry (00_scope R11, 43_struct_mapper R216). -/
structure CustomDef where
  kind : Nat
  parsePoints : List ParsePoint
  printPoints : List PrintPoint
deriving DecidableEq, Repr

/-- An item of an item list (30_encoding R109): a byte length and a kind code. An item of length 0 is a sentinel. -/
structure Item where
  len : U16
  kind : Byte
deriving DecidableEq, Repr

/-- Whether an address-table entry stands for a system register or for widget-bound register space
(44_address_registry R231). -/
inductive EntryKind where
  | sys
  | var
deriving DecidableEq, Repr

/-- An entry of SYS_TABLE (44_address_registry R231). `len` is a natural number, checked with the record (log 12). -/
structure Entry where
  addr : U16
  len : Nat
  kind : EntryKind
  wr : Bool
  rd : Bool
deriving DecidableEq, Repr

/-- The configuration record PARAMS (00_scope R8 to R12). Numbers with a range are natural numbers, so that a record
outside its range can be written, and refused (60_exceptions R276). `sysTable = none` is the default table of
44_address_registry R232, built from VAR_BASE and VAR_LEN. `widgetList` lists the types that do not map to list 0.
`itemLists` holds list id l at position l. -/
structure Params where
  hdr : Bytes
  lenW : Nat
  validOnly : Bool
  rxqBytes : Nat
  txqBytes : Nat
  cdMax : Nat
  checkers : List CheckerDef
  itemLists : List (List Item)
  custom : List CustomDef
  widgetList : List (Byte × Nat)
  cmdWr : Byte
  cmdRd : Byte
  sysTable : Option (List Entry)
  varBase : Nat
  varLen : Nat
  wbMax : Nat
  crcCfg : Option (U16 × Nat)
deriving DecidableEq, Repr

/-- The defaults of 00_scope R9 to R12. -/
def Params.default : Params :=
  { hdr := [0x5A#8, 0xA5#8]
    lenW := 1
    validOnly := true
    rxqBytes := 256
    txqBytes := 256
    cdMax := 16
    checkers := []
    itemLists := List.replicate 16 []
    custom := []
    widgetList := []
    cmdWr := 0x82#8
    cmdRd := 0x83#8
    sysTable := none
    varBase := 0x1000
    varLen := 0xF000
    wbMax := 64
    crcCfg := none }

/-- FREE VALUE (log 5). The answer of checker `id` on a view and custom data that PARAMS lists no point for. -/
opaque Config.checker : Byte → List Bytes → Option Bytes → CheckerAnswer

/-- FREE VALUE (log 6). CUSTOM_PARSE of a kind at a target, slot index and byte string that PARAMS lists no point for. -/
opaque Config.customParse : Byte → Target → Nat → Bytes → Res × Target

/-- FREE VALUE (log 6). CUSTOM_PRINT of a kind at a target, slot index and length that PARAMS lists no point for. -/
opaque Config.customPrint : Byte → Target → Nat → Nat → Res × Bytes

/-- FREE VALUE (log 8). AUX where the count it reports does not fit 32 bits. -/
opaque Config.auxOfLargeCount : Nat → U32

end Sys2Proof
end

