-- ==== Sys2Proof/Machine/State.lean ====
section
/-! DEFINITION. The state of the block (spec/10_state.md R30 to R62), as plain data, and the ways a step can stop.

Register names follow the spec: `rxq.cfg` is CFG_RXQ, `crcAcc` is CRC_ACC, and so on. Three fields carry what the command
port carries and are no state of the spec: `port`, `din`, `outs` (log 1, 3). `params` carries PARAMS (log 4). -/

namespace Sys2Proof.Machine

/-- A byte store: cells at strictly rising indices, none of them 0x00. An index that is not listed reads 0x00, the reset
contents of RF and of each QRAM (10_state R62). -/
abbrev Memory := List Host.Cell

/-- The canonical form of a byte store: rising indices, no listed 0x00. -/
abbrev Memory.wf (m : Memory) : Prop :=
  m.Pairwise (fun c d => c.1 < d.1) ∧ ∀ c ∈ m, c.2 ≠ 0#8

/-- A queue's state (10_state R33 to R41). -/
structure QState where
  /-- CFG_q: the queue is configured. -/
  cfg : Bool
  /-- ISZ_q: element length in bytes. -/
  isz : U16
  /-- MAXC_q: capacity in elements. -/
  maxc : U16
  /-- HEAD_q: index of the next push. -/
  head : U16
  /-- TAIL_q: index of the oldest element. -/
  tail : U16
  /-- CNT_q: number of stored elements. -/
  cnt : U16
  /-- QRAM_q. -/
  ram : Memory
  /-- CHK_q: checker id, 0 none, 1 FRAME. -/
  chk : Byte
  /-- CD_q: custom data. -/
  cd : Option Bytes
deriving DecidableEq, Repr

/-- A widget binding (10_state R52, R53). -/
structure Binding where
  handle : U16
  priority : Byte
  type : Byte
  sp : U16
  lenDsc : U16
  vp : U16
deriving DecidableEq, Repr

/-- An item of EVT (10_state R56, R57). -/
inductive Event where
  | setScalar (handle value : U16)
  | setRecord (handle : U16) (type : Byte) (record : List U64)
  | sysWrite (entry start : U16) (data : Bytes)
  | handlerCall (id : Byte) (payload : Bytes)
deriving DecidableEq, Repr

/-- The values of FAULT other than none (60_exceptions R274 to R276). -/
inductive ModelFault where
  /-- A checker read past its view, or returned OK(n) with n = 0 or n > count (R274). -/
  | checkerContract
  /-- A custom print returned OK with a byte string of the wrong length (R275). -/
  | customContract
  /-- PARAMS is outside its ranges (R276). -/
  | paramInvalid
deriving DecidableEq, Repr

/-- A command at the port (30_encoding R90). -/
structure Command where
  cw : U32
  din : Bytes
deriving DecidableEq, Repr

/-- The outputs of one command (10_state R32, 30_encoding R91). -/
structure Output where
  res : Res
  aux : U32
  dout : Bytes
deriving DecidableEq, Repr

/-- The machine state (10_state R30). -/
structure State where
  /-- PARAMS, a constant of the run (00_scope R8). -/
  params : Params
  /-- RXQ. -/
  rxq : QState
  /-- TXQ. -/
  txq : QState
  /-- CRC_ACC. -/
  crcAcc : U16
  /-- CRC_EN. -/
  crcEn : Bool
  /-- HDL: 0 none, 1 the register dispatcher, 2..255 external. -/
  hdl : Byte
  /-- RF, as 131072 bytes. -/
  rf : Memory
  /-- WB. -/
  wb : List Binding
  /-- TGT. -/
  tgt : Target
  /-- EVT, oldest first. -/
  evt : List Event
  /-- FAULT. -/
  fault : Option ModelFault
  /-- The commands that wait at the port, oldest first. -/
  port : List Command
  /-- DIN of the command being run. -/
  din : Bytes
  /-- The outputs of every command run so far, oldest first. -/
  outs : List Output
deriving DecidableEq, Repr

/-- How a step can end in a fault. -/
inductive Fault where
  /-- Raised by `step` alone, in a state whose FAULT is set: "While FAULT ≠ none the machine has no step" (60_exceptions
  R277). Safe: the machine stops where the spec says it has no step. -/
  | halted (f : ModelFault)
deriving DecidableEq, Repr

/-- How a step can be refused. -/
inductive Refusal where
  /-- Raised by an arm of `exec` whose instruction has no meaning. No arm raises it in this package. Safe. -/
  | notModelled (mnemonic : String)
deriving DecidableEq, Repr

/-- What a command returns: the state it leaves and its outputs (00_scope R17, `return (res, aux, dout)`). -/
structure Reply where
  st : State
  res : Res
  aux : U32
  dout : Bytes
deriving DecidableEq, Repr

/-- How a command that can break a parameter's contract ends: it returns, or it ends in `fault F` with the state written
before it (00_scope R17, 60_exceptions R277). -/
inductive CmdEnd where
  | returned (r : Reply)
  | faulted (s : State) (f : ModelFault)
deriving DecidableEq, Repr

/-- The post-init state of a queue of `bytes` bytes with checker `chk` (10_state R62). -/
def QState.postInit (bytes : Nat) (chk : Byte) : QState :=
  { cfg := true
    isz := 1#16
    maxc := BitVec.ofNat 16 bytes
    head := 0#16
    tail := 0#16
    cnt := 0#16
    ram := []
    chk := chk
    cd := none }

/-- The reset state under a PARAMS (10_state R62, 70_reset_and_hazards R290). -/
def State.postInit (p : Params) : State :=
  { params := p
    rxq := QState.postInit p.rxqBytes 1#8
    txq := QState.postInit p.txqBytes 0#8
    crcAcc := 0x0000#16
    crcEn := false
    hdl := 1#8
    rf := []
    wb := []
    tgt := Vector.replicate 256 0#64
    evt := []
    fault := none
    port := []
    din := []
    outs := [] }

/-- The machine right after reset, under the default PARAMS (70_reset_and_hazards R290, R291). -/
def State.reset : State := State.postInit Params.default

end Sys2Proof.Machine
end

