-- ==== Sys2Proof/Machine/Boot.lean ====
section
/-! DEFINITION. The start of a run: the default address table, the checks of PARAMS before the first command
(spec/60_exceptions.md R276), and the state a run starts in under a PARAMS. -/

namespace Sys2Proof.Machine

/-- The system entries of the default SYS_TABLE (44_address_registry R232). -/
def systemEntries : List Entry :=
  [⟨0x0004#16, 1, .sys, true, true⟩, ⟨0x000E#16, 1, .sys, false, true⟩, ⟨0x0010#16, 1, .sys, true, true⟩,
   ⟨0x0014#16, 1, .sys, false, true⟩, ⟨0x0080#16, 1, .sys, true, true⟩, ⟨0x0082#16, 1, .sys, true, true⟩,
   ⟨0x0084#16, 1, .sys, true, true⟩, ⟨0x00AA#16, 1, .sys, true, true⟩, ⟨0x00D4#16, 1, .sys, true, true⟩,
   ⟨0x00E0#16, 1, .sys, true, true⟩, ⟨0x0F00#16, 1, .sys, false, true⟩]

/-- SYS_TABLE of a PARAMS (00_scope R12, 44_address_registry R232). -/
def sysTableOf (p : Params) : List Entry :=
  match p.sysTable with
  | some t => t
  | none => systemEntries ++ [⟨BitVec.ofNat 16 p.varBase, p.varLen, .var, true, true⟩]

/-- The items of a list before its first sentinel (43_struct_mapper R200); the end of the data ends the list too (log 9). -/
def itemsBeforeSentinel (l : List Item) : List Item :=
  l.takeWhile fun it => it.len != 0

/-- R276: |HDR| and LEN_W in 1..4. -/
def codecParamsOk (p : Params) : Bool :=
  decide (1 ≤ p.hdr.length ∧ p.hdr.length ≤ 4 ∧ 1 ≤ p.lenW ∧ p.lenW ≤ 4)

/-- R276: RXQ_BYTES and TXQ_BYTES in 1..65535. -/
def queueParamsOk (p : Params) : Bool :=
  decide (1 ≤ p.rxqBytes ∧ p.rxqBytes ≤ 65535 ∧ 1 ≤ p.txqBytes ∧ p.txqBytes ≤ 65535)

/-- R276: the keys of CHECKERS in 2..255, of CUSTOM in 16..255. -/
def keyParamsOk (p : Params) : Bool :=
  (p.checkers.all fun d => decide (2 ≤ d.id ∧ d.id ≤ 255)) &&
    (p.custom.all fun d => decide (16 ≤ d.kind ∧ d.kind ≤ 255))

/-- R276: ITEM_LISTS has the ids 0..15, each list at most 255 items before its sentinel. -/
def listParamsOk (p : Params) : Bool :=
  p.itemLists.length == 16 && p.itemLists.all fun l => decide ((itemsBeforeSentinel l).length ≤ 255)

/-- R276: WIDGET_LIST maps to ids 0..15. -/
def widgetParamsOk (p : Params) : Bool :=
  p.widgetList.all fun e => decide (e.2 ≤ 15)

/-- R276: CMD_WR and CMD_RD differ (00_scope R12). -/
def commandParamsOk (p : Params) : Bool :=
  p.cmdWr != p.cmdRd

/-- R276: every entry of a given SYS_TABLE has len ≥ 1 and addr + len ≤ 0x10000; with the default table, the VAR window
has. (The system entries of the default table have.) -/
def tableParamsOk (p : Params) : Bool :=
  match p.sysTable with
  | some t => t.all fun e => decide (1 ≤ e.len ∧ e.addr.toNat + e.len ≤ 0x10000)
  | none => decide (1 ≤ p.varLen ∧ p.varBase + p.varLen ≤ 0x10000)

/-- R276: the bit index of CRC_CFG in 0..15. -/
def crcCfgParamsOk (p : Params) : Bool :=
  match p.crcCfg with
  | some c => decide (c.2 ≤ 15)
  | none => true

/-- PARAMS is within the ranges of 60_exceptions R276. -/
def paramsOk (p : Params) : Bool :=
  codecParamsOk p && queueParamsOk p && keyParamsOk p && listParamsOk p && widgetParamsOk p && commandParamsOk p &&
    tableParamsOk p && crcCfgParamsOk p

/-- The state a run under PARAMS starts in: reset, or reset with FAULT = PARAM_INVALID (60_exceptions R276). -/
def startState (p : Params) : State :=
  if paramsOk p then State.postInit p else { State.postInit p with fault := some .paramInvalid }

end Sys2Proof.Machine
end

