-- ==== Sys2Proof/Machine/Flags.lean ====
section
/-! DEFINITION. The block has no flag register (spec/10_state.md R60): a command reports its conditions in RES and AUX. The
codes and the AUX values are computed here. -/

namespace Sys2Proof.Machine

/-- The 2-bit code of a result (00_scope R18; D3). -/
def resCode : Res → BitVec 2
  | .ok => 0#2
  | .fail => 1#2
  | .inv => 2#2

/-- The code of a model fault, which AUX shows (60_exceptions R274 to R277). -/
def faultCode : ModelFault → U32
  | .checkerContract => 1#32
  | .customContract => 2#32
  | .paramInvalid => 3#32

/-- AUX as a one-bit condition: eviction on Q.PUSH, emptiness on Q.EMPTY (10_state R60). -/
def auxOfBool (b : Bool) : U32 :=
  if b then 1#32 else 0#32

/-- AUX as a count. The spec bounds no byte string (30_encoding R91; D59) and gives AUX 32 bits: what AUX shows of a count
that does not fit is a free value (log 8). -/
def auxOfCount (n : Nat) : U32 :=
  if n < 2 ^ 32 then BitVec.ofNat 32 n else Config.auxOfLargeCount n

/-- AUX of an illegal command word (60_exceptions R273). -/
def auxIllegal : U32 := 0xFFFFFFFF#32

/-- The code CDC.PHASE gives for each state of the receive side (30_encoding R112). -/
def phaseIdle : U32 := 0#32
/-- HEADER_MATCHED (30_encoding R112). -/
def phaseHeaderMatched : U32 := 1#32
/-- ACCUMULATING (30_encoding R112). -/
def phaseAccumulating : U32 := 2#32
/-- VALIDATING (30_encoding R112). -/
def phaseValidating : U32 := 3#32

end Sys2Proof.Machine
end

