-- ==== Sys2Proof/Machine/Operands.lean ====
section
/-! DEFINITION. Operand forms: big-endian byte strings (spec/00_scope.md R16, 20_memory R74), slices, and the fields that
commands carry in DIN. -/

namespace Sys2Proof.Machine

/-- `unBE(s)`: the big-endian value of a byte string (00_scope R16). -/
def unBE (s : Bytes) : Nat :=
  s.foldl (fun acc b => acc * 256 + b.toNat) 0

/-- `BE_n(v)`: the n-byte big-endian string of the low 8n bits of v (00_scope R16). -/
def be : Nat → Nat → Bytes
  | 0, _ => []
  | n + 1, v => BitVec.ofNat 8 (v / 256 ^ n) :: be n v

/-- `s[a..b)` (00_scope R16). -/
def slice (s : Bytes) (a b : Nat) : Bytes :=
  (s.drop a).take (b - a)

/-- The big-endian 16-bit field at offset `a` of a byte string. -/
def half (s : Bytes) (a : Nat) : U16 :=
  BitVec.ofNat 16 (unBE (slice s a (a + 2)))

/-- The byte at offset `a` of a byte string (0 past its end; every caller checks the length first). -/
def byteAt (s : Bytes) (a : Nat) : Byte :=
  s.getD a 0#8

/-- The binding that WB.ADD's 10 bytes spell (30_encoding R107). -/
def bindingOf (s : Bytes) : Binding :=
  { handle := half s 0
    priority := byteAt s 2
    type := byteAt s 3
    sp := half s 4
    lenDsc := half s 6
    vp := half s 8 }

/-- The bytes of a primitive kind are a length it takes (43_struct_mapper R201). -/
def primLenOk : Prim → Nat → Bool
  | .uint, n => decide (1 ≤ n ∧ n ≤ 8)
  | .i16, n => n == 2
  | .i32, n => n == 4
  | .i64, n => n == 8
  | .f32, n => n == 4
  | .f64, n => n == 8

/-- The slot value that a primitive kind's bytes stand for, at a length the kind takes (43_struct_mapper R204 to R209):
zero-extended, sign-extended, or the bit pattern as it is. -/
def primValue : Prim → Bytes → U64
  | .uint, b => BitVec.ofNat 64 (unBE b)
  | .i16, b => (BitVec.ofNat 16 (unBE b)).signExtend 64
  | .i32, b => (BitVec.ofNat 32 (unBE b)).signExtend 64
  | .i64, b => BitVec.ofNat 64 (unBE b)
  | .f32, b => BitVec.ofNat 64 (unBE b)
  | .f64, b => BitVec.ofNat 64 (unBE b)

/-- `parse_kind(k, b)` of 43_struct_mapper R201: the value, or `none` for FAIL. -/
def parsePrim (k : Prim) (b : Bytes) : Option U64 :=
  if primLenOk k b.length then some (primValue k b) else none

/-- `print_kind(k, v, len)` of 43_struct_mapper R201: the low `len` bytes of the slot, most significant first, or `none`
for FAIL. -/
def printPrim (k : Prim) (v : U64) (len : Nat) : Option Bytes :=
  if primLenOk k len then some (be len v.toNat) else none

/-- The primitive kind of a kind code (30_encoding R110); `none` for the reserved and the custom codes. -/
def primOfCode (k : Byte) : Option Prim :=
  match k.toNat with
  | 0 => some .uint
  | 1 => some .i16
  | 2 => some .i32
  | 3 => some .i64
  | 4 => some .f32
  | 5 => some .f64
  | _ => none

end Sys2Proof.Machine
end

