-- ==== Sys2Proof/Machine/Ops.lean ====
section
/-! DEFINITION. The named operations over the state: byte stores, queue elements, the register file, the target, how a
command returns, and how it ends in `fault F` (spec/60_exceptions.md R277). The block takes no exception and returns from
none (R270, R280); `fault F` is the one way a command ends other than by returning, and `raiseFault` is its one definition. -/

namespace Sys2Proof.Machine

/-! ## How a command ends -/

/-- `return (res, aux, dout)` with the state `s` (00_scope R17). -/
def answer (s : State) (res : Res) (aux : U32) (dout : Bytes) : Reply :=
  { st := s, res := res, aux := aux, dout := dout }

/-- `return (FAIL, 0, [])` with no state change, the result of an interface error (60_exceptions R271). -/
def answerFail (s : State) : Reply := answer s .fail 0#32 []

/-- The outputs of a command reach the port: they are appended to OUTS (log 3). -/
def record (s : State) (res : Res) (aux : U32) (dout : Bytes) : State :=
  { s with outs := s.outs ++ [{ res := res, aux := aux, dout := dout }] }

/-- A command that returned takes its next state. -/
def finish (r : Reply) : Host.Outcome State Fault Refusal :=
  .next (record r.st r.res r.aux r.dout)

/-- `fault F` (60_exceptions R277): FAULT is set, the state written before it in the command stays written, and the outputs
are FAIL, F's code and []. -/
def raiseFault (s : State) (f : ModelFault) : Host.Outcome State Fault Refusal :=
  .next (record { s with fault := some f } .fail (faultCode f) [])

/-- A command that returned or ended in a fault takes its next state. -/
def settle : CmdEnd → Host.Outcome State Fault Refusal
  | .returned r => finish r
  | .faulted s f => raiseFault s f

/-- An illegal command word (60_exceptions R273): FAIL, 0xFFFF_FFFF, [], no state change, no event. -/
def rejectWord (s : State) : Host.Outcome State Fault Refusal :=
  finish (answer s .fail auxIllegal [])

/-- `emit E` for a list of events, in order (00_scope R17, 10_state R58). -/
def emit (s : State) (es : List Event) : State :=
  { s with evt := s.evt ++ es }

/-! ## The command port (20_memory R83) -/

/-- What the machine finds when it looks for its next command. -/
inductive Fetch where
  | halted (f : ModelFault)
  | idle
  | command (cw : U32) (s : State)
deriving DecidableEq, Repr

/-- FAULT first (60_exceptions R278 (1)); then the oldest command at the port, which leaves the port, with its DIN. -/
def fetch (s : State) : Fetch :=
  match s.fault with
  | some f => .halted f
  | none =>
    match s.port with
    | [] => .idle
    | c :: rest => .command c.cw { s with port := rest, din := c.din }

/-- The port with `cw` as the word of the next command: it takes the place of the oldest command's word, whose DIN stays,
or stands alone with DIN = []. -/
def portWithWord (cw : U32) : List Command → List Command
  | [] => [{ cw := cw, din := [] }]
  | c :: rest => { c with cw := cw } :: rest

/-! ## Byte stores -/

/-- The byte at an index; one that is not listed reads 0x00 (10_state R62). -/
def memRead : Memory → Nat → Byte
  | [], _ => 0#8
  | c :: m, a => if c.1 = a then c.2 else memRead m a

/-- Write one byte, keeping the canonical form. -/
def memWrite : Memory → Nat → Byte → Memory
  | [], a, b => if b = 0#8 then [] else [(a, b)]
  | c :: m, a, b =>
    if a < c.1 then (if b = 0#8 then c :: m else (a, b) :: c :: m)
    else if a = c.1 then (if b = 0#8 then m else (a, b) :: m)
    else c :: memWrite m a b

/-- The `n` bytes from index `a`. -/
def memReadBytes (m : Memory) (a : Nat) : Nat → Bytes
  | 0 => []
  | n + 1 => memRead m a :: memReadBytes m (a + 1) n

/-- Write a byte string from index `a`. -/
def memWriteBytes : Memory → Nat → Bytes → Memory
  | m, _, [] => m
  | m, a, b :: bs => memWriteBytes (memWrite m a b) (a + 1) bs

/-! ## Queues (40_ring_queue R120 to R122) -/

/-- The state of queue q. -/
def State.queue (s : State) : QueueId → QState
  | .rx => s.rxq
  | .tx => s.txq

/-- `s` with the state of queue q replaced. -/
def State.withQueue (s : State) (q : QueueId) (x : QState) : State :=
  match q with
  | .rx => { s with rxq := x }
  | .tx => { s with txq := x }

/-- QBYTES_q (40_ring_queue R123). -/
def queueBytes (p : Params) : QueueId → Nat
  | .rx => p.rxqBytes
  | .tx => p.txqBytes

/-- The preamble of every queue command except Q.INIT (40_ring_queue R120). -/
def onQueue (s : State) (q : QueueId) (k : QState → Reply) : Reply :=
  if (s.queue q).cfg then k (s.queue q) else answerFail s

/-- `elem(q, i)` (40_ring_queue R121). -/
def elemAt (x : QState) (i : Nat) : Bytes :=
  memReadBytes x.ram (i * x.isz.toNat) x.isz.toNat

/-- An element index moved on by `n` places, modulo MAXC; `adv` is the move by one (40_ring_queue R121). -/
def advBy (x : QState) (i : U16) (n : Nat) : U16 :=
  BitVec.ofNat 16 ((i.toNat + n) % x.maxc.toNat)

/-- `get_value(o)` of the view (40_ring_queue R122). -/
def viewAt (x : QState) (o : Nat) : Bytes :=
  elemAt x ((x.tail.toNat + o) % x.maxc.toNat)

/-- The view: the stored elements, oldest first (40_ring_queue R122, 10_state R42). Its length is `get_count()`. -/
def view (x : QState) : List Bytes :=
  (List.range x.cnt.toNat).map (viewAt x)

/-- The queue after a push of an item of ISZ bytes (40_ring_queue R124). -/
def pushElem (x : QState) (item : Bytes) : QState :=
  let y := { x with
    ram := memWriteBytes x.ram (x.head.toNat * x.isz.toNat) item
    head := advBy x x.head 1 }
  if x.cnt = x.maxc then { y with tail := advBy x x.tail 1 } else { y with cnt := x.cnt + 1#16 }

/-- Whether a push evicts the oldest element (40_ring_queue R124). -/
def pushEvicts (x : QState) : Bool := x.cnt == x.maxc

/-- The queue after its `n` oldest elements are removed (40_ring_queue R125, R126). -/
def dropElems (x : QState) (n : Nat) : QState :=
  { x with tail := advBy x x.tail n, cnt := x.cnt - BitVec.ofNat 16 n }

/-- A queue the codec can use: configured, with one-byte elements (60_exceptions R272, "unusable"; D27). -/
def usable (x : QState) : Bool := x.cfg && x.isz == 1#16

/-- The bytes of a queue of one-byte elements, oldest first. On wider elements, which no reachable state shows to the
codec, the first byte of each (log 10). -/
def viewBytes (x : QState) : Bytes := (view x).map fun e => byteAt e 0

/-! ## The register file (10_state R50, 44_address_registry R230) -/

/-- The number of bytes of RF. -/
def rfBytes : Nat := 0x20000

/-- `RFRead(r)` (10_state R50). -/
def rfRead (m : Memory) (r : U16) : U16 :=
  memRead m (2 * r.toNat) ++ memRead m (2 * r.toNat + 1)

/-- `RFWrite(r, v)` (10_state R50). -/
def rfWrite (m : Memory) (r : U16) (v : U16) : Memory :=
  memWrite (memWrite m (2 * r.toNat) (v.extractLsb' 8 8)) (2 * r.toNat + 1) (v.extractLsb' 0 8)

/-- Write a byte string into RF from byte index `a`; bytes past the top are discarded. -/
def rfStoreFrom : Memory → Nat → Bytes → Memory
  | m, _, [] => m
  | m, a, b :: bs => rfStoreFrom (if a < rfBytes then memWrite m a b else m) (a + 1) bs

/-- `RFStore(R, d)` (44_address_registry R230). -/
def rfStore (m : Memory) (r : U16) (d : Bytes) : Memory :=
  rfStoreFrom m (2 * r.toNat) d

/-- The byte of RF at an index, 0x00 past the top. -/
def rfByte (m : Memory) (a : Nat) : Byte :=
  if a < rfBytes then memRead m a else 0#8

/-- `RFLoad(R, n)` (44_address_registry R230). -/
def rfLoad (m : Memory) (r : U16) (n : Nat) : Bytes :=
  (List.range (2 * n)).map fun j => rfByte m (2 * r.toNat + j)

/-! ## The target (10_state R54) -/

/-- A slot of a target. -/
def tgtRead (t : Target) (i : Nat) : U64 := t[i]?.getD 0#64

/-- A target with one slot written. -/
def tgtWrite (t : Target) (i : Nat) (v : U64) : Target := t.setIfInBounds i v

/-- A target with several slots written, in order. -/
def tgtWrites (t : Target) : List (Nat × U64) → Target
  | [] => t
  | w :: ws => tgtWrites (tgtWrite t w.1 w.2) ws

end Sys2Proof.Machine
end

