-- ==== Sys2Proof/Machine/Mapper.lean ====
section
/-! DEFINITION. The binary struct mapper (spec/43_struct_mapper.md R200 to R218). -/

namespace Sys2Proof.Machine

/-! ## Items and kinds (R200, R201, R216) -/

/-- items(l): the items of list l before its first sentinel (R200). -/
def itemsOf (p : Params) (l : Nat) : List Item :=
  itemsBeforeSentinel (p.itemLists.getD l [])

/-- The CUSTOM entry of a kind code, for the codes 16..255 (R216). -/
def customOf (p : Params) (k : Byte) : Option CustomDef :=
  if 16 ≤ k.toNat then p.custom.find? (fun d => d.kind == k.toNat) else none

/-- CUSTOM_PARSE_k(t, i, b): at a point PARAMS lists, the listed result; elsewhere free (log 6). -/
def customParse (d : CustomDef) (k : Byte) (t : Target) (i : Nat) (b : Bytes) : Res × Target :=
  match d.parsePoints.find? (fun pt => pt.index == i && pt.bytes == b) with
  | none => Config.customParse k t i b
  | some pt => (pt.res, tgtWrites t pt.writes)

/-- CUSTOM_PRINT_k(t, i, len): at a point PARAMS lists, the listed result; elsewhere free (log 6). -/
def customPrint (d : CustomDef) (k : Byte) (t : Target) (i len : Nat) : Res × Bytes :=
  match d.printPoints.find? (fun pt => pt.index == i && pt.len == len) with
  | none => Config.customPrint k t i len
  | some pt => (pt.res, pt.bytes)

/-- What item i makes of its bytes (R202, loop body): a custom kind's result and new target, or a built-in kind's value in
slot i; FAIL for a reserved or undefined kind and for a wrong length. -/
def parseItem (p : Params) (k : Byte) (t : Target) (i : Nat) (b : Bytes) : Res × Target :=
  match customOf p k with
  | some d => customParse d k t i b
  | none =>
    match (primOfCode k).bind fun prim => parsePrim prim b with
    | none => (.fail, t)
    | some v => (.ok, tgtWrite t i v)

/-- What item i prints (R203, loop body). -/
def printItem (p : Params) (k : Byte) (t : Target) (i len : Nat) : Res × Bytes :=
  match customOf p k with
  | some d => customPrint d k t i len
  | none =>
    match (primOfCode k).bind fun prim => printPrim prim (tgtRead t i) len with
    | none => (.fail, [])
    | some b => (.ok, b)

/-! ## The two loops (R202, R203) -/

/-- How a parse of a list ends: the result, what AUX counts (bytes consumed, or the failing item's index), the target. -/
structure ParseEnd where
  res : Res
  aux : Nat
  tgt : Target
deriving DecidableEq, Repr

/-- The loop of MAP.PARSE over the items from index i on, at offset off of the buffer (R202; C3). -/
def parseItems (p : Params) (buf : Bytes) : List Item → Nat → Nat → Target → ParseEnd
  | [], _, off, t => { res := .ok, aux := off, tgt := t }
  | it :: its, i, off, t =>
    if buf.length < off + it.len.toNat then { res := .fail, aux := i, tgt := t }
    else
      match parseItem p it.kind t i (slice buf off (off + it.len.toNat)) with
      | (.ok, t') => parseItems p buf its (i + 1) (off + it.len.toNat) t'
      | (r, _) => { res := r, aux := i, tgt := t }

/-- How a print of a list ends: the result, what AUX counts, the buffer; or a custom kind broke its contract. -/
inductive PrintEnd where
  | done (res : Res) (aux : Nat) (buf : Bytes)
  | broken
deriving DecidableEq, Repr

/-- `buf[off .. off + |b|) <- b`. -/
def overwrite (buf : Bytes) (off : Nat) (b : Bytes) : Bytes :=
  buf.take off ++ b ++ buf.drop (off + b.length)

/-- The loop of MAP.PRINT over the items from index i on, at offset off of the buffer (R203; R275 for the contract). -/
def printItems (p : Params) (t : Target) : List Item → Nat → Nat → Bytes → PrintEnd
  | [], _, off, buf => .done .ok off buf
  | it :: its, i, off, buf =>
    if buf.length < off + it.len.toNat then .done .fail i buf
    else
      match printItem p it.kind t i it.len.toNat with
      | (.ok, b) =>
        if b.length = it.len.toNat then printItems p t its (i + 1) (off + it.len.toNat) (overwrite buf off b)
        else .broken
      | (r, _) => .done r i buf

/-! ## List commands -/

/-- MAP.PARSE (R202). -/
def execMapParse (l : BitVec 4) (s : State) : Host.Outcome State Fault Refusal :=
  let e := parseItems s.params s.din (itemsOf s.params l.toNat) 0 0 s.tgt
  finish (answer { s with tgt := e.tgt } e.res (auxOfCount e.aux) [])

/-- MAP.PRINT (R203). -/
def execMapPrint (l : BitVec 4) (n : U16) (s : State) : Host.Outcome State Fault Refusal :=
  settle <|
    match printItems s.params s.tgt (itemsOf s.params l.toNat) 0 0 (List.replicate n.toNat 0#8) with
    | .done res aux buf => .returned (answer s res (auxOfCount aux) buf)
    | .broken => .faulted s .customContract

/-! ## Primitive commands (R204 to R215) -/

/-- MAP.PARSEP of a kind: the bytes of DIN into slot `slot`; AUX = |DIN|. -/
def parsePrimInto (k : Prim) (slot : Byte) (s : State) : Reply :=
  match parsePrim k s.din with
  | none => answerFail s
  | some v => answer { s with tgt := tgtWrite s.tgt slot.toNat v } .ok (auxOfCount s.din.length) []

/-- MAP.PRINTP of a kind: slot `slot` as `len` bytes; AUX = len. -/
def printPrimFrom (k : Prim) (len slot : Byte) (s : State) : Reply :=
  match printPrim k (tgtRead s.tgt slot.toNat) len.toNat with
  | none => answerFail s
  | some b => answer s .ok (len.setWidth 32) b

/-- MAP.PARSEP.UINT (R204). -/
def execMapParsepUint (slot : Byte) (s : State) : Host.Outcome State Fault Refusal := finish (parsePrimInto .uint slot s)

/-- MAP.PARSEP.I16 (R205). -/
def execMapParsepI16 (slot : Byte) (s : State) : Host.Outcome State Fault Refusal := finish (parsePrimInto .i16 slot s)

/-- MAP.PARSEP.I32 (R206). -/
def execMapParsepI32 (slot : Byte) (s : State) : Host.Outcome State Fault Refusal := finish (parsePrimInto .i32 slot s)

/-- MAP.PARSEP.I64 (R207). -/
def execMapParsepI64 (slot : Byte) (s : State) : Host.Outcome State Fault Refusal := finish (parsePrimInto .i64 slot s)

/-- MAP.PARSEP.F32 (R208). -/
def execMapParsepF32 (slot : Byte) (s : State) : Host.Outcome State Fault Refusal := finish (parsePrimInto .f32 slot s)

/-- MAP.PARSEP.F64 (R209). -/
def execMapParsepF64 (slot : Byte) (s : State) : Host.Outcome State Fault Refusal := finish (parsePrimInto .f64 slot s)

/-- MAP.PRINTP.UINT (R210). -/
def execMapPrintpUint (len slot : Byte) (s : State) : Host.Outcome State Fault Refusal :=
  finish (printPrimFrom .uint len slot s)

/-- MAP.PRINTP.I16 (R211). -/
def execMapPrintpI16 (len slot : Byte) (s : State) : Host.Outcome State Fault Refusal :=
  finish (printPrimFrom .i16 len slot s)

/-- MAP.PRINTP.I32 (R212). -/
def execMapPrintpI32 (len slot : Byte) (s : State) : Host.Outcome State Fault Refusal :=
  finish (printPrimFrom .i32 len slot s)

/-- MAP.PRINTP.I64 (R213). -/
def execMapPrintpI64 (len slot : Byte) (s : State) : Host.Outcome State Fault Refusal :=
  finish (printPrimFrom .i64 len slot s)

/-- MAP.PRINTP.F32 (R214). -/
def execMapPrintpF32 (len slot : Byte) (s : State) : Host.Outcome State Fault Refusal :=
  finish (printPrimFrom .f32 len slot s)

/-- MAP.PRINTP.F64 (R215). -/
def execMapPrintpF64 (len slot : Byte) (s : State) : Host.Outcome State Fault Refusal :=
  finish (printPrimFrom .f64 len slot s)

/-! ## Target access commands -/

/-- MAP.TRD (R217). -/
def execMapTrd (slot : Byte) (s : State) : Host.Outcome State Fault Refusal :=
  finish (answer s .ok ((tgtRead s.tgt slot.toNat).setWidth 32) (be 8 (tgtRead s.tgt slot.toNat).toNat))

/-- MAP.TWR (R218). -/
def execMapTwr (slot : Byte) (s : State) : Host.Outcome State Fault Refusal :=
  finish <|
    if s.din.length = 8 then
      answer { s with tgt := tgtWrite s.tgt slot.toNat (BitVec.ofNat 64 (unBE s.din)) } .ok 0#32 []
    else answerFail s

end Sys2Proof.Machine
end

