-- ==== Sys2Proof/Machine/Crc.lean ====
section
/-! DEFINITION. The CRC-16 functions (spec/41_crc16.md R150 to R153) and the five CRC commands (R154 to R158). -/

namespace Sys2Proof.Machine

/-- One step of a table entry: `c & 1 ? (c >> 1) XOR 0xA001 : c >> 1` (R150). -/
def crcStep (c : U16) : U16 :=
  if c.getLsbD 0 then (c >>> 1) ^^^ 0xA001#16 else c >>> 1

/-- `n` such steps. -/
def crcSteps : Nat → U16 → U16
  | 0, c => c
  | n + 1, c => crcSteps n (crcStep c)

/-- T[i] (R150). -/
def crcTable (i : Byte) : U16 := crcSteps 8 (i.setWidth 16)

/-- `update(c, b)` (R151). -/
def crcUpdate (c : U16) (b : Byte) : U16 :=
  (c >>> 8) ^^^ crcTable (c.setWidth 8 ^^^ b)

/-- `crc(seed, s)` (R152). -/
def crcOf (seed : U16) (s : Bytes) : U16 := s.foldl crcUpdate seed

/-- `seed(v)` (R153). -/
def crcSeedOf : CrcVariant → U16
  | .plain => 0x0000#16
  | .modbus => 0xFFFF#16

/-- `crc_modbus(s)` (R152). -/
def crcModbus (s : Bytes) : U16 := crcOf (crcSeedOf .modbus) s

/-- `S.CRC_ACC <- c; return (OK, S.CRC_ACC, [])`. -/
def setCrcAcc (s : State) (c : U16) : Reply :=
  answer { s with crcAcc := c } .ok (c.setWidth 32) []

/-- CRC.SEED (R154). -/
def execCrcSeed (v : CrcVariant) (s : State) : Host.Outcome State Fault Refusal :=
  finish (setCrcAcc s (crcSeedOf v))

/-- CRC.UPD (R155). -/
def execCrcUpd (b : Byte) (s : State) : Host.Outcome State Fault Refusal :=
  finish (setCrcAcc s (crcUpdate s.crcAcc b))

/-- CRC.UPDN (R156). -/
def execCrcUpdn (s : State) : Host.Outcome State Fault Refusal :=
  finish (setCrcAcc s (crcOf s.crcAcc s.din))

/-- CRC.CALC (R157). -/
def execCrcCalc (v : CrcVariant) (s : State) : Host.Outcome State Fault Refusal :=
  finish (answer s .ok ((crcOf (crcSeedOf v) s.din).setWidth 32) [])

/-- CRC.RD (R158). -/
def execCrcRd (s : State) : Host.Outcome State Fault Refusal :=
  finish (answer s .ok (s.crcAcc.setWidth 32) [])

end Sys2Proof.Machine
end

