-- ==== Sys2Proof/Machine/Frame.lean ====
section
/-! DEFINITION. The wire frame as functions of PARAMS and CRC_EN: pack, the FRAME checker, strip
(spec/42_frame_codec.md R170 to R173; the format is 30_encoding R100 to R103). -/

namespace Sys2Proof.Machine

/-- c, the number of CRC bytes (R170). -/
def crcLen (crcEn : Bool) : Nat := if crcEn then 2 else 0

/-- H + W (R170). -/
def preambleLen (p : Params) : Nat := p.hdr.length + p.lenW

/-- The two CRC bytes of a payload on the wire, low byte first (20_memory R75; C1). -/
def crcWire (payload : Bytes) : Bytes :=
  [(crcModbus payload).extractLsb' 0 8, (crcModbus payload).extractLsb' 8 8]

/-- `pack(P)` (R171); `none` where the length does not fit the length field. -/
def pack (p : Params) (crcEn : Bool) (payload : Bytes) : Option Bytes :=
  if payload.length + crcLen crcEn < 256 ^ p.lenW then
    some (p.hdr ++ be p.lenW (payload.length + crcLen crcEn) ++ payload ++ (if crcEn then crcWire payload else []))
  else none

/-- The comparison of the header with the bytes at hand (R172, first loop; C7): `none` where every header byte is there and
matches. -/
def headerVerdict : Bytes → Bytes → Option CheckerAnswer
  | [], _ => none
  | _ :: _, [] => some .inv
  | h :: hs, b :: bs => if b = h then headerVerdict hs bs else some .fail

/-- L, the value of the length field (30_encoding R101). -/
def declaredLen (p : Params) (v : Bytes) : Nat := unBE (slice v p.hdr.length (preambleLen p))

/-- T = H + W + L (R172, step 2). -/
def declaredTotal (p : Params) (v : Bytes) : Nat := preambleLen p + declaredLen p v

/-- R172, step 4: the received CRC bytes are those of the payload. -/
def crcMatches (p : Params) (v : Bytes) : Bool :=
  let t := declaredTotal p v
  decide (2 ≤ declaredLen p v) &&
    (crcModbus (slice v (preambleLen p) (t - 2))).toNat ==
      (byteAt v (t - 2)).toNat + 256 * (byteAt v (t - 1)).toNat

/-- The FRAME checker on the view's bytes (R172). -/
def frameCheck (p : Params) (crcEn : Bool) (v : Bytes) : CheckerAnswer :=
  match headerVerdict p.hdr v with
  | some a => a
  | none =>
    if v.length < preambleLen p then .inv
    else if v.length < declaredTotal p v then .inv
    else if crcEn && !crcMatches p v then .fail
    else .ok (declaredTotal p v)

/-- `strip(f)` of a whole frame f (R173). -/
def strip (p : Params) (crcEn : Bool) (f : Bytes) : Bytes :=
  slice f (preambleLen p) (f.length - crcLen crcEn)

end Sys2Proof.Machine
end

