-- ==== Sys2Proof/Machine/Queue.lean ====
section
/-! DEFINITION. The ring-queue commands (spec/40_ring_queue.md R120 to R132). -/

namespace Sys2Proof.Machine

/-! ## Checkers (R122) -/

/-- A CHECKERS entry's answer on a view and custom data: at a point PARAMS lists, the listed one; elsewhere free (log 5). -/
def paramChecker (p : Params) (id : Byte) (v : List Bytes) (cd : Option Bytes) : CheckerAnswer :=
  match p.checkers.find? (fun d => d.id == id.toNat) with
  | none => Config.checker id v cd
  | some d =>
    match d.points.find? (fun pt => pt.view == v && pt.cd == cd) with
    | none => Config.checker id v cd
    | some pt => pt.answer

/-- The answer of the checker that CHK_q names (10_state R40), on the queue's view. Every caller has dealt with CHK_q = 0. -/
def runChecker (p : Params) (crcEn : Bool) (x : QState) : CheckerAnswer :=
  if x.chk = 1#8 then frameCheck p crcEn (viewBytes x) else paramChecker p x.chk (view x) x.cd

/-- The loop of Q.POPV (R126), `turns` attempts left and `dropped` elements dropped so far. -/
def popvLoop (q : QueueId) : Nat → Nat → State → CmdEnd
  | 0, dropped, s => .returned (answer s .fail (auxOfCount dropped) [])
  | turns + 1, dropped, s =>
    match runChecker s.params s.crcEn (s.queue q) with
    | .badRead => .faulted s .checkerContract
    | .inv => .returned (answer s .inv (auxOfCount dropped) [])
    | .fail => popvLoop q turns (dropped + 1) (s.withQueue q (dropElems (s.queue q) 1))
    | .ok n =>
      if n = 0 ∨ (s.queue q).cnt.toNat < n then .faulted s .checkerContract
      else .returned (answer (s.withQueue q (dropElems (s.queue q) n)) .ok (auxOfCount n)
        ((view (s.queue q)).take n).flatten)

/-- Q.POPV on queue q (R126), as CDC.RECV runs it too. -/
def popValid (q : QueueId) (s : State) : CmdEnd :=
  if (s.queue q).cfg then
    if (s.queue q).chk = 0#8 then .returned (answerFail s)
    else if (s.queue q).cnt = 0#16 then .returned (answer s .inv 0#32 [])
    else popvLoop q (s.queue q).cnt.toNat 0 s
  else .returned (answerFail s)

/-! ## The commands -/

/-- Q.INIT's operand checks (R123): instance_size and byte_size against QBYTES. -/
def initSizesOk (bytes isz bs : Nat) : Bool :=
  decide (isz ≠ 0 ∧ bs ≠ 0 ∧ isz ≤ bs ∧ bs ≤ bytes)

/-- A queue that Q.INIT has just built (R123); its RAM is the old one's. -/
def initQueue (x : QState) (isz bs : Nat) : QState :=
  { cfg := true
    isz := BitVec.ofNat 16 isz
    maxc := BitVec.ofNat 16 (bs / isz)
    head := 0#16
    tail := 0#16
    cnt := 0#16
    ram := x.ram
    chk := 0#8
    cd := none }

/-- Q.INIT (R123). -/
def execQInit (q : QueueId) (byteSize : U16) (s : State) : Host.Outcome State Fault Refusal :=
  finish <|
    if s.din.length = 2 then
      if initSizesOk (queueBytes s.params q) (unBE s.din) byteSize.toNat then
        let x := initQueue (s.queue q) (unBE s.din) byteSize.toNat
        answer (s.withQueue q x) .ok (x.maxc.setWidth 32) []
      else answerFail s
    else answerFail s

/-- Q.PUSH (R124). -/
def execQPush (q : QueueId) (s : State) : Host.Outcome State Fault Refusal :=
  finish <| onQueue s q fun x =>
    if s.din.length = x.isz.toNat then
      answer (s.withQueue q (pushElem x s.din)) .ok (auxOfBool (pushEvicts x)) []
    else answerFail s

/-- Q.POP (R125). -/
def execQPop (q : QueueId) (s : State) : Host.Outcome State Fault Refusal :=
  finish <| onQueue s q fun x =>
    if x.cnt = 0#16 then answer s .inv 0#32 []
    else answer (s.withQueue q (dropElems x 1)) .ok 0#32 (elemAt x x.tail.toNat)

/-- Q.POPV (R126). -/
def execQPopv (q : QueueId) (s : State) : Host.Outcome State Fault Refusal :=
  settle (popValid q s)

/-- CHECKERS has an entry of this id (00_scope R10). -/
def checkerDefined (p : Params) (id : Byte) : Bool :=
  p.checkers.any fun d => d.id == id.toNat

/-- Q.SETCHK (R127). -/
def execQSetchk (q : QueueId) (id : Byte) (s : State) : Host.Outcome State Fault Refusal :=
  finish <| onQueue s q fun x =>
    if 2 ≤ id.toNat ∧ checkerDefined s.params id = false then answerFail s
    else if id = 1#8 ∧ x.isz ≠ 1#16 then answerFail s
    else answer (s.withQueue q { x with chk := id }) .ok 0#32 []

/-- Q.EMPTY (R128). -/
def execQEmpty (q : QueueId) (s : State) : Host.Outcome State Fault Refusal :=
  finish <| onQueue s q fun x => answer s .ok (auxOfBool (x.cnt == 0#16)) []

/-- Q.COUNT (R129). -/
def execQCount (q : QueueId) (s : State) : Host.Outcome State Fault Refusal :=
  finish <| onQueue s q fun x => answer s .ok (x.cnt.setWidth 32) []

/-- Q.CLEAR (R130). -/
def execQClear (q : QueueId) (s : State) : Host.Outcome State Fault Refusal :=
  finish <| onQueue s q fun x => answer (s.withQueue q { x with head := 0#16, tail := 0#16, cnt := 0#16 }) .ok 0#32 []

/-- Q.SETCD (R131). -/
def execQSetcd (q : QueueId) (s : State) : Host.Outcome State Fault Refusal :=
  finish <| onQueue s q fun x =>
    if s.params.cdMax < s.din.length then answerFail s
    else answer (s.withQueue q { x with cd := if s.din = [] then none else some s.din }) .ok 0#32 []

/-- Q.DEINIT (R132). -/
def execQDeinit (q : QueueId) (s : State) : Host.Outcome State Fault Refusal :=
  finish <| onQueue s q fun x =>
    answer (s.withQueue q { x with cd := none, chk := 0#8, cfg := false, head := 0#16, tail := 0#16, cnt := 0#16 }) .ok 0#32 []

end Sys2Proof.Machine
end

