-- ==== Sys2Proof/Machine/Transmit.lean ====
section
/-! DEFINITION. Sending into TXQ: the shared operations of CDC.SEND, CDC.SENDP and the register dispatcher
(spec/42_frame_codec.md R174, R175). -/

namespace Sys2Proof.Machine

/-- The queue after the bytes are pushed, in order, each as one element (R174, R175). -/
def pushBytes : QState → Bytes → QState
  | x, [] => x
  | x, b :: bs => pushBytes (pushElem x [b]) bs

/-- CDC.SEND of a byte string (R174). -/
def sendBytes (s : State) (d : Bytes) : Reply :=
  if usable s.txq then answer { s with txq := pushBytes s.txq d } .ok (auxOfCount d.length) []
  else answerFail s

/-- CDC.SENDP of a payload (R175). -/
def sendPacket (s : State) (payload : Bytes) : Reply :=
  if usable s.txq then
    match pack s.params s.crcEn payload with
    | none => answerFail s
    | some f => answer { s with txq := pushBytes s.txq f } .ok (auxOfCount f.length) []
  else answerFail s

end Sys2Proof.Machine
end

