-- ==== Sys2Proof/Machine/Registry.lean ====
section
/-! DEFINITION. The address dispatch registry, the register-file and the binding commands
(spec/44_address_registry.md R230 to R245). -/

namespace Sys2Proof.Machine

/-! ## Lookup (R231 to R233) -/

/-- An entry covers a register address, without wrap (R231). -/
def entryCovers (e : Entry) (a : U16) : Bool :=
  decide (e.addr.toNat ≤ a.toNat ∧ a.toNat < e.addr.toNat + e.len)

/-- match(A): the first entry that covers A (R233). -/
def matchEntry (p : Params) (a : U16) : Option Entry :=
  (sysTableOf p).find? fun e => entryCovers e a

/-! ## Register indirection (R235 to R237) -/

/-- WIDGET_LIST of a widget type (00_scope R11). -/
def widgetListOf (p : Params) (type : Byte) : Nat :=
  match p.widgetList.find? (fun e => e.1 == type) with
  | none => 0
  | some e => e.2

/-- The target a structured re-decode starts from (R237). -/
def freshTarget : Target := Vector.replicate 256 0#64

/-- Structured re-decode of a binding, on the register file `rf` (R237): SetRecord where the parse is OK. -/
def redecode (p : Params) (rf : Memory) (w : Binding) : Option Event :=
  let items := itemsOf p (widgetListOf p w.type)
  let e := parseItems p (rfLoad rf w.sp w.lenDsc.toNat) items 0 0 freshTarget
  match e.res with
  | .ok => some (.setRecord w.handle w.type (e.tgt.toList.take items.length))
  | _ => none

/-- The address lies in the binding's SP range, compared without wrap; len_dsc = 0 means no range (10_state R53; C6). -/
def inSpRange (w : Binding) (a : U16) : Bool :=
  decide (w.sp.toNat ≤ a.toNat ∧ a.toNat < w.sp.toNat + w.lenDsc.toNat)

/-- The event of one binding for a write that starts at A: VP match first, then the SP range (R235). -/
def bindingEvent (p : Params) (rf : Memory) (a : U16) (w : Binding) : Option Event :=
  if w.vp = a then some (.setScalar w.handle (rfRead rf w.vp))
  else if inSpRange w a then redecode p rf w
  else none

/-- Register indirection on A: the events of the bindings in WB order (R235). -/
def indirection (p : Params) (wb : List Binding) (rf : Memory) (a : U16) : List Event :=
  wb.filterMap (bindingEvent p rf a)

/-! ## REG.SET, REG.GET, REG.DISP (R234, R238 to R241) -/

/-- CRC_EN after the CRC_CFG hook of a write of data d at A that has been stored in `rf`; `en` is its old value (R238). -/
def crcEnAfter (p : Params) (rf : Memory) (en : Bool) (a : U16) (d : Bytes) : Bool :=
  match p.crcCfg with
  | none => en
  | some c =>
    if a.toNat ≤ c.1.toNat ∧ 2 * c.1.toNat < 2 * a.toNat + d.length then (rfRead rf c.1).getLsbD c.2 else en

/-- The events of a matched entry's write handler, on the stored register file: SysWrite, or register indirection (R234). -/
def writeEvents (p : Params) (wb : List Binding) (rf : Memory) (e : Entry) (a : U16) (d : Bytes) : List Event :=
  match e.kind with
  | .sys => [.sysWrite e.addr a d]
  | .var => indirection p wb rf a

/-- A stored write: RFStore, then the CRC_CFG hook and the entry's handler on the stored register file (R234). -/
def storeWrite (s : State) (e : Entry) (a : U16) (d : Bytes) : State :=
  emit { s with
    rf := rfStore s.rf a d
    crcEn := crcEnAfter s.params (rfStore s.rf a d) s.crcEn a d }
    (writeEvents s.params s.wb (rfStore s.rf a d) e a d)

/-- REG.SET of a byte string (R234). -/
def regSet (s : State) (din : Bytes) : Reply :=
  if din.length < 2 then answerFail s
  else
    match matchEntry s.params (half din 0) with
    | none => answer s .ok 0#32 []
    | some e =>
      if e.wr = false ∨ din.drop 2 = [] then answer s .ok 0#32 []
      else answer (storeWrite s e (half din 0) (din.drop 2)) .ok (auxOfCount (din.drop 2).length) []

/-- The response of a read of `n` registers at the address in the request (R239, 30_encoding R106). -/
def readResponse (s : State) (din : Bytes) : Bytes :=
  [s.params.cmdRd, byteAt din 0, byteAt din 1, byteAt din 2] ++ rfLoad s.rf (half din 0) (byteAt din 2).toNat

/-- REG.GET of a byte string (R239). -/
def regGet (s : State) (din : Bytes) : Reply :=
  if din.length < 3 then answerFail s
  else
    match matchEntry s.params (half din 0) with
    | none => answer s .ok 0#32 []
    | some e =>
      if e.rd = false then answer s .ok 0#32 []
      else answer s .ok (auxOfCount (readResponse s din).length) (readResponse s din)

/-- The register dispatcher on a payload (R240, R241). -/
def regDispatch (s : State) (payload : Bytes) : Reply :=
  match payload with
  | [] => answer s .ok 0#32 []
  | cmd :: rest =>
    if cmd = s.params.cmdWr then
      let r := regSet s rest
      answer r.st r.res r.aux []
    else if cmd = s.params.cmdRd then
      let r := regGet s rest
      if r.res ≠ .ok ∨ r.dout = [] then answer r.st r.res 0#32 []
      else
        let t := sendPacket r.st r.dout
        answer t.st t.res t.aux r.dout
    else answer s .ok 0#32 []

/-- REG.SET (R234). -/
def execRegSet (s : State) : Host.Outcome State Fault Refusal := finish (regSet s s.din)

/-- REG.GET (R239). -/
def execRegGet (s : State) : Host.Outcome State Fault Refusal := finish (regGet s s.din)

/-- REG.DISP (R241). -/
def execRegDisp (s : State) : Host.Outcome State Fault Refusal := finish (regDispatch s s.din)

/-! ## Collaborator and binding commands (R242 to R245) -/

/-- RF.RD (R242). -/
def execRfRd (r : U16) (s : State) : Host.Outcome State Fault Refusal :=
  finish (answer s .ok ((rfRead s.rf r).setWidth 32) (be 2 (rfRead s.rf r).toNat))

/-- RF.WR (R243). -/
def execRfWr (r : U16) (s : State) : Host.Outcome State Fault Refusal :=
  finish <|
    if s.din.length = 2 then answer { s with rf := rfWrite s.rf r (half s.din 0) } .ok 0#32 []
    else answerFail s

/-- WB.ADD (R244). -/
def execWbAdd (s : State) : Host.Outcome State Fault Refusal :=
  finish <|
    if s.din.length = 10 then
      if s.wb.length = s.params.wbMax then answerFail s
      else answer { s with wb := s.wb ++ [bindingOf s.din] } .ok (auxOfCount s.wb.length) []
    else answerFail s

/-- WB.CLR (R245). -/
def execWbClr (s : State) : Host.Outcome State Fault Refusal :=
  finish (answer { s with wb := [] } .ok 0#32 [])

end Sys2Proof.Machine
end

