-- ==== Sys2Proof/Machine/Codec.lean ====
section
/-! DEFINITION. The frame codec's commands (spec/42_frame_codec.md R174 to R181) and NOP (60_exceptions R288). -/

namespace Sys2Proof.Machine

/-! ## Receiving (R176, R177, R181) -/

/-- Handler invocation on a delivered payload (R181). The dispatcher's outputs are discarded. -/
def invokeHandler (s : State) (payload : Bytes) : State :=
  if s.hdl = 0#8 then s
  else if s.hdl = 1#8 then (regDispatch s payload).st
  else emit s [.handlerCall s.hdl payload]

/-- What CDC.RECV delivers of a popped string (R176; D25, D64). -/
def delivered (s : State) (out : Bytes) : Bytes :=
  if s.params.validOnly = true ∧ s.rxq.chk = 1#8 then strip s.params s.crcEn out else out

/-- CDC.RECV (R176). -/
def receive (s : State) : CmdEnd :=
  if usable s.rxq then
    match popValid .rx s with
    | .faulted t f => .faulted t f
    | .returned r =>
      if r.res = .ok then
        .returned (answer (invokeHandler r.st (delivered r.st r.dout)) .ok r.aux (delivered r.st r.dout))
      else .returned (answer r.st r.res r.aux [])
  else .returned (answerFail s)

/-- The loop of CDC.POLL (R177) with `fuel` turns left and `frames` frames delivered. Each delivered frame takes at least
one element from RXQ, so the fuel of `poll` is never used up (log 13). -/
def pollLoop : Nat → Nat → State → CmdEnd
  | 0, frames, s => .returned (answer s .inv (auxOfCount frames) [])
  | fuel + 1, frames, s =>
    match receive s with
    | .faulted t f => .faulted t f
    | .returned r =>
      if r.res = .ok then pollLoop fuel (frames + 1) r.st
      else .returned (answer r.st r.res (auxOfCount frames) [])

/-- CDC.POLL (R177). -/
def poll (s : State) : CmdEnd := pollLoop (s.rxq.cnt.toNat + 1) 0 s

/-- The phase of the receive side on RXQ's bytes (R180; C4, C7). -/
def phaseOf (p : Params) (v : Bytes) : U32 :=
  if v.take p.hdr.length ≠ p.hdr then phaseIdle
  else if v.length < preambleLen p then phaseHeaderMatched
  else if v.length < declaredTotal p v then phaseAccumulating
  else phaseValidating

/-! ## The commands -/

/-- CDC.SEND (R174). -/
def execCdcSend (s : State) : Host.Outcome State Fault Refusal := finish (sendBytes s s.din)

/-- CDC.SENDP (R175). -/
def execCdcSendp (s : State) : Host.Outcome State Fault Refusal := finish (sendPacket s s.din)

/-- CDC.RECV (R176). -/
def execCdcRecv (s : State) : Host.Outcome State Fault Refusal := settle (receive s)

/-- CDC.POLL (R177). -/
def execCdcPoll (s : State) : Host.Outcome State Fault Refusal := settle (poll s)

/-- CDC.SETCRC (R178). -/
def execCdcSetcrc (enable : Bool) (s : State) : Host.Outcome State Fault Refusal :=
  finish (answer { s with crcEn := enable } .ok 0#32 [])

/-- CDC.SETHDL (R179). -/
def execCdcSethdl (id : Byte) (s : State) : Host.Outcome State Fault Refusal :=
  finish (answer { s with hdl := id } .ok 0#32 [])

/-- CDC.PHASE (R180). -/
def execCdcPhase (s : State) : Host.Outcome State Fault Refusal :=
  finish <|
    if usable s.rxq then answer s .ok (phaseOf s.params (viewBytes s.rxq)) []
    else answerFail s

/-- NOP (60_exceptions R288). -/
def execNop (s : State) : Host.Outcome State Fault Refusal :=
  finish (answer s .ok 0#32 [])

end Sys2Proof.Machine
end

