-- ==== Sys2Proof/Machine/Dispatch.lean ====
section
/-! DEFINITION. One arm per command: its meaning (spec/30_encoding.md R94). -/

namespace Sys2Proof.Machine

def exec (i : Instr) (s : State) : Host.Outcome State Fault Refusal :=
  match i with
  | .nop => Sys2Proof.Machine.execNop s
  | .qInit q byteSize => Sys2Proof.Machine.execQInit q byteSize s
  | .qPush q => Sys2Proof.Machine.execQPush q s
  | .qPop q => Sys2Proof.Machine.execQPop q s
  | .qPopv q => Sys2Proof.Machine.execQPopv q s
  | .qSetchk q id => Sys2Proof.Machine.execQSetchk q id s
  | .qEmpty q => Sys2Proof.Machine.execQEmpty q s
  | .qCount q => Sys2Proof.Machine.execQCount q s
  | .qClear q => Sys2Proof.Machine.execQClear q s
  | .qSetcd q => Sys2Proof.Machine.execQSetcd q s
  | .qDeinit q => Sys2Proof.Machine.execQDeinit q s
  | .crcSeed v => Sys2Proof.Machine.execCrcSeed v s
  | .crcUpd b => Sys2Proof.Machine.execCrcUpd b s
  | .crcUpdn => Sys2Proof.Machine.execCrcUpdn s
  | .crcCalc v => Sys2Proof.Machine.execCrcCalc v s
  | .crcRd => Sys2Proof.Machine.execCrcRd s
  | .cdcSend => Sys2Proof.Machine.execCdcSend s
  | .cdcSendp => Sys2Proof.Machine.execCdcSendp s
  | .cdcRecv => Sys2Proof.Machine.execCdcRecv s
  | .cdcPoll => Sys2Proof.Machine.execCdcPoll s
  | .cdcSetcrc enable => Sys2Proof.Machine.execCdcSetcrc enable s
  | .cdcSethdl id => Sys2Proof.Machine.execCdcSethdl id s
  | .cdcPhase => Sys2Proof.Machine.execCdcPhase s
  | .mapParse l => Sys2Proof.Machine.execMapParse l s
  | .mapPrint l n => Sys2Proof.Machine.execMapPrint l n s
  | .mapParsepUint slot => Sys2Proof.Machine.execMapParsepUint slot s
  | .mapParsepI16 slot => Sys2Proof.Machine.execMapParsepI16 slot s
  | .mapParsepI32 slot => Sys2Proof.Machine.execMapParsepI32 slot s
  | .mapParsepI64 slot => Sys2Proof.Machine.execMapParsepI64 slot s
  | .mapParsepF32 slot => Sys2Proof.Machine.execMapParsepF32 slot s
  | .mapParsepF64 slot => Sys2Proof.Machine.execMapParsepF64 slot s
  | .mapPrintpUint len slot => Sys2Proof.Machine.execMapPrintpUint len slot s
  | .mapPrintpI16 len slot => Sys2Proof.Machine.execMapPrintpI16 len slot s
  | .mapPrintpI32 len slot => Sys2Proof.Machine.execMapPrintpI32 len slot s
  | .mapPrintpI64 len slot => Sys2Proof.Machine.execMapPrintpI64 len slot s
  | .mapPrintpF32 len slot => Sys2Proof.Machine.execMapPrintpF32 len slot s
  | .mapPrintpF64 len slot => Sys2Proof.Machine.execMapPrintpF64 len slot s
  | .mapTrd slot => Sys2Proof.Machine.execMapTrd slot s
  | .mapTwr slot => Sys2Proof.Machine.execMapTwr slot s
  | .regSet => Sys2Proof.Machine.execRegSet s
  | .regGet => Sys2Proof.Machine.execRegGet s
  | .regDisp => Sys2Proof.Machine.execRegDisp s
  | .rfRd r => Sys2Proof.Machine.execRfRd r s
  | .rfWr r => Sys2Proof.Machine.execRfWr r s
  | .wbAdd => Sys2Proof.Machine.execWbAdd s
  | .wbClr => Sys2Proof.Machine.execWbClr s

end Sys2Proof.Machine
end

