-- ==== Sys2Proof/Machine/Step.lean ====
section
/-! DEFINITION. One step of the machine: the oldest command at the port runs (spec/20_memory.md R79, R83). -/

namespace Sys2Proof.Machine

/-- One step, conditions in the order of 60_exceptions R278: a set FAULT has no step; with no command at the port nothing
happens (log 2); an illegal word has its result (R273); any other word runs its command. -/
def step (s : State) : Host.Outcome State Fault Refusal :=
  match fetch s with
  | .halted f => .fault (.halted f)
  | .idle => .next s
  | .command cw t =>
    match decode cw with
    | .ok i => exec i t
    | .error _ => rejectWord t

/-- `s` with the low `nbits` bits of `w` as the word of the next command at the port (log 1). -/
def State.withFetchWord (s : State) (nbits w : Nat) : State :=
  { s with port := portWithWord (BitVec.ofNat 32 (w % 2 ^ nbits)) s.port }

end Sys2Proof.Machine
end

