-- ==== Sys2Proof/Safety.lean ====
section
/-! DEFINITION. What counts as a sound state and a safe run, in the terms the claims use. -/

namespace Sys2Proof.Machine

/-- The machine has a step: FAULT is none (spec/60_exceptions.md R277). -/
abbrev Running (s : State) : Prop := s.fault = none

/-- The shape of a configured queue: the queue invariant of 10_state R42, with the ranges of R34 and R35 and the RAM that
Q.INIT checks (40_ring_queue R123). -/
abbrev RingShape (bytes : Nat) (x : QState) : Prop :=
  1 ≤ x.isz.toNat ∧ 1 ≤ x.maxc.toNat ∧ x.maxc.toNat * x.isz.toNat ≤ bytes ∧ x.cnt.toNat ≤ x.maxc.toNat ∧
    x.head.toNat < x.maxc.toNat ∧ x.tail.toNat < x.maxc.toNat ∧
    x.head.toNat = (x.tail.toNat + x.cnt.toNat) % x.maxc.toNat

/-- What Q.DEINIT leaves of an unconfigured queue (40_ring_queue R132). -/
abbrev TornDown (x : QState) : Prop :=
  x.head = 0#16 ∧ x.tail = 0#16 ∧ x.cnt = 0#16 ∧ x.chk = 0#8 ∧ x.cd = none

/-- The invariant of a queue of `bytes` bytes. -/
structure QueueInv (p : Params) (bytes : Nat) (x : QState) : Prop where
  /-- Its RAM is canonical. -/
  ramCanonical : Memory.wf x.ram
  /-- Its RAM lies in 0..bytes-1 (10_state R39). -/
  ramInside : ∀ c ∈ x.ram, c.1 < bytes
  /-- A configured queue has the shape of 10_state R42. -/
  shape : x.cfg = true → RingShape bytes x
  /-- An unconfigured queue is torn down. -/
  tornDown : x.cfg = false → TornDown x
  /-- FRAME stands only on one-byte elements (40_ring_queue R127; D66). -/
  frameOnBytes : x.chk = 1#8 → x.isz = 1#16
  /-- A checker id of 2 or more is defined (10_state R40). -/
  checkerKnown : 2 ≤ x.chk.toNat → checkerDefined p x.chk = true
  /-- Custom data has 1..CD_MAX bytes (10_state R41). -/
  customDataFits : (x.cd.all fun c => decide (1 ≤ c.length ∧ c.length ≤ p.cdMax)) = true

/-- The invariant of the machine. -/
structure StateInv (s : State) : Prop where
  /-- PARAMS is valid (60_exceptions R276). -/
  paramsValid : paramsOk s.params = true
  /-- RXQ. -/
  rxq : QueueInv s.params s.params.rxqBytes s.rxq
  /-- TXQ. -/
  txq : QueueInv s.params s.params.txqBytes s.txq
  /-- RF is canonical. -/
  rfCanonical : Memory.wf s.rf
  /-- RF lies within its 131072 bytes (10_state R50). -/
  rfInside : ∀ c ∈ s.rf, c.1 < rfBytes
  /-- At most WB_MAX bindings (R52). -/
  bindingsFit : s.wb.length ≤ s.params.wbMax

/-- The fields of a queue that no push and no removal writes (spec/40_ring_queue.md R124 to R126): CFG, ISZ, MAXC, CHK, CD. -/
abbrev SameSetup (x y : QState) : Prop :=
  y.cfg = x.cfg ∧ y.isz = x.isz ∧ y.maxc = x.maxc ∧ y.chk = x.chk ∧ y.cd = x.cd

/-- Command `i`, run in `s`, takes a next state: `u` with one output more, (RES, AUX, DOUT) = (r, a, d). Where `u` is `s`
with some fields replaced, every other field is as before: the frame is said with the result. -/
def Answers (i : Instr) (s u : State) (r : Res) (a : U32) (d : Bytes) : Prop :=
  exec i s = .next (record u r a d)

/-- A run of the machine over `n` steps (60_exceptions R289). -/
abbrev runFor (n : Nat) (s : State) : Host.Outcome State Fault Refusal := Host.Core.run Sys2Proof.core n s

end Sys2Proof.Machine
end

