-- ==== Sys2Proof/WellFormed.lean ====
section
/-! DEFINITION. Which command words are well formed (spec/30_encoding.md R93, R94, R97), as a table of its own, apart from
the decoder. A term of `Instr` is well formed by its type: each operand type holds exactly the values its field admits.
What can be ill formed is a command word; a parameter record has its checks in Machine/Boot.lean. -/

namespace Sys2Proof

/-- What R94's column U admits: the fixed value of the row, a one-bit select with U[3:1] = 0, or a whole list id. -/
inductive UColumn where
  | fixed (k : Nat)
  | select
  | listId
deriving DecidableEq, Repr

/-- A row of R94: OP, the column U, and how many low bits of IMM the row uses (the bits above them must be 0). -/
structure WordRow where
  op : Nat
  u : UColumn
  immBits : Nat
deriving DecidableEq, Repr

/-- Whether the column admits the value of field U. -/
def UColumn.admits : UColumn → Nat → Bool
  | .fixed k, u => u == k
  | .select, u => decide (u ≤ 1)
  | .listId, _ => true

/-- R94, system and queue rows. -/
def queueRows : List WordRow :=
  [⟨0x00, .fixed 0, 0⟩, ⟨0x10, .select, 16⟩, ⟨0x11, .select, 0⟩, ⟨0x12, .select, 0⟩, ⟨0x13, .select, 0⟩,
   ⟨0x14, .select, 8⟩, ⟨0x15, .select, 0⟩, ⟨0x16, .select, 0⟩, ⟨0x17, .select, 0⟩, ⟨0x18, .select, 0⟩,
   ⟨0x19, .select, 0⟩]

/-- R94, CRC and codec rows. -/
def codecRows : List WordRow :=
  [⟨0x20, .select, 0⟩, ⟨0x21, .fixed 0, 8⟩, ⟨0x22, .fixed 0, 0⟩, ⟨0x23, .select, 0⟩, ⟨0x24, .fixed 0, 0⟩,
   ⟨0x30, .fixed 0, 0⟩, ⟨0x31, .fixed 0, 0⟩, ⟨0x32, .fixed 0, 0⟩, ⟨0x33, .fixed 0, 0⟩, ⟨0x34, .fixed 0, 1⟩,
   ⟨0x35, .fixed 0, 8⟩, ⟨0x36, .fixed 0, 0⟩]

/-- R94, mapper rows. -/
def mapperRows : List WordRow :=
  [⟨0x40, .listId, 0⟩, ⟨0x41, .listId, 16⟩,
   ⟨0x42, .fixed 0, 8⟩, ⟨0x42, .fixed 1, 8⟩, ⟨0x42, .fixed 2, 8⟩, ⟨0x42, .fixed 3, 8⟩, ⟨0x42, .fixed 4, 8⟩,
   ⟨0x42, .fixed 5, 8⟩,
   ⟨0x43, .fixed 0, 16⟩, ⟨0x43, .fixed 1, 16⟩, ⟨0x43, .fixed 2, 16⟩, ⟨0x43, .fixed 3, 16⟩, ⟨0x43, .fixed 4, 16⟩,
   ⟨0x43, .fixed 5, 16⟩,
   ⟨0x44, .fixed 0, 8⟩, ⟨0x45, .fixed 0, 8⟩]

/-- R94, registry rows. -/
def registryRows : List WordRow :=
  [⟨0x50, .fixed 0, 0⟩, ⟨0x51, .fixed 0, 0⟩, ⟨0x52, .fixed 0, 0⟩, ⟨0x53, .fixed 0, 16⟩, ⟨0x54, .fixed 0, 16⟩,
   ⟨0x55, .fixed 0, 0⟩, ⟨0x56, .fixed 0, 0⟩]

/-- All 46 rows of R94. -/
def wordRows : List WordRow :=
  queueRows ++ (codecRows ++ (mapperRows ++ registryRows))

/-- R97 (a): OP stands in the table. -/
def opDefined (w : U32) : Bool :=
  wordRows.any fun r => r.op == w.toNat / 2 ^ 24

/-- R97 (b): Z is 0. -/
def zClear (w : U32) : Bool :=
  w.toNat / 2 ^ 16 % 16 == 0

/-- R97 (c), (d) and the U half of (e): some row of this OP admits U. -/
def uAdmitted (w : U32) : Bool :=
  wordRows.any fun r => r.op == w.toNat / 2 ^ 24 && r.u.admits (w.toNat / 2 ^ 20 % 16)

/-- The IMM half of R97 (e): some row of this OP leaves no must-be-zero bit of IMM set. (All rows of one OP use the same
bits of IMM.) -/
def immAdmitted (w : U32) : Bool :=
  wordRows.any fun r => r.op == w.toNat / 2 ^ 24 && decide (w.toNat % 2 ^ 16 < 2 ^ r.immBits)

/-- A command word that R97 does not call illegal. -/
def legalWord (w : U32) : Bool :=
  opDefined w && zClear w && uAdmitted w && immAdmitted w

end Sys2Proof
end

