-- ==== Sys2Proof/Certificates/Slice0/Obligations.lean ====
section
/-! DEFINITION. The statements for the provers. Each docstring names the rule of spec/ the statement formalises.
`Answers i s u r a d` says that command `i` in `s` takes the next state `u` with the outputs (r, a, d) appended, so that
`u` given as `s` with some fields replaced is the command's effect and its frame together. -/

open Sys2Proof Sys2Proof.Machine

namespace Sys2Proof.Machine

/-! ## Words the statements use -/

/-- The elements that a byte string makes in a queue of one-byte elements. -/
def unitElems (d : Bytes) : List Bytes := d.map fun b => [b]

/-- The queue holds its newest MAXC elements of `l` (40_ring_queue R133). -/
def newest (x : QState) (l : List Bytes) : List Bytes := l.drop (l.length - x.maxc.toNat)

/-- What a sequence of one-byte pushes leaves of TXQ: `y` is `x` after the bytes `d` (42_frame_codec R174, 40_ring_queue
R124): they are appended in order, the oldest elements give way, the RAM changes at their elements alone. -/
def PushedBytes (x y : QState) (d : Bytes) : Prop :=
  SameSetup x y ∧ view y = newest x (view x ++ unitElems d) ∧
    y.head.toNat = (x.head.toNat + d.length) % x.maxc.toNat ∧
    y.head.toNat = (y.tail.toNat + y.cnt.toNat) % x.maxc.toNat ∧ y.tail.toNat < x.maxc.toNat ∧
    ∀ a, (∀ j < d.length, a ≠ (x.head.toNat + j) % x.maxc.toNat) → memRead y.ram a = memRead x.ram a

/-- How the reassembly of 40_ring_queue R126 ends on a list of elements: what is left of the list and the outputs, or a
broken checker contract. -/
inductive ListEnd where
  | returned (rest : List Bytes) (res : Res) (aux : Nat) (out : Bytes)
  | faulted (rest : List Bytes)

/-- The reassembly of 40_ring_queue R126 on the list of stored elements, oldest first, with no ring, index or RAM. -/
def reassemble (check : List Bytes → CheckerAnswer) : Nat → Nat → List Bytes → ListEnd
  | 0, dropped, l => .returned l .fail dropped []
  | turns + 1, dropped, l =>
    match check l with
    | .inv => .returned l .inv dropped []
    | .fail => reassemble check turns (dropped + 1) l.tail
    | .badRead => .faulted l
    | .ok n => if n = 0 ∨ l.length < n then .faulted l else .returned (l.drop n) .ok n (l.take n).flatten

/-- The checker of a queue (10_state R40) on a list of elements. -/
def checkList (s : State) (x : QState) (l : List Bytes) : CheckerAnswer :=
  if x.chk = 1#8 then frameCheck s.params s.crcEn (l.map fun e => byteAt e 0) else paramChecker s.params x.chk l x.cd

/-- A refused PARAMS: one of the conditions of 60_exceptions R276, one a line. -/
def ParamsRefused (p : Params) : Prop :=
  (p.hdr.length < 1 ∨ 4 < p.hdr.length ∨ p.lenW < 1 ∨ 4 < p.lenW) ∨
  (p.rxqBytes < 1 ∨ 65535 < p.rxqBytes ∨ p.txqBytes < 1 ∨ 65535 < p.txqBytes) ∨
  ((∃ d ∈ p.checkers, d.id < 2 ∨ 255 < d.id) ∨ (∃ d ∈ p.custom, d.kind < 16 ∨ 255 < d.kind)) ∨
  (p.itemLists.length ≠ 16 ∨ ∃ l ∈ p.itemLists, 255 < (l.takeWhile fun it => it.len != 0).length) ∨
  (∃ e ∈ p.widgetList, 15 < e.2) ∨
  p.cmdWr = p.cmdRd ∨
  (∃ t, p.sysTable = some t ∧ ∃ e ∈ t, e.len < 1 ∨ 0x10000 < e.addr.toNat + e.len) ∨
  (p.sysTable = none ∧ (p.varLen < 1 ∨ 0x10000 < p.varBase + p.varLen)) ∨
  (∃ a k, p.crcCfg = some (a, k) ∧ 15 < k)

/-- The commands that 20_memory R80 says change no state, and NOP (60_exceptions R288). -/
def ReadsOnly : Instr → Prop
  | .nop | .rfRd _ | .regGet | .qCount _ | .qEmpty _ | .crcRd | .crcCalc _ | .mapTrd _ | .mapPrint _ _ | .cdcPhase => True
  | .mapPrintpUint _ _ | .mapPrintpI16 _ _ | .mapPrintpI32 _ _ => True
  | .mapPrintpI64 _ _ | .mapPrintpF32 _ _ | .mapPrintpF64 _ _ => True
  | _ => False

/-- The commands that write CRC_ACC (10_state R43). -/
def WritesCrcAcc : Instr → Prop
  | .crcSeed _ | .crcUpd _ | .crcUpdn => True
  | _ => False

/-- The commands that run the register dispatcher or its write half (44_address_registry R234, R241, 42_frame_codec R181). -/
def RunsRegisterWrite : Instr → Prop
  | .regSet | .regDisp | .cdcRecv | .cdcPoll => True
  | _ => False

/-- The commands that write TGT (10_state R54). -/
def WritesTgt : Instr → Prop
  | .mapParse _ | .mapTwr _ => True
  | .mapParsepUint _ | .mapParsepI16 _ | .mapParsepI32 _ | .mapParsepI64 _ | .mapParsepF32 _ | .mapParsepF64 _ => True
  | _ => False

/-- The commands that can end in a model fault (60_exceptions R274, R275). -/
def CanFault : Instr → Prop
  | .qPopv _ | .cdcRecv | .cdcPoll | .mapPrint _ _ => True
  | _ => False

/-- The commands that can write queue q in any way (20_memory R85; 60_exceptions R280 for the handler). -/
def WritesQueue (q : QueueId) : Instr → Prop
  | .qInit p _ | .qPush p | .qPop p | .qPopv p | .qSetchk p _ | .qClear p | .qSetcd p | .qDeinit p => p = q
  | .cdcSend | .cdcSendp | .regDisp => q = .tx
  | .cdcRecv | .cdcPoll => True
  | _ => False

/-- The commands that can add an element to queue q, or throw its contents away (40_ring_queue R134). -/
def AddsOrResets (q : QueueId) : Instr → Prop
  | .qInit p _ | .qPush p | .qClear p | .qDeinit p => p = q
  | .cdcSend | .cdcSendp | .regDisp | .cdcRecv | .cdcPoll => q = .tx
  | _ => False

/-- The signed reading of a big-endian byte string of `n` bits. -/
def signedBE (n : Nat) (d : Bytes) : Int := (BitVec.ofNat n (unBE d)).toInt

/-- The length that a built-in kind's item has (43_struct_mapper R201). -/
def GoodItem (p : Params) (it : Item) : Prop :=
  customOf p it.kind = none ∧ ∃ k, primOfCode it.kind = some k ∧ primLenOk k it.len.toNat = true

/-- The sum of the lengths of the first `i` items. -/
def lenSum (its : List Item) (i : Nat) : Nat := ((its.take i).map fun it => it.len.toNat).sum

/-- The slots after the first `n` of a list of built-in items are parsed from `buf`: each holds its item's value, the other
slots what they held (43_struct_mapper R202). -/
def SlotsFrom (its : List Item) (n : Nat) (buf : Bytes) (old new : Target) : Prop :=
  (∀ i (h : i < its.length), i < n → ∃ k, primOfCode its[i].kind = some k ∧
    tgtRead new i = primValue k (slice buf (lenSum its i) (lenSum its (i + 1)))) ∧
  ∀ i, n ≤ i → tgtRead new i = tgtRead old i

/-- The print buffer after the first `n` of a list of built-in items: the items in order, then 0x00 (43_struct_mapper
R203). -/
def PrintedFrom (its : List Item) (n : Nat) (t : Target) (buf : Bytes) : Prop :=
  (∀ i (h : i < its.length), i < n →
    slice buf (lenSum its i) (lenSum its (i + 1)) = be its[i].len.toNat (tgtRead t i).toNat) ∧
  ∀ a, lenSum its n ≤ a → a < buf.length → byteAt buf a = 0x00#8

/-- The outcome of one item of MAP.PARSE on its bytes (43_struct_mapper R201, R202, R216): item `i` ends with result `r`,
and with target `t'` where `r` is OK. A custom kind answers what its CUSTOM_PARSE does; a built-in kind writes its slot; a
reserved or undefined kind, and a wrong length, fail. -/
def ItemParses (p : Params) (it : Item) (i : Nat) (b : Bytes) (t : Target) (r : Res) (t' : Target) : Prop :=
  match customOf p it.kind, primOfCode it.kind with
  | some d, _ => customParse d it.kind t i b = (r, t')
  | none, none => r = .fail
  | none, some k =>
    if primLenOk k b.length then
      r = .ok ∧ tgtRead t' i = primValue k b ∧ ∀ j, j ≠ i → tgtRead t' j = tgtRead t j
    else r = .fail

/-- The outcome of one item of MAP.PRINT (43_struct_mapper R201, R203, R216): item `i` ends with result `r`, and with
bytes `b` where `r` is OK. -/
def ItemPrints (p : Params) (t : Target) (it : Item) (i : Nat) (r : Res) (b : Bytes) : Prop :=
  match customOf p it.kind, primOfCode it.kind with
  | some d, _ => customPrint d it.kind t i it.len.toNat = (r, b)
  | none, none => r = .fail
  | none, some k => if primLenOk k it.len.toNat then r = .ok ∧ b = be it.len.toNat (tgtRead t i).toNat else r = .fail

/-- An entry is the first of the table that covers the address (44_address_registry R233). -/
def Owns (p : Params) (a : Nat) (e : Entry) : Prop :=
  ∃ before after, sysTableOf p = before ++ e :: after ∧ (e.addr.toNat ≤ a ∧ a < e.addr.toNat + e.len) ∧
    ∀ f ∈ before, ¬(f.addr.toNat ≤ a ∧ a < f.addr.toNat + f.len)

/-- No entry of the table covers the address. -/
def Unmatched (p : Params) (a : Nat) : Prop :=
  ∀ e ∈ sysTableOf p, ¬(e.addr.toNat ≤ a ∧ a < e.addr.toNat + e.len)

/-- The register address in the first two bytes of a request (30_encoding R104). -/
def addrOf (hi lo : Byte) : U16 := hi ++ lo

/-- RF after a write of `d` from register A on (44_address_registry R230): every byte of it. -/
def StoredAt (a : U16) (d : Bytes) (old new : Memory) : Prop :=
  ∀ x, memRead new x =
    if 2 * a.toNat ≤ x ∧ x < 2 * a.toNat + d.length ∧ x < 0x20000 then d.getD (x - 2 * a.toNat) 0#8 else memRead old x

/-- The command words of an incremental CRC computation: a byte by CRC.UPD, a byte string by CRC.UPDN. -/
inductive Piece where
  | byte (b : Byte)
  | bytes (d : Bytes)

/-- The command of a piece. -/
def Piece.command : Piece → Command
  | .byte b => ⟨encode (.crcUpd b), []⟩
  | .bytes d => ⟨encode .crcUpdn, d⟩

/-- The bytes of a piece. -/
def Piece.data : Piece → Bytes
  | .byte b => [b]
  | .bytes d => d

/-- The last output of a state's record, and what stood before it. -/
def LastOutput (s : State) (before : List Output) (o : Output) : Prop := s.outs = before ++ [o]

/-- The bindings with their priorities replaced. -/
def withPriorities (f : Binding → Byte) (l : List Binding) : List Binding := l.map fun w => { w with priority := f w }

/-- 41_crc16 R160, rows 0x00 to 0x38. -/
def tableRows0 : List U16 :=
  [0x0000#16, 0xC0C1#16, 0xC181#16, 0x0140#16, 0xC301#16, 0x03C0#16, 0x0280#16, 0xC241#16,
   0xC601#16, 0x06C0#16, 0x0780#16, 0xC741#16, 0x0500#16, 0xC5C1#16, 0xC481#16, 0x0440#16,
   0xCC01#16, 0x0CC0#16, 0x0D80#16, 0xCD41#16, 0x0F00#16, 0xCFC1#16, 0xCE81#16, 0x0E40#16,
   0x0A00#16, 0xCAC1#16, 0xCB81#16, 0x0B40#16, 0xC901#16, 0x09C0#16, 0x0880#16, 0xC841#16,
   0xD801#16, 0x18C0#16, 0x1980#16, 0xD941#16, 0x1B00#16, 0xDBC1#16, 0xDA81#16, 0x1A40#16,
   0x1E00#16, 0xDEC1#16, 0xDF81#16, 0x1F40#16, 0xDD01#16, 0x1DC0#16, 0x1C80#16, 0xDC41#16,
   0x1400#16, 0xD4C1#16, 0xD581#16, 0x1540#16, 0xD701#16, 0x17C0#16, 0x1680#16, 0xD641#16,
   0xD201#16, 0x12C0#16, 0x1380#16, 0xD341#16, 0x1100#16, 0xD1C1#16, 0xD081#16, 0x1040#16]

/-- 41_crc16 R160, rows 0x40 to 0x78. -/
def tableRows1 : List U16 :=
  [0xF001#16, 0x30C0#16, 0x3180#16, 0xF141#16, 0x3300#16, 0xF3C1#16, 0xF281#16, 0x3240#16,
   0x3600#16, 0xF6C1#16, 0xF781#16, 0x3740#16, 0xF501#16, 0x35C0#16, 0x3480#16, 0xF441#16,
   0x3C00#16, 0xFCC1#16, 0xFD81#16, 0x3D40#16, 0xFF01#16, 0x3FC0#16, 0x3E80#16, 0xFE41#16,
   0xFA01#16, 0x3AC0#16, 0x3B80#16, 0xFB41#16, 0x3900#16, 0xF9C1#16, 0xF881#16, 0x3840#16,
   0x2800#16, 0xE8C1#16, 0xE981#16, 0x2940#16, 0xEB01#16, 0x2BC0#16, 0x2A80#16, 0xEA41#16,
   0xEE01#16, 0x2EC0#16, 0x2F80#16, 0xEF41#16, 0x2D00#16, 0xEDC1#16, 0xEC81#16, 0x2C40#16,
   0xE401#16, 0x24C0#16, 0x2580#16, 0xE541#16, 0x2700#16, 0xE7C1#16, 0xE681#16, 0x2640#16,
   0x2200#16, 0xE2C1#16, 0xE381#16, 0x2340#16, 0xE101#16, 0x21C0#16, 0x2080#16, 0xE041#16]

/-- 41_crc16 R160, rows 0x80 to 0xB8. -/
def tableRows2 : List U16 :=
  [0xA001#16, 0x60C0#16, 0x6180#16, 0xA141#16, 0x6300#16, 0xA3C1#16, 0xA281#16, 0x6240#16,
   0x6600#16, 0xA6C1#16, 0xA781#16, 0x6740#16, 0xA501#16, 0x65C0#16, 0x6480#16, 0xA441#16,
   0x6C00#16, 0xACC1#16, 0xAD81#16, 0x6D40#16, 0xAF01#16, 0x6FC0#16, 0x6E80#16, 0xAE41#16,
   0xAA01#16, 0x6AC0#16, 0x6B80#16, 0xAB41#16, 0x6900#16, 0xA9C1#16, 0xA881#16, 0x6840#16,
   0x7800#16, 0xB8C1#16, 0xB981#16, 0x7940#16, 0xBB01#16, 0x7BC0#16, 0x7A80#16, 0xBA41#16,
   0xBE01#16, 0x7EC0#16, 0x7F80#16, 0xBF41#16, 0x7D00#16, 0xBDC1#16, 0xBC81#16, 0x7C40#16,
   0xB401#16, 0x74C0#16, 0x7580#16, 0xB541#16, 0x7700#16, 0xB7C1#16, 0xB681#16, 0x7640#16,
   0x7200#16, 0xB2C1#16, 0xB381#16, 0x7340#16, 0xB101#16, 0x71C0#16, 0x7080#16, 0xB041#16]

/-- 41_crc16 R160, rows 0xC0 to 0xF8. -/
def tableRows3 : List U16 :=
  [0x5000#16, 0x90C1#16, 0x9181#16, 0x5140#16, 0x9301#16, 0x53C0#16, 0x5280#16, 0x9241#16,
   0x9601#16, 0x56C0#16, 0x5780#16, 0x9741#16, 0x5500#16, 0x95C1#16, 0x9481#16, 0x5440#16,
   0x9C01#16, 0x5CC0#16, 0x5D80#16, 0x9D41#16, 0x5F00#16, 0x9FC1#16, 0x9E81#16, 0x5E40#16,
   0x5A00#16, 0x9AC1#16, 0x9B81#16, 0x5B40#16, 0x9901#16, 0x59C0#16, 0x5880#16, 0x9841#16,
   0x8801#16, 0x48C0#16, 0x4980#16, 0x8941#16, 0x4B00#16, 0x8BC1#16, 0x8A81#16, 0x4A40#16,
   0x4E00#16, 0x8EC1#16, 0x8F81#16, 0x4F40#16, 0x8D01#16, 0x4DC0#16, 0x4C80#16, 0x8C41#16,
   0x4400#16, 0x84C1#16, 0x8581#16, 0x4540#16, 0x8701#16, 0x47C0#16, 0x4680#16, 0x8641#16,
   0x8201#16, 0x42C0#16, 0x4380#16, 0x8341#16, 0x4100#16, 0x81C1#16, 0x8081#16, 0x4040#16]

end Sys2Proof.Machine

/-! ## Encoding -/

/-- No bit of an encoding is dropped: the decoder reads every command back from its word, with every operand at every value
(30_encoding R90, R94, R98). -/
def Obligations.DecodeOfEncodeIsTheCommand : Prop :=
  ∀ i : Instr, decode (encode i) = .ok i

/-- Each legal word has one meaning and every bit of it counts: the word of the decoded command is the word itself
(30_encoding R93, R94, R98). -/
def Obligations.EncodeOfDecodeIsTheWord : Prop :=
  ∀ (w : U32) (i : Instr), decode w = .ok i → encode i = w

/-- The decoder accepts exactly the words that the table of R94, read apart from the decoder, calls legal (30_encoding
R94, R97, R98). -/
def Obligations.DecodeAcceptsExactlyTheLegalWords : Prop :=
  ∀ w : U32, (∃ i, decode w = .ok i) ↔ legalWord w = true

/-- A few words written out from R94: OP, then U, Z, IMM. -/
def Obligations.WordsOfTheSpecDecode : Prop :=
  decode 0x10100104#32 = .ok (.qInit .tx 0x0104#16) ∧ decode 0x140000FE#32 = .ok (.qSetchk .rx 0xFE#8) ∧
    decode 0x20100000#32 = .ok (.crcSeed .modbus) ∧ decode 0x34000001#32 = .ok (.cdcSetcrc true) ∧
    decode 0x41F0FFFF#32 = .ok (.mapPrint 15#4 0xFFFF#16) ∧ decode 0x42200007#32 = .ok (.mapParsepI32 7#8) ∧
    decode 0x43500803#32 = .ok (.mapPrintpF64 8#8 3#8) ∧ decode 0x5400000E#32 = .ok (.rfWr 0x000E#16)

/-- R273: an illegal word returns FAIL, 0xFFFF_FFFF, [] and changes nothing else of the spec's state. That it leaves the
field `port` and stands in `din` is the model's choice (log 1). -/
def Obligations.IllegalWordFailsAndChangesNothing : Prop :=
  ∀ (s : State) (c : Command) (rest : List Command), Running s → s.port = c :: rest → legalWord c.cw = false →
    step s = .next (record { s with port := rest, din := c.din } .fail 0xFFFFFFFF#32 [])

/-! ## The step -/

/-- When the oldest word at the port decodes to a command, the step is that command, run with its DIN, the command gone from
the port (20_memory R79, R83; the port as a field is the model's choice, log 1). -/
def Obligations.StepRunsTheDecodedCommand : Prop :=
  ∀ (s : State) (c : Command) (rest : List Command) (i : Instr), Running s → s.port = c :: rest →
    decode c.cw = .ok i → step s = exec i { s with port := rest, din := c.din }

/-- R277, R278 (1): while FAULT is set the machine has no step, whatever waits at the port, and a run stays stopped. (The
outcome that stands for "no step" is the model's choice, log 7.) -/
def Obligations.FaultedMachineHasNoStep : Prop :=
  ∀ (s : State) (f : ModelFault) (n : Nat), s.fault = some f →
    step s = .fault (.halted f) ∧ runFor (n + 1) s = .fault (.halted f)

/-- THE MODEL'S CHOICE (log 2): with no command at the port nothing happens. -/
def Obligations.IdleMachineKeepsItsState : Prop :=
  ∀ (s : State) (n : Nat), Running s → s.port = [] → step s = .next s ∧ runFor n s = .next s

/-- Every command of the table, in every state, ends in a next state with exactly one output more (30_encoding R91,
60_exceptions R270); EVT only grows (10_state R58); PARAMS is constant (20_memory R73) and the port is not touched. -/
def Obligations.EveryCommandGivesOneOutput : Prop :=
  ∀ (i : Instr) (s : State), ∃ t o es, exec i s = .next t ∧ t.outs = s.outs ++ [o] ∧ t.evt = s.evt ++ es ∧
    t.params = s.params ∧ t.port = s.port ∧ t.din = s.din

/-- Whole-machine frame: a field that a command changes is one that the spec says the command writes (10_state R43, R45,
R46, R50, R52, R54, R58; 44_address_registry R238 for CRC_EN; 60_exceptions R274, R275 for FAULT, R280 for RXQ). -/
def Obligations.EachFieldHasOnlyItsWriters : Prop :=
  ∀ (i : Instr) (s t : State), exec i s = .next t →
    (¬WritesCrcAcc i → t.crcAcc = s.crcAcc) ∧
    ((∀ e, i ≠ .cdcSetcrc e) → (¬RunsRegisterWrite i ∨ s.params.crcCfg = none) → t.crcEn = s.crcEn) ∧
    ((∀ id, i ≠ .cdcSethdl id) → t.hdl = s.hdl) ∧
    (¬RunsRegisterWrite i → (∀ r, i ≠ .rfWr r) → t.rf = s.rf) ∧
    (i ≠ .wbAdd → i ≠ .wbClr → t.wb = s.wb) ∧
    (¬WritesTgt i → t.tgt = s.tgt) ∧
    (¬RunsRegisterWrite i → t.evt = s.evt) ∧
    (¬CanFault i → t.fault = s.fault) ∧
    ∀ q, ¬WritesQueue q i → t.queue q = s.queue q

/-- The reading commands change no state (20_memory R80), unless MAP.PRINT ends in CUSTOM_CONTRACT: the next state is the
old one with its output. -/
def Obligations.ReadingCommandsChangeNothing : Prop :=
  ∀ (i : Instr) (s t : State), ReadsOnly i → Running s → exec i s = .next t → Running t →
    ∃ r a d, t = record s r a d

/-- CRC_ACC is the CRC unit's alone (10_state R43; D19): another value in it changes no other command's effect, outputs and
events included. -/
def Obligations.CrcAccIsInvisibleToOtherUnits : Prop :=
  ∀ (i : Instr) (s t : State) (c : U16), ¬WritesCrcAcc i → i ≠ .crcRd → exec i s = .next t →
    exec i { s with crcAcc := c } = .next { t with crcAcc := c }

/-- "No rule reads priority" (10_state R53; N14): other priorities in WB change nothing but the priorities in WB. -/
def Obligations.PriorityIsNeverRead : Prop :=
  ∀ (i : Instr) (s t : State) (f : Binding → Byte), exec i s = .next t →
    ∃ wb, exec i { s with wb := withPriorities f s.wb } = .next { t with wb := wb } ∧
      withPriorities (fun _ => 0x00#8) wb = withPriorities (fun _ => 0x00#8) t.wb

/-! ## Start and invariant -/

/-- R62: every state field after reset, under every PARAMS in range (MAXC depends on it). -/
def Obligations.ResetLeavesTheListedValues : Prop :=
  ∀ p : Params, paramsOk p = true → ∃ s, startState p = s ∧
    (∀ q, (s.queue q).cfg = true ∧ (s.queue q).isz = 1#16 ∧ (s.queue q).maxc.toNat = queueBytes p q ∧
      (s.queue q).head = 0#16 ∧ (s.queue q).tail = 0#16 ∧ (s.queue q).cnt = 0#16 ∧
      (∀ a, memRead (s.queue q).ram a = 0x00#8) ∧ (s.queue q).cd = none) ∧
    s.rxq.chk = 1#8 ∧ s.txq.chk = 0#8 ∧ s.crcAcc = 0x0000#16 ∧ s.crcEn = false ∧ s.hdl = 1#8 ∧
    (∀ a, memRead s.rf a = 0x00#8) ∧ s.wb = [] ∧ (∀ i, tgtRead s.tgt i = 0#64) ∧ s.evt = [] ∧ s.fault = none ∧
    (p = Params.default → s = State.reset)

/-- The parameters of the reset state are the defaults of 00_scope R9 to R12, and the default SYS_TABLE is the list of
44_address_registry R232. (CMD_WR, CMD_RD and VAR_BASE are values that the spec marks as general knowledge, log 11.) -/
def Obligations.ResetParamsAreTheListedDefaults : Prop :=
  (∀ p : Params, p = State.reset.params → p.hdr = [0x5A#8, 0xA5#8] ∧ p.lenW = 1 ∧ p.validOnly = true ∧
    p.rxqBytes = 256 ∧ p.txqBytes = 256 ∧ p.cdMax = 16 ∧ p.checkers = [] ∧ p.custom = [] ∧
    p.itemLists.length = 16 ∧ (∀ l, itemsOf p l = []) ∧ (∀ type, widgetListOf p type = 0) ∧ p.cmdWr = 0x82#8 ∧
    p.cmdRd = 0x83#8 ∧ p.sysTable = none ∧ p.varBase = 0x1000 ∧ p.varLen = 0xF000 ∧ p.wbMax = 64 ∧ p.crcCfg = none) ∧
  ∀ p : Params, p.sysTable = none → sysTableOf p =
    [⟨0x0004#16, 1, .sys, true, true⟩, ⟨0x000E#16, 1, .sys, false, true⟩, ⟨0x0010#16, 1, .sys, true, true⟩,
     ⟨0x0014#16, 1, .sys, false, true⟩, ⟨0x0080#16, 1, .sys, true, true⟩, ⟨0x0082#16, 1, .sys, true, true⟩,
     ⟨0x0084#16, 1, .sys, true, true⟩, ⟨0x00AA#16, 1, .sys, true, true⟩, ⟨0x00D4#16, 1, .sys, true, true⟩,
     ⟨0x00E0#16, 1, .sys, true, true⟩, ⟨0x0F00#16, 1, .sys, false, true⟩,
     ⟨BitVec.ofNat 16 p.varBase, p.varLen, .var, true, true⟩]

/-- R276: a PARAMS outside its ranges starts with FAULT = PARAM_INVALID and executes no command; one within them starts with
FAULT = none. -/
def Obligations.ParamsOutOfRangeNeverRun : Prop :=
  ∀ p : Params,
    (ParamsRefused p → (startState p).fault = some .paramInvalid ∧
      ∀ (cmds : List Command) (n : Nat) (t : State), runFor (n + 1) { startState p with port := cmds } ≠ .next t) ∧
    (¬ParamsRefused p → (startState p).fault = none)

/-- The invariant holds at the reset state. -/
def Obligations.ResetMeetsTheInvariant : Prop :=
  StateInv State.reset ∧ Running State.reset

/-- The invariant holds at the start of every run under a PARAMS in range. -/
def Obligations.EveryStartMeetsTheInvariant : Prop :=
  ∀ p : Params, paramsOk p = true → StateInv (startState p) ∧ Running (startState p)

/-- Every step, from every state, keeps the invariant: the queue invariant of 10_state R42 and the bound of 40_ring_queue
R133 for both queues, canonical RAM and RF within their sizes, FRAME on one-byte elements only, at most WB_MAX bindings. -/
def Obligations.EveryStepKeepsTheInvariant : Prop :=
  ∀ s t : State, StateInv s → step s = .next t → StateInv t

/-! ## System -/

/-- R288: NOP returns (OK, 0, []) and writes nothing, and only the word 0x0000_0000 is a NOP. -/
def Obligations.NopDoesNothing : Prop :=
  (∀ s : State, Answers .nop s s .ok 0#32 []) ∧ ∀ w : U32, decode w = .ok .nop ↔ w = 0x00000000#32

/-! ## Ring Queue -/

/-- R120: every queue command except Q.INIT returns (FAIL, 0, []) on an unconfigured queue and changes nothing. -/
def Obligations.UnconfiguredQueueFails : Prop :=
  ∀ (s : State) (q : QueueId) (id : Byte) (i : Instr),
    i ∈ [.qPush q, .qPop q, .qPopv q, .qSetchk q id, .qEmpty q, .qCount q, .qClear q, .qSetcd q, .qDeinit q] →
    (s.queue q).cfg = false → Answers i s s .fail 0#32 []

/-- R123: Q.INIT, both outcomes. -/
def Obligations.QInitBuildsAFreshQueue : Prop :=
  ∀ (s : State) (q : QueueId) (bs : U16),
    (∀ hi lo, s.din = [hi, lo] → hi.toNat * 256 + lo.toNat ≠ 0 → bs.toNat ≠ 0 →
      hi.toNat * 256 + lo.toNat ≤ bs.toNat → bs.toNat ≤ queueBytes s.params q →
      ∃ x : QState, Answers (.qInit q bs) s (s.withQueue q x) .ok
          (BitVec.ofNat 32 (bs.toNat / (hi.toNat * 256 + lo.toNat))) [] ∧
        x.cfg = true ∧ x.isz.toNat = hi.toNat * 256 + lo.toNat ∧
        x.maxc.toNat = bs.toNat / (hi.toNat * 256 + lo.toNat) ∧ x.head = 0#16 ∧ x.tail = 0#16 ∧ x.cnt = 0#16 ∧
        x.chk = 0#8 ∧ x.cd = none ∧ x.ram = (s.queue q).ram) ∧
    (∀ hi lo, s.din = [hi, lo] →
      (hi.toNat * 256 + lo.toNat = 0 ∨ bs.toNat = 0 ∨ bs.toNat < hi.toNat * 256 + lo.toNat ∨
        queueBytes s.params q < bs.toNat) → Answers (.qInit q bs) s s .fail 0#32 []) ∧
    (s.din.length ≠ 2 → Answers (.qInit q bs) s s .fail 0#32 [])

/-- R124: Q.PUSH on a configured queue. The item is written at HEAD, the RAM elsewhere is as before, and the queue's
contents gain the item at the end and, when full, lose the oldest element. -/
def Obligations.QPushAppendsTheItem : Prop :=
  ∀ (s : State) (q : QueueId) (x : QState), s.queue q = x → QueueInv s.params (queueBytes s.params q) x →
    x.cfg = true →
    (s.din.length = x.isz.toNat →
      ∃ y : QState, Answers (.qPush q) s (s.withQueue q y) .ok (if x.cnt = x.maxc then 1#32 else 0#32) [] ∧
        SameSetup x y ∧ y.head.toNat = (x.head.toNat + 1) % x.maxc.toNat ∧
        (x.cnt = x.maxc → y.tail.toNat = (x.tail.toNat + 1) % x.maxc.toNat ∧ y.cnt = x.cnt ∧
          view y = (view x).tail ++ [s.din]) ∧
        (x.cnt ≠ x.maxc → y.tail = x.tail ∧ y.cnt.toNat = x.cnt.toNat + 1 ∧ view y = view x ++ [s.din]) ∧
        (∀ a, memRead y.ram a =
          if x.head.toNat * x.isz.toNat ≤ a ∧ a < x.head.toNat * x.isz.toNat + x.isz.toNat
          then s.din.getD (a - x.head.toNat * x.isz.toNat) 0#8 else memRead x.ram a)) ∧
    (s.din.length ≠ x.isz.toNat → Answers (.qPush q) s s .fail 0#32 [])

/-- R125: Q.POP on a configured queue: INV when empty, else the oldest element leaves; no RAM byte changes. -/
def Obligations.QPopTakesTheOldest : Prop :=
  ∀ (s : State) (q : QueueId) (x : QState), s.queue q = x → QueueInv s.params (queueBytes s.params q) x →
    x.cfg = true →
    (view x = [] → Answers (.qPop q) s s .inv 0#32 []) ∧
    (∀ e l, view x = e :: l →
      ∃ y : QState, Answers (.qPop q) s (s.withQueue q y) .ok 0#32 e ∧ view y = l ∧ SameSetup x y ∧ y.ram = x.ram ∧
        y.head = x.head ∧ y.tail.toNat = (x.tail.toNat + 1) % x.maxc.toNat ∧ y.cnt.toNat + 1 = x.cnt.toNat)

/-- R126, R122, R135: Q.POPV on a configured queue is the reassembly on the list of its stored elements: each FAIL verdict removes
the oldest element alone, INV ends the command, OK(n) removes n elements and returns them; a broken contract ends it in
CHECKER_CONTRACT (60_exceptions R274, R277). No RAM byte changes. -/
def Obligations.QPopvIsReassemblyOfTheContents : Prop :=
  ∀ (s : State) (q : QueueId) (x : QState), s.queue q = x → QueueInv s.params (queueBytes s.params q) x →
    x.cfg = true →
    (x.chk = 0#8 → Answers (.qPopv q) s s .fail 0#32 []) ∧
    (x.chk ≠ 0#8 → view x = [] → Answers (.qPopv q) s s .inv 0#32 []) ∧
    (x.chk ≠ 0#8 → view x ≠ [] → ∃ y : QState, SameSetup x y ∧ y.ram = x.ram ∧ y.head = x.head ∧
      y.tail.toNat = (x.tail.toNat + (x.cnt.toNat - y.cnt.toNat)) % x.maxc.toNat ∧
      match reassemble (checkList s x) (view x).length 0 (view x) with
      | .returned rest res aux out =>
        Answers (.qPopv q) s (s.withQueue q y) res (BitVec.ofNat 32 aux) out ∧ view y = rest
      | .faulted rest =>
        Answers (.qPopv q) s { s.withQueue q y with fault := some .checkerContract } .fail 1#32 [] ∧ view y = rest)

/-- R127, R131: Q.SETCHK and Q.SETCD on a configured queue. -/
def Obligations.QSetchkAndQSetcdSetTheirField : Prop :=
  ∀ (s : State) (q : QueueId) (x : QState), s.queue q = x → x.cfg = true →
    (∀ id : Byte,
      (2 ≤ id.toNat ∧ ¬(∃ d ∈ s.params.checkers, d.id = id.toNat) ∨ id = 1#8 ∧ x.isz ≠ 1#16 →
        Answers (.qSetchk q id) s s .fail 0#32 []) ∧
      ((2 ≤ id.toNat → ∃ d ∈ s.params.checkers, d.id = id.toNat) → (id = 1#8 → x.isz = 1#16) →
        Answers (.qSetchk q id) s (s.withQueue q { x with chk := id }) .ok 0#32 [])) ∧
    (s.params.cdMax < s.din.length → Answers (.qSetcd q) s s .fail 0#32 []) ∧
    (s.din = [] → Answers (.qSetcd q) s (s.withQueue q { x with cd := none }) .ok 0#32 []) ∧
    (s.din ≠ [] → s.din.length ≤ s.params.cdMax →
      Answers (.qSetcd q) s (s.withQueue q { x with cd := some s.din }) .ok 0#32 [])

/-- R128, R129: Q.EMPTY and Q.COUNT on a configured queue. -/
def Obligations.QEmptyAndQCountReport : Prop :=
  ∀ (s : State) (q : QueueId), (s.queue q).cfg = true →
    Answers (.qEmpty q) s s .ok (if view (s.queue q) = [] then 1#32 else 0#32) [] ∧
    ∃ a : U32, Answers (.qCount q) s s .ok a [] ∧ a.toNat = (view (s.queue q)).length

/-- R130, R132: Q.CLEAR and Q.DEINIT on a configured queue. -/
def Obligations.QClearAndQDeinitEmptyTheQueue : Prop :=
  ∀ (s : State) (q : QueueId) (x : QState), s.queue q = x → x.cfg = true →
    (∃ y, Answers (.qClear q) s (s.withQueue q y) .ok 0#32 [] ∧ view y = [] ∧ SameSetup x y ∧ y.ram = x.ram ∧
      y.head = 0#16 ∧ y.tail = 0#16 ∧ y.cnt = 0#16) ∧
    (∃ y, Answers (.qDeinit q) s (s.withQueue q y) .ok 0#32 [] ∧ view y = [] ∧ y.cfg = false ∧ y.chk = 0#8 ∧
      y.cd = none ∧ y.head = 0#16 ∧ y.tail = 0#16 ∧ y.cnt = 0#16 ∧ y.ram = x.ram ∧ y.isz = x.isz ∧ y.maxc = x.maxc)

/-- The first-in first-out law over the whole command set (40_ring_queue R134; 60_exceptions R280): a command that neither
pushes into queue q nor resets it only removes from the oldest end, whatever checker runs and whatever it delivers. -/
def Obligations.ElementsLeaveOldestFirst : Prop :=
  ∀ (i : Instr) (s t : State) (q : QueueId), StateInv s → exec i s = .next t → ¬AddsOrResets q i →
    ∃ k ≤ (view (s.queue q)).length, view (t.queue q) = (view (s.queue q)).drop k

/-! ## CRC16 -/

/-- The table-driven update is the bit-serial one: eight steps on the accumulator with the byte added in (41_crc16 R150,
R151). -/
def Obligations.CrcUpdateIsBitSerial : Prop :=
  ∀ (c : U16) (b : Byte), crcUpdate c b = crcSteps 8 (c ^^^ b.setWidth 16)

/-- R160: the listed table is the computed one. -/
def Obligations.CrcTableIsTheListedOne : Prop :=
  (List.range 256).map (fun i => crcTable (BitVec.ofNat 8 i)) = tableRows0 ++ (tableRows1 ++ (tableRows2 ++ tableRows3))

/-- R159: the incremental law, of the function and of the machine: CRC.SEED and any split of a string into CRC.UPD and
CRC.UPDN leave the CRC of the whole string in CRC_ACC, the value CRC.CALC gives. (The run goes through the field `port`,
the model's choice, log 1.) -/
def Obligations.CrcOfAnySplitIsTheCrcOfTheWhole : Prop :=
  (∀ (seed : U16) (d e : Bytes), crcOf (crcOf seed d) e = crcOf seed (d ++ e)) ∧
  ∀ (s : State) (v : CrcVariant) (ps : List Piece), Running s →
    s.port = ⟨encode (.crcSeed v), []⟩ :: ps.map Piece.command →
    ∃ t, runFor (ps.length + 1) s = .next t ∧ t.crcAcc = crcOf (crcSeedOf v) (ps.flatMap Piece.data) ∧
      Answers (.crcCalc v) { t with din := ps.flatMap Piece.data } { t with din := ps.flatMap Piece.data } .ok
        (t.crcAcc.setWidth 32) []

/-- R154 to R158: the five CRC commands. -/
def Obligations.CrcCommandsAnswerTheCrc : Prop :=
  ∀ (s : State) (b : Byte),
    Answers (.crcSeed .plain) s { s with crcAcc := 0x0000#16 } .ok 0x00000000#32 [] ∧
    Answers (.crcSeed .modbus) s { s with crcAcc := 0xFFFF#16 } .ok 0x0000FFFF#32 [] ∧
    Answers (.crcUpd b) s { s with crcAcc := crcUpdate s.crcAcc b } .ok ((crcUpdate s.crcAcc b).setWidth 32) [] ∧
    Answers .crcUpdn s { s with crcAcc := crcOf s.crcAcc s.din } .ok ((crcOf s.crcAcc s.din).setWidth 32) [] ∧
    Answers (.crcCalc .plain) s s .ok ((crcOf 0x0000#16 s.din).setWidth 32) [] ∧
    Answers (.crcCalc .modbus) s s .ok ((crcOf 0xFFFF#16 s.din).setWidth 32) [] ∧
    Answers .crcRd s s .ok (s.crcAcc.setWidth 32) []

/-! ## Frame codec -/

/-- R174: CDC.SEND pushes the bytes of DIN, or fails on an unusable TXQ. -/
def Obligations.CdcSendPushesTheBytes : Prop :=
  ∀ s : State, QueueInv s.params s.params.txqBytes s.txq →
    (s.txq.cfg = true → s.txq.isz = 1#16 →
      ∃ (y : QState) (a : U32), Answers .cdcSend s { s with txq := y } .ok a [] ∧ PushedBytes s.txq y s.din ∧
        (s.din.length < 2 ^ 32 → a.toNat = s.din.length)) ∧
    (s.txq.cfg = false ∨ s.txq.isz ≠ 1#16 → Answers .cdcSend s s .fail 0#32 [])

/-- R171, R175: CDC.SENDP pushes header, big-endian length, payload and CRC (low byte first), or fails and pushes nothing. -/
def Obligations.CdcSendpPushesTheFrame : Prop :=
  ∀ (s : State) (c : Nat) (crc : Bytes), QueueInv s.params s.params.txqBytes s.txq →
    (s.crcEn = false → c = 0 ∧ crc = []) →
    (s.crcEn = true → c = 2 ∧
      crc = [(crcOf 0xFFFF#16 s.din).extractLsb' 0 8, (crcOf 0xFFFF#16 s.din).extractLsb' 8 8]) →
    (s.txq.cfg = true → s.txq.isz = 1#16 → s.din.length + c < 2 ^ (8 * s.params.lenW) →
      ∃ (y : QState) (a : U32), Answers .cdcSendp s { s with txq := y } .ok a [] ∧
        PushedBytes s.txq y (s.params.hdr ++ be s.params.lenW (s.din.length + c) ++ s.din ++ crc) ∧
        (s.params.hdr.length + s.params.lenW + s.din.length + c < 2 ^ 32 →
          a.toNat = s.params.hdr.length + s.params.lenW + s.din.length + c)) ∧
    (s.txq.cfg = false ∨ s.txq.isz ≠ 1#16 ∨ 2 ^ (8 * s.params.lenW) ≤ s.din.length + c →
      Answers .cdcSendp s s .fail 0#32 [])

/-- R172: the FRAME checker, case by case, on a view's bytes. -/
def Obligations.FrameCheckerFollowsItsSteps : Prop :=
  ∀ (p : Params) (crcEn : Bool) (v : Bytes),
    (v.take p.hdr.length ≠ p.hdr.take v.length → frameCheck p crcEn v = .fail) ∧
    (v.length < p.hdr.length → v = p.hdr.take v.length → frameCheck p crcEn v = .inv) ∧
    (∀ len rest, v = p.hdr ++ len ++ rest → len.length = p.lenW →
      (rest.length < unBE len → frameCheck p crcEn v = .inv) ∧
      (unBE len ≤ rest.length → crcEn = false → frameCheck p crcEn v = .ok (p.hdr.length + p.lenW + unBE len)) ∧
      (unBE len ≤ rest.length → crcEn = true → unBE len < 2 → frameCheck p crcEn v = .fail) ∧
      (∀ payload lo hi more, rest = payload ++ [lo, hi] ++ more → unBE len = payload.length + 2 → crcEn = true →
        frameCheck p crcEn v =
          if crcOf 0xFFFF#16 payload = hi ++ lo then .ok (p.hdr.length + p.lenW + unBE len) else .fail)) ∧
    (p.hdr.length ≤ v.length → v.take p.hdr.length = p.hdr → v.length < p.hdr.length + p.lenW →
      frameCheck p crcEn v = .inv)

/-- R176, R181: CDC.RECV is one reassembly of RXQ's contents, then the strip, then the handler once. With HDL = 1 the
handler's effect is that of REG.DISP on the delivered bytes, its outputs discarded. -/
def Obligations.CdcRecvReassemblesThenHandles : Prop :=
  ∀ s : State, QueueInv s.params s.params.rxqBytes s.rxq →
    (s.rxq.cfg = false ∨ s.rxq.isz ≠ 1#16 ∨ s.rxq.chk = 0#8 → Answers .cdcRecv s s .fail 0#32 []) ∧
    (s.rxq.cfg = true → s.rxq.isz = 1#16 → s.rxq.chk ≠ 0#8 → view s.rxq = [] → Answers .cdcRecv s s .inv 0#32 []) ∧
    (s.rxq.cfg = true → s.rxq.isz = 1#16 → s.rxq.chk ≠ 0#8 → view s.rxq ≠ [] →
      ∃ y : QState, SameSetup s.rxq y ∧ y.ram = s.rxq.ram ∧ y.head = s.rxq.head ∧
      y.tail.toNat = (s.rxq.tail.toNat + (s.rxq.cnt.toNat - y.cnt.toNat)) % s.rxq.maxc.toNat ∧
      match reassemble (checkList s s.rxq) (view s.rxq).length 0 (view s.rxq) with
      | .faulted rest =>
        Answers .cdcRecv s { s with rxq := y, fault := some .checkerContract } .fail 1#32 [] ∧ view y = rest
      | .returned rest .ok aux out =>
        view y = rest ∧ ∃ p, p = (if s.params.validOnly = true ∧ s.rxq.chk = 1#8
            then slice out (s.params.hdr.length + s.params.lenW) (out.length - if s.crcEn then 2 else 0) else out) ∧
          (s.hdl = 0#8 → Answers .cdcRecv s { s with rxq := y } .ok (BitVec.ofNat 32 aux) p) ∧
          (2 ≤ s.hdl.toNat → Answers .cdcRecv s { s with rxq := y, evt := s.evt ++ [.handlerCall s.hdl p] } .ok
            (BitVec.ofNat 32 aux) p) ∧
          (s.hdl = 1#8 → ∃ u, exec .regDisp { s with rxq := y, din := p } = .next u ∧
            Answers .cdcRecv s { u with din := s.din, outs := s.outs } .ok (BitVec.ofNat 32 aux) p)
      | .returned rest res aux _ =>
        Answers .cdcRecv s { s with rxq := y } res (BitVec.ofNat 32 aux) [] ∧ view y = rest)

/-- R177: CDC.POLL is CDC.RECV repeated until a result is not OK. It unfolds by one CDC.RECV: if that one is not OK, the poll
ends with its result and no frame; if it is OK, the poll goes on from the state it leaves, and counts one frame more. -/
def Obligations.CdcPollIsRepeatedRecv : Prop :=
  ∀ s : State, Running s → ∃ t o, exec .cdcRecv s = .next t ∧ t.outs = s.outs ++ [o] ∧
    (t.fault ≠ none → exec .cdcPoll s = .next t) ∧
    (t.fault = none → o.res ≠ .ok → Answers .cdcPoll s { t with outs := s.outs } o.res 0#32 []) ∧
    (t.fault = none → o.res = .ok → ∃ u o', exec .cdcPoll { t with outs := s.outs } = .next u ∧
      u.outs = s.outs ++ [o'] ∧
      (u.fault ≠ none → exec .cdcPoll s = .next u) ∧
      (u.fault = none → o'.dout = [] ∧ Answers .cdcPoll s { u with outs := s.outs } o'.res (o'.aux + 1#32) []))

/-- CDC.POLL under the FRAME checker on a usable RXQ always ends, without a fault, with INV or FAIL (42_frame_codec R177;
60_exceptions R274, R289); FAIL leaves RXQ empty. On an unusable RXQ it fails and changes nothing. -/
def Obligations.CdcPollEndsUnderTheFrameChecker : Prop :=
  ∀ s : State, StateInv s →
    (s.rxq.cfg = true → s.rxq.isz = 1#16 → s.rxq.chk = 1#8 →
      ∃ u r a, Answers .cdcPoll s u r a [] ∧ u.fault = s.fault ∧ u.outs = s.outs ∧ (r = .inv ∨ r = .fail) ∧
        (r = .fail → view u.rxq = []) ∧ ∃ k, view u.rxq = (view s.rxq).drop k) ∧
    (s.rxq.cfg = false ∨ s.rxq.isz ≠ 1#16 → Answers .cdcPoll s s .fail 0#32 [])

/-- R178, R179: CDC.SETCRC and CDC.SETHDL. -/
def Obligations.CdcSetcrcAndCdcSethdlSetTheirField : Prop :=
  ∀ (s : State) (e : Bool) (id : Byte),
    Answers (.cdcSetcrc e) s { s with crcEn := e } .ok 0#32 [] ∧ Answers (.cdcSethdl id) s { s with hdl := id } .ok 0#32 []

/-- R180: CDC.PHASE: FAIL on an unusable RXQ, whatever it holds; else, on RXQ's bytes v, IDLE, HEADER_MATCHED,
ACCUMULATING or VALIDATING. -/
def Obligations.CdcPhaseReadsTheReceiveSide : Prop :=
  ∀ s : State,
    (s.rxq.cfg = false ∨ s.rxq.isz ≠ 1#16 → Answers .cdcPhase s s .fail 0#32 []) ∧
    ∀ v : Bytes, s.rxq.cfg = true → s.rxq.isz = 1#16 → view s.rxq = unitElems v →
      (¬s.params.hdr <+: v → Answers .cdcPhase s s .ok 0#32 []) ∧
      (s.params.hdr <+: v → v.length < s.params.hdr.length + s.params.lenW → Answers .cdcPhase s s .ok 1#32 []) ∧
      (∀ len rest, v = s.params.hdr ++ len ++ rest → len.length = s.params.lenW →
        Answers .cdcPhase s s .ok (if rest.length < unBE len then 2#32 else 3#32) [])

/-- The round-trip law at the receiver (42_frame_codec R182): when RXQ holds exactly the frame of a payload, CDC.RECV returns
the payload, byte for byte, with CRC on and off, and RXQ is empty. -/
def Obligations.RecvOfAPackedFrameIsThePayload : Prop :=
  ∀ (s : State) (payload f : Bytes), QueueInv s.params s.params.rxqBytes s.rxq → s.rxq.cfg = true → s.rxq.isz = 1#16 →
    s.rxq.chk = 1#8 → s.params.validOnly = true → s.hdl = 0#8 → 1 ≤ s.params.hdr.length →
    pack s.params s.crcEn payload = some f → view s.rxq = unitElems f →
    ∃ y, Answers .cdcRecv s { s with rxq := y } .ok (BitVec.ofNat 32 f.length) payload ∧ view y = [] ∧
      SameSetup s.rxq y ∧ y.ram = s.rxq.ram

/-- The corruption law (42_frame_codec R183): with CRC on, a frame with one payload byte replaced by a different value fails
the first FRAME attempt, and Q.POPV drops exactly its first byte before the next attempt. -/
def Obligations.OneWrongPayloadByteFailsTheFrame : Prop :=
  ∀ (s : State) (p1 p2 : Bytes) (b b' : Byte) (f f' : Bytes), b ≠ b' → s.crcEn = true →
    pack s.params true (p1 ++ b :: p2) = some f →
    f' = s.params.hdr ++ be s.params.lenW ((p1 ++ b :: p2).length + 2) ++ (p1 ++ b' :: p2) ++ crcWire (p1 ++ b :: p2) →
    frameCheck s.params true f = .ok f.length ∧ frameCheck s.params true f' = .fail ∧
    (s.rxq.chk = 1#8 → view s.rxq = unitElems f' → ∀ turns dropped, popvLoop .rx (turns + 1) dropped s =
      popvLoop .rx turns (dropped + 1) { s with rxq := dropElems s.rxq 1 })

/-- The stall of 70_reset_and_hazards R297: while RXQ's oldest bytes are a header that declares more than RXQ can hold,
CDC.RECV answers INV and drops nothing. -/
def Obligations.FrameLongerThanRxqStalls : Prop :=
  ∀ (s : State) (len rest : Bytes), QueueInv s.params s.params.rxqBytes s.rxq → s.rxq.cfg = true →
    s.rxq.chk = 1#8 → 1 ≤ s.params.hdr.length → view s.rxq = unitElems (s.params.hdr ++ len ++ rest) →
    len.length = s.params.lenW → s.rxq.maxc.toNat < s.params.hdr.length + s.params.lenW + unBE len →
    Answers .cdcRecv s { s with rxq := s.rxq } .inv 0#32 []

/-! ## Struct mapper -/

/-- R204 to R209: the six MAP.PARSEP commands: the slot's new value by kind, every other slot as before; a wrong length
fails with nothing written. -/
def Obligations.ParsepStoresTheValueOfTheBytes : Prop :=
  ∀ (s : State) (slot : Byte) (i : Instr) (k : Prim), i = parsepOf k slot →
    (primLenOk k s.din.length = false → Answers i s s .fail 0#32 []) ∧
    (primLenOk k s.din.length = true → ∃ t : Target,
      Answers i s { s with tgt := t } .ok (BitVec.ofNat 32 s.din.length) [] ∧
      (∀ j, j ≠ slot.toNat → tgtRead t j = tgtRead s.tgt j) ∧
      match k with
      | .i16 => (tgtRead t slot.toNat).toInt = signedBE 16 s.din
      | .i32 => (tgtRead t slot.toNat).toInt = signedBE 32 s.din
      | .i64 => (tgtRead t slot.toNat).toInt = signedBE 64 s.din
      | .uint | .f32 | .f64 => (tgtRead t slot.toNat).toNat = unBE s.din) ∧
    (primLenOk k s.din.length = true ↔ match k with
      | .uint => 1 ≤ s.din.length ∧ s.din.length ≤ 8
      | .i16 => s.din.length = 2
      | .i32 | .f32 => s.din.length = 4
      | .i64 | .f64 => s.din.length = 8)

/-- R210 to R215: the six MAP.PRINTP commands: the low `len` bytes of the slot, most significant first, or FAIL for a length
the kind does not take. Nothing is written. -/
def Obligations.PrintpGivesTheLowBytesOfTheSlot : Prop :=
  ∀ (s : State) (len slot : Byte) (i : Instr) (k : Prim), i = printpOf k len slot →
    (primLenOk k len.toNat = false → Answers i s s .fail 0#32 []) ∧
    (primLenOk k len.toNat = true → ∃ d : Bytes, Answers i s s .ok (len.setWidth 32) d ∧ d.length = len.toNat ∧
      unBE d = (tgtRead s.tgt slot.toNat).toNat % 256 ^ len.toNat) ∧
    (primLenOk k len.toNat = true ↔ match k with
      | .uint => 1 ≤ len.toNat ∧ len.toNat ≤ 8
      | .i16 => len.toNat = 2
      | .i32 | .f32 => len.toNat = 4
      | .i64 | .f64 => len.toNat = 8)

/-- R219: print then parse. UINT gives the value modulo 2^(8n), the signed kinds the sign extension of the low bits, the
float kinds the low bits of the pattern. -/
def Obligations.PrintpThenParsepRoundTrips : Prop :=
  ∀ (s : State) (len from_ to_ : Byte) (k : Prim), primLenOk k len.toNat = true →
    ∃ d : Bytes, ∃ t : Target, Answers (printpOf k len from_) s s .ok (len.setWidth 32) d ∧
      Answers (parsepOf k to_) { s with din := d } { s with din := d, tgt := t } .ok (len.setWidth 32) [] ∧
      tgtRead t to_.toNat = match k with
        | .uint => BitVec.ofNat 64 ((tgtRead s.tgt from_.toNat).toNat % 2 ^ (8 * len.toNat))
        | .i16 => ((tgtRead s.tgt from_.toNat).setWidth 16).signExtend 64
        | .i32 => ((tgtRead s.tgt from_.toNat).setWidth 32).signExtend 64
        | .f32 => ((tgtRead s.tgt from_.toNat).setWidth 32).setWidth 64
        | .i64 | .f64 => tgtRead s.tgt from_.toNat

/-- R217, R218: MAP.TWR writes the slot that 8 bytes spell, and MAP.TRD reads it back as those 8 bytes. -/
def Obligations.TwrThenTrdGivesTheBytes : Prop :=
  ∀ (s : State) (slot : Byte),
    (s.din.length ≠ 8 → Answers (.mapTwr slot) s s .fail 0#32 []) ∧
    (s.din.length = 8 → ∃ t : Target, Answers (.mapTwr slot) s { s with tgt := t } .ok 0#32 [] ∧
      (tgtRead t slot.toNat).toNat = unBE s.din ∧ (∀ j, j ≠ slot.toNat → tgtRead t j = tgtRead s.tgt j) ∧
      ∀ u : State, u.tgt = t → Answers (.mapTrd slot) u u .ok ((tgtRead t slot.toNat).setWidth 32) s.din) ∧
    ∃ d : Bytes, Answers (.mapTrd slot) s s .ok ((tgtRead s.tgt slot.toNat).setWidth 32) d ∧ d.length = 8 ∧
      unBE d = (tgtRead s.tgt slot.toNat).toNat

/-- R202, R216, R220: MAP.PARSE on any list of at most 255 items, of whatever kinds. `τ i` is the target after the first i
items and `n` the number of items that parse. The command ends after the last item (OK, AUX the sum of the lengths), or at
item n (AUX = n): with FAIL where item n is the first that ends past the buffer, with the item's own result where it fits
and does not return OK. -/
def Obligations.MapParseFillsSlotsUpToTheBound : Prop :=
  ∀ (s : State) (l : BitVec 4) (its : List Item), itemsOf s.params l.toNat = its → its.length ≤ 255 →
    ∃ (n : Nat) (τ : Nat → Target), n ≤ its.length ∧ τ 0 = s.tgt ∧
      (∀ i (h : i < its.length), i < n → lenSum its (i + 1) ≤ s.din.length ∧
        ItemParses s.params its[i] i (slice s.din (lenSum its i) (lenSum its (i + 1))) (τ i) .ok (τ (i + 1))) ∧
      ((n = its.length ∧ Answers (.mapParse l) s { s with tgt := τ n } .ok (BitVec.ofNat 32 (lenSum its n)) []) ∨
        ∃ (h : n < its.length) (r : Res),
          Answers (.mapParse l) s { s with tgt := τ n } r (BitVec.ofNat 32 n) [] ∧
          ((s.din.length < lenSum its (n + 1) ∧ r = .fail) ∨
            (lenSum its (n + 1) ≤ s.din.length ∧ r ≠ .ok ∧ ∃ t,
              ItemParses s.params its[n] n (slice s.din (lenSum its n) (lenSum its (n + 1))) (τ n) r t)))

/-- R203, R216, R220, R275: MAP.PRINT on any list of at most 255 items, of whatever kinds: N zero bytes, overwritten by the
`n` items that print. It ends after the last item (OK, AUX the sum of the lengths), or at item n: with FAIL where item n is
the first that ends past the buffer, with the item's own result where it fits and does not return OK (AUX = n and the
buffer so far in both), in CUSTOM_CONTRACT where it returns OK with bytes of another length. -/
def Obligations.MapPrintWritesItemsUpToTheBound : Prop :=
  ∀ (s : State) (l : BitVec 4) (size : U16) (its : List Item), itemsOf s.params l.toNat = its → its.length ≤ 255 →
    ∃ (n : Nat) (buf : Bytes), n ≤ its.length ∧ buf.length = size.toNat ∧
      (∀ i (h : i < its.length), i < n → lenSum its (i + 1) ≤ size.toNat ∧
        ItemPrints s.params s.tgt its[i] i .ok (slice buf (lenSum its i) (lenSum its (i + 1)))) ∧
      (∀ a, lenSum its n ≤ a → a < size.toNat → byteAt buf a = 0x00#8) ∧
      ((n = its.length ∧ Answers (.mapPrint l size) s s .ok (BitVec.ofNat 32 (lenSum its n)) buf) ∨
        ∃ h : n < its.length,
          (size.toNat < lenSum its (n + 1) ∧ Answers (.mapPrint l size) s s .fail (BitVec.ofNat 32 n) buf) ∨
          (lenSum its (n + 1) ≤ size.toNat ∧ ∃ r b, ItemPrints s.params s.tgt its[n] n r b ∧
            ((r ≠ .ok ∧ Answers (.mapPrint l size) s s r (BitVec.ofNat 32 n) buf) ∨
              (r = .ok ∧ b.length ≠ its[n].len.toNat ∧
                Answers (.mapPrint l size) s { s with fault := some .customContract } .fail 2#32 []))))

/-- An item of a reserved or undefined kind, or of a length its kind does not take, that is reached and fits ends MAP.PARSE
and MAP.PRINT with FAIL at its index, after the good items before it: their slots stay written, their bytes stand in DOUT
(43_struct_mapper R201, R202, R203; D35). -/
def Obligations.ItemOfABadKindFails : Prop :=
  ∀ (s : State) (l : BitVec 4) (size : U16) (pre : List Item) (it : Item) (post : List Item),
    itemsOf s.params l.toNat = pre ++ it :: post → pre.length ≤ 255 → (∀ x ∈ pre, GoodItem s.params x) →
    customOf s.params it.kind = none →
    (primOfCode it.kind = none ∨ ∃ k, primOfCode it.kind = some k ∧ primLenOk k it.len.toNat = false) →
    (lenSum pre pre.length + it.len.toNat ≤ s.din.length → ∃ t : Target, SlotsFrom pre pre.length s.din s.tgt t ∧
      Answers (.mapParse l) s { s with tgt := t } .fail (BitVec.ofNat 32 pre.length) []) ∧
    (lenSum pre pre.length + it.len.toNat ≤ size.toNat → ∃ buf : Bytes, buf.length = size.toNat ∧
      PrintedFrom pre pre.length s.tgt buf ∧ Answers (.mapPrint l size) s s .fail (BitVec.ofNat 32 pre.length) buf)

/-- R275, R277: a custom print that returns OK with the wrong number of bytes, at any index after good items, ends
MAP.PRINT in CUSTOM_CONTRACT: FAULT is set, the outputs are FAIL, 2, []. -/
def Obligations.CustomPrintOfWrongLengthFaults : Prop :=
  ∀ (s : State) (l : BitVec 4) (size : U16) (pre : List Item) (it : Item) (post : List Item) (d : CustomDef) (b : Bytes),
    itemsOf s.params l.toNat = pre ++ it :: post → (∀ x ∈ pre, GoodItem s.params x) →
    lenSum pre pre.length + it.len.toNat ≤ size.toNat → customOf s.params it.kind = some d →
    customPrint d it.kind s.tgt pre.length it.len.toNat = (.ok, b) → b.length ≠ it.len.toNat →
    Answers (.mapPrint l size) s { s with fault := some .customContract } .fail 2#32 []

/-! ## Registry -/

/-- R234, R233, R230: REG.SET. Short DIN fails; an unmatched address, a read-only owner or empty data is a no-op; else the
data is stored byte by byte, and the owning entry's handler alone emits: one SysWrite for a SYS entry, the widget events
for a VAR entry. -/
def Obligations.RegSetStoresAndRunsItsHandler : Prop :=
  ∀ s : State, Memory.wf s.rf →
    (s.din.length < 2 → Answers .regSet s s .fail 0#32 []) ∧
    ∀ hi lo d, s.din = hi :: lo :: d →
      (Unmatched s.params (addrOf hi lo).toNat → Answers .regSet s s .ok 0#32 []) ∧
      ∀ e, Owns s.params (addrOf hi lo).toNat e →
        (e.wr = false ∨ d = [] → Answers .regSet s s .ok 0#32 []) ∧
        (e.wr = true → d ≠ [] → ∃ (rf : Memory) (en : Bool) (es : List Event) (n : U32),
          Answers .regSet s { s with rf := rf, crcEn := en, evt := s.evt ++ es } .ok n [] ∧
          (d.length < 2 ^ 32 → n.toNat = d.length) ∧
          StoredAt (addrOf hi lo) d s.rf rf ∧ (s.params.crcCfg = none → en = s.crcEn) ∧
          (e.kind = .sys → es = [.sysWrite e.addr (addrOf hi lo) d]) ∧
          (e.kind = .var → es.length ≤ s.wb.length ∧ ∀ ev ∈ es, (∃ h v, ev = .setScalar h v) ∨
            ∃ h ty r, ev = .setRecord h ty r))

/-- R238: the CRC_CFG hook: with CRC_CFG = none, on a write that is not stored, and on RF.WR, CRC_EN is unchanged; on a
stored REG.SET write it takes bit k of register a when the write covers a, and only then. -/
def Obligations.CrcCfgHookFollowsTheRegister : Prop :=
  ∀ s : State, Memory.wf s.rf →
    (s.params.crcCfg = none → ∀ t, exec .regSet s = .next t → t.crcEn = s.crcEn) ∧
    (∀ r t, exec (.rfWr r) s = .next t → t.crcEn = s.crcEn) ∧
    ∀ hi lo d, s.din = hi :: lo :: d →
      (d = [] ∨ Unmatched s.params (addrOf hi lo).toNat ∨
          (∃ e, Owns s.params (addrOf hi lo).toNat e ∧ e.wr = false) →
        ∀ t, exec .regSet s = .next t → t.crcEn = s.crcEn) ∧
      ∀ (e : Entry) (a : U16) (k : Nat), d ≠ [] → Owns s.params (addrOf hi lo).toNat e → e.wr = true →
        s.params.crcCfg = some (a, k) →
        ∃ t, exec .regSet s = .next t ∧
          ((addrOf hi lo).toNat ≤ a.toNat → 2 * a.toNat < 2 * (addrOf hi lo).toNat + d.length →
            t.crcEn = (rfRead t.rf a).getLsbD k) ∧
          (a.toNat < (addrOf hi lo).toNat ∨ 2 * (addrOf hi lo).toNat + d.length ≤ 2 * a.toNat → t.crcEn = s.crcEn)

/-- R235, R236, R247: the indirection law for one binding: a write of any data at the VP emits exactly SetScalar of the
VP's register after the store: the first two data bytes, or one data byte above the old low byte; a write elsewhere in the
SP range emits exactly one SetRecord when the widget's list parses its block, and nothing otherwise; a write outside both
emits nothing. -/
def Obligations.OneBindingGetsItsEvents : Prop :=
  ∀ (s : State) (w : Binding) (hi lo : Byte) (d : Bytes) (e : Entry), Memory.wf s.rf → s.wb = [w] →
    s.din = hi :: lo :: d → d ≠ [] → Owns s.params (addrOf hi lo).toNat e → e.kind = .var → e.wr = true →
    ∃ t, exec .regSet s = .next t ∧
      (addrOf hi lo = w.vp → t.evt = s.evt ++ [.setScalar w.handle (rfRead t.rf w.vp)] ∧
        (∀ vh vl more, d = vh :: vl :: more → rfRead t.rf w.vp = vh ++ vl) ∧
        ∀ vh, d = [vh] → rfRead t.rf w.vp = vh ++ memRead s.rf (2 * w.vp.toNat + 1)) ∧
      (addrOf hi lo ≠ w.vp → w.sp.toNat ≤ (addrOf hi lo).toNat →
        (addrOf hi lo).toNat < w.sp.toNat + w.lenDsc.toNat →
        ∃ r : ParseEnd, r = parseItems s.params (rfLoad t.rf w.sp w.lenDsc.toNat)
            (itemsOf s.params (widgetListOf s.params w.type)) 0 0 (Vector.replicate 256 0#64) ∧
          (r.res = .ok → ∃ rec, t.evt = s.evt ++ [.setRecord w.handle w.type rec] ∧
            rec = r.tgt.toList.take (itemsOf s.params (widgetListOf s.params w.type)).length) ∧
          (r.res ≠ .ok → t.evt = s.evt)) ∧
      (addrOf hi lo ≠ w.vp → ((addrOf hi lo).toNat < w.sp.toNat ∨
        w.sp.toNat + w.lenDsc.toNat ≤ (addrOf hi lo).toNat) → t.evt = s.evt)

/-- R235: every binding is tested, in table order: a write of a VAR entry emits the events of the first binding alone,
then those of the rest of the table alone. -/
def Obligations.EventsOfATableAreThoseOfItsBindings : Prop :=
  ∀ (s : State) (w : Binding) (ws : List Binding) (hi lo : Byte) (d : Bytes) (e : Entry), s.wb = w :: ws →
    s.din = hi :: lo :: d → d ≠ [] → Owns s.params (addrOf hi lo).toNat e → e.kind = .var → e.wr = true →
    ∃ (t t1 t2 : State) (es1 es2 : List Event), exec .regSet { s with wb := [w] } = .next t1 ∧ t1.evt = s.evt ++ es1 ∧
      exec .regSet { s with wb := ws } = .next t2 ∧ t2.evt = s.evt ++ es2 ∧ exec .regSet s = .next t ∧
      t.evt = s.evt ++ es1 ++ es2 ∧ t.rf = t1.rf ∧ t.wb = s.wb

/-- R239: REG.GET: the echo of command byte, address and count, then the registers' bytes; nothing past byte 0x1FFFF. -/
def Obligations.RegGetEchoesThenReads : Prop :=
  ∀ s : State,
    (s.din.length < 3 → Answers .regGet s s .fail 0#32 []) ∧
    ∀ hi lo n more, s.din = hi :: lo :: n :: more →
      (Unmatched s.params (addrOf hi lo).toNat → Answers .regGet s s .ok 0#32 []) ∧
      ∀ e, Owns s.params (addrOf hi lo).toNat e →
        (e.rd = false → Answers .regGet s s .ok 0#32 []) ∧
        (e.rd = true → ∃ d : Bytes,
          Answers .regGet s s .ok (BitVec.ofNat 32 (4 + 2 * n.toNat)) ([s.params.cmdRd, hi, lo, n] ++ d) ∧
          d.length = 2 * n.toNat ∧ ∀ j < 2 * n.toNat, byteAt d j =
            if 2 * (addrOf hi lo).toNat + j ≤ 0x1FFFF then memRead s.rf (2 * (addrOf hi lo).toNat + j) else 0x00#8)

/-- R240, R241: REG.DISP: an empty payload or an unknown command byte does nothing; CMD_WR is REG.SET of the rest, its DOUT
dropped; CMD_RD is REG.GET of the rest, its response sent by CDC.SENDP. -/
def Obligations.RegDispRoutesByItsFirstByte : Prop :=
  ∀ s : State,
    (s.din = [] → Answers .regDisp s s .ok 0#32 []) ∧
    ∀ cmd rest, s.din = cmd :: rest →
      (cmd ≠ s.params.cmdWr → cmd ≠ s.params.cmdRd → Answers .regDisp s s .ok 0#32 []) ∧
      (cmd = s.params.cmdWr → ∃ u r a d, Answers .regSet { s with din := rest } u r a d ∧
        Answers .regDisp s { u with din := s.din } r a []) ∧
      (cmd ≠ s.params.cmdWr → cmd = s.params.cmdRd → ∃ r a resp,
        Answers .regGet { s with din := rest } { s with din := rest } r a resp ∧
        (r ≠ .ok ∨ resp = [] → Answers .regDisp s s r 0#32 []) ∧
        (r = .ok → resp ≠ [] → ∃ u r2 a2 d2, Answers .cdcSendp { s with din := resp } u r2 a2 d2 ∧
          Answers .regDisp s { u with din := s.din } r2 a2 resp))

/-- R242, R243: RF.WR writes one register and nothing else, with no event and no hook; RF.RD reads it back. -/
def Obligations.RfWrThenRfRdGivesTheRegister : Prop :=
  ∀ (s : State) (r : U16), Memory.wf s.rf →
    (s.din.length ≠ 2 → Answers (.rfWr r) s s .fail 0#32 []) ∧
    (∀ hi lo, s.din = [hi, lo] → ∃ rf : Memory, Answers (.rfWr r) s { s with rf := rf } .ok 0#32 [] ∧
      (∀ x, memRead rf x = if x = 2 * r.toNat then hi else if x = 2 * r.toNat + 1 then lo else memRead s.rf x) ∧
      ∀ u : State, u.rf = rf → Answers (.rfRd r) u u .ok ((hi ++ lo : U16).setWidth 32) [hi, lo]) ∧
    Answers (.rfRd r) s s .ok ((memRead s.rf (2 * r.toNat) ++ memRead s.rf (2 * r.toNat + 1) : U16).setWidth 32)
      [memRead s.rf (2 * r.toNat), memRead s.rf (2 * r.toNat + 1)]

/-- R244, R245: WB.ADD appends the binding its 10 bytes spell while the table has room; WB.CLR empties the table. -/
def Obligations.WbAddAppendsAndWbClrEmpties : Prop :=
  ∀ s : State,
    (s.din.length ≠ 10 ∨ s.wb.length = s.params.wbMax → Answers .wbAdd s s .fail 0#32 []) ∧
    (∀ h1 h0 pr ty s1 s0 l1 l0 v1 v0, s.din = [h1, h0, pr, ty, s1, s0, l1, l0, v1, v0] →
      s.wb.length ≠ s.params.wbMax →
      ∃ n : U32, (s.wb.length < 2 ^ 32 → n.toNat = s.wb.length) ∧ Answers .wbAdd s
        { s with wb := s.wb ++ [{ handle := h1 ++ h0, priority := pr, type := ty, sp := s1 ++ s0, lenDsc := l1 ++ l0,
                                  vp := v1 ++ v0 }] } .ok n []) ∧
    Answers .wbClr s { s with wb := [] } .ok 0#32 []
end

