-- ==== Sys2Proof/Laws/Bytes.lean ====
section
/-! SUPPORT. Lemmas about big-endian byte strings and slices (Machine/Operands.lean). -/

namespace Sys2Proof.Machine

@[simp] theorem be_length (n v : Nat) : (be n v).length = n := by
  induction n with
  | zero => rfl
  | succ n ih => simp [be, ih]

theorem foldl_unBE (acc : Nat) (s : Bytes) :
    s.foldl (fun acc b => acc * 256 + b.toNat) acc = acc * 256 ^ s.length + unBE s := by
  unfold unBE
  induction s generalizing acc with
  | nil => simp
  | cons b s ih =>
    rw [List.foldl_cons, List.foldl_cons, ih, ih (0 * 256 + b.toNat), List.length_cons, pow_succ]
    ring

@[simp] theorem unBE_nil : unBE [] = 0 := rfl

theorem unBE_cons (b : Byte) (s : Bytes) : unBE (b :: s) = b.toNat * 256 ^ s.length + unBE s := by
  rw [unBE, List.foldl_cons, foldl_unBE]
  simp

theorem unBE_append (s t : Bytes) : unBE (s ++ t) = unBE s * 256 ^ t.length + unBE t := by
  rw [unBE, List.foldl_append, foldl_unBE]
  rfl

theorem unBE_lt (s : Bytes) : unBE s < 256 ^ s.length := by
  induction s with
  | nil => simp
  | cons b s ih =>
    have hb : b.toNat + 1 ≤ 256 := b.isLt
    rw [unBE_cons, List.length_cons, pow_succ]
    nlinarith [Nat.mul_le_mul_right (256 ^ s.length) hb]

/-- Reading back a big-endian string gives the value modulo its range. -/
theorem unBE_be (n v : Nat) : unBE (be n v) = v % 256 ^ n := by
  induction n with
  | zero => simp [be, Nat.mod_one]
  | succ n ih =>
    rw [be, unBE_cons, be_length, ih, BitVec.toNat_ofNat, pow_succ 256 n, Nat.mod_mul (a := 256 ^ n) (b := 256)]
    norm_num
    ring

/-- A byte string is the big-endian string of its value. -/
theorem be_unBE (s : Bytes) : be s.length (unBE s) = s := by
  have key : ∀ (n v w : Nat), be n (v * 256 ^ n + w) = be n w := by
    intro n
    induction n with
    | zero => intro v w; rfl
    | succ n ih =>
      intro v w
      have e : v * 256 ^ (n + 1) + w = (v * 256) * 256 ^ n + w := by ring
      rw [be, be, e, ih]
      congr 1
      apply BitVec.eq_of_toNat_eq
      rw [BitVec.toNat_ofNat, BitVec.toNat_ofNat, mul_comm, Nat.mul_add_div (by positivity)]
      simp [Nat.add_mod]
  induction s with
  | nil => rfl
  | cons b s ih =>
    rw [List.length_cons, be, unBE_cons, key, ih]
    congr 1
    apply BitVec.eq_of_toNat_eq
    rw [BitVec.toNat_ofNat, mul_comm, Nat.mul_add_div (by positivity), Nat.div_eq_of_lt (unBE_lt s)]
    simpa using b.isLt

theorem slice_length (s : Bytes) (a b : Nat) : (slice s a b).length = min (b - a) (s.length - a) := by
  simp [slice]

/-- The middle part of three. -/
theorem slice_append (p m t : Bytes) {a b : Nat} (ha : a = p.length) (hb : b = p.length + m.length) :
    slice (p ++ m ++ t) a b = m := by
  subst ha hb
  simp [slice]

theorem toNat_pair (hi lo : Byte) : (hi ++ lo : U16).toNat = hi.toNat * 256 + lo.toNat := by
  rw [BitVec.toNat_append, ← Nat.shiftLeft_add_eq_or_of_lt lo.isLt, Nat.shiftLeft_eq]

theorem half_cons (hi lo : Byte) (s : Bytes) : half (hi :: lo :: s) 0 = hi ++ lo := by
  have e : slice (hi :: lo :: s) 0 (0 + 2) = [hi, lo] := by simp [slice]
  have := (hi ++ lo : U16).isLt
  apply BitVec.eq_of_toNat_eq
  rw [half, e, BitVec.toNat_ofNat, toNat_pair] 
  rw [toNat_pair] at this
  simp only [unBE_cons, unBE_nil, List.length_cons, List.length_nil]
  omega

end Sys2Proof.Machine
end

