-- ==== Sys2Proof/Laws/Memory.lean ====
section
/-! SUPPORT. Byte stores: what a read gives after a write, and that every operation keeps the canonical form. -/

namespace Sys2Proof.Machine

theorem wf_nil : Memory.wf [] := ⟨List.Pairwise.nil, by simp⟩

theorem wf_tail {c : Host.Cell} {m : Memory} (h : Memory.wf (c :: m)) : Memory.wf m :=
  ⟨(List.pairwise_cons.1 h.1).2, fun d hd => h.2 d (List.mem_cons_of_mem _ hd)⟩

/-- An index below every listed one reads 0x00. -/
theorem memRead_of_lt {m : Memory} {a : Nat} (h : ∀ c ∈ m, a < c.1) : memRead m a = 0#8 := by
  induction m with
  | nil => rfl
  | cons c m ih =>
    have hc := h c (by simp)
    rw [memRead, if_neg (by omega), ih fun d hd => h d (by simp [hd])]

/-- Every cell after a write is an old one or the written one. -/
theorem mem_memWrite {m : Memory} {a : Nat} {b : Byte} {c : Host.Cell} (h : c ∈ memWrite m a b) :
    c ∈ m ∨ (c = (a, b) ∧ b ≠ 0#8) := by
  induction m with
  | nil =>
    unfold memWrite at h
    split at h
    · simp at h
    · rename_i hb
      exact .inr ⟨by simpa using h, hb⟩
  | cons d m ih =>
    unfold memWrite at h
    split at h
    · split at h
      · exact .inl h
      · rename_i hb
        rcases List.mem_cons.1 h with rfl | h
        · exact .inr ⟨rfl, hb⟩
        · exact .inl h
    · split at h
      · split at h
        · exact .inl (List.mem_cons_of_mem _ h)
        · rename_i hb
          rcases List.mem_cons.1 h with rfl | h
          · exact .inr ⟨rfl, hb⟩
          · exact .inl (List.mem_cons_of_mem _ h)
      · rcases List.mem_cons.1 h with rfl | h
        · exact .inl (by simp)
        · rcases ih h with h | h
          · exact .inl (List.mem_cons_of_mem _ h)
          · exact .inr h

/-- A write keeps the canonical form. -/
theorem memWrite_wf {m : Memory} (h : Memory.wf m) (a : Nat) (b : Byte) : Memory.wf (memWrite m a b) := by
  refine ⟨?_, fun c hc => ?_⟩
  · induction m with
    | nil =>
      unfold memWrite
      split <;> simp
    | cons d m ih =>
      obtain ⟨hd, hm⟩ := List.pairwise_cons.1 h.1
      unfold memWrite
      split
      · rename_i hlt
        split
        · exact h.1
        · refine List.pairwise_cons.2 ⟨fun c hc => ?_, h.1⟩
          rcases List.mem_cons.1 hc with rfl | hc
          · exact hlt
          · exact lt_trans hlt (hd c hc)
      · split
        · rename_i heq
          split
          · exact hm
          · exact List.pairwise_cons.2 ⟨fun c hc => by simpa [heq] using hd c hc, hm⟩
        · rename_i hnlt hne
          refine List.pairwise_cons.2 ⟨fun c hc => ?_, ih (wf_tail h)⟩
          rcases mem_memWrite hc with hc | ⟨rfl, -⟩
          · exact hd c hc
          · simp only
            omega
  · rcases mem_memWrite hc with hc | ⟨rfl, hb⟩
    · exact h.2 c hc
    · exact hb

/-- A write changes the byte it writes and no other. -/
theorem memRead_memWrite {m : Memory} (h : Memory.wf m) (a : Nat) (b : Byte) (x : Nat) :
    memRead (memWrite m a b) x = if x = a then b else memRead m x := by
  induction m with
  | nil =>
    unfold memWrite
    by_cases hb : b = 0#8
    · subst hb
      simp [memRead]
    · by_cases hx : x = a
      · subst hx
        simp [hb, memRead]
      · simp [hb, memRead, hx, Ne.symm hx]
  | cons c m ih =>
    obtain ⟨hc, -⟩ := List.pairwise_cons.1 h.1
    have hmc : memRead m c.1 = 0#8 := memRead_of_lt hc
    unfold memWrite
    split
    · rename_i hlt
      have hbelow : memRead (c :: m) a = 0#8 :=
        memRead_of_lt fun d hd => by
          rcases List.mem_cons.1 hd with rfl | hd
          · exact hlt
          · exact lt_trans hlt (hc d hd)
      by_cases hx : x = a
      · subst hx
        by_cases hb : b = 0#8
        · rw [if_pos hb, if_pos rfl, hbelow, hb]
        · rw [if_neg hb, if_pos rfl, memRead, if_pos rfl]
      · by_cases hb : b = 0#8
        · rw [if_pos hb, if_neg hx]
        · rw [if_neg hb, if_neg hx, memRead, if_neg (fun e => hx e.symm)]
    · split
      · rename_i hnlt heq
        by_cases hx : x = a
        · subst hx
          by_cases hb : b = 0#8
          · rw [if_pos hb, if_pos rfl, hb, heq, hmc]
          · rw [if_neg hb, if_pos rfl, memRead, if_pos rfl]
        · have hxc : c.1 ≠ x := fun e => hx (e.symm.trans heq.symm)
          by_cases hb : b = 0#8
          · rw [if_pos hb, if_neg hx, memRead, if_neg hxc]
          · rw [if_neg hb, if_neg hx, memRead, if_neg (fun e => hx e.symm), memRead, if_neg hxc]
      · rename_i hnlt hne
        rw [memRead, memRead, ih (wf_tail h)]
        by_cases hxc : c.1 = x
        · have : x ≠ a := fun e => hne (e.symm.trans hxc.symm)
          rw [if_pos hxc, if_neg this, if_pos hxc]
        · rw [if_neg hxc, if_neg hxc]

/-- Two canonical stores that read alike are equal. -/
theorem memory_ext {m n : Memory} (hm : Memory.wf m) (hn : Memory.wf n) (h : ∀ a, memRead m a = memRead n a) : m = n := by
  induction m generalizing n with
  | nil =>
    cases n with
    | nil => rfl
    | cons c n =>
      have := h c.1
      simp only [memRead, if_true] at this
      exact absurd this.symm (hn.2 c (by simp))
  | cons c m ih =>
    have hcm := (List.pairwise_cons.1 hm.1).1
    cases n with
    | nil =>
      have := h c.1
      simp only [memRead, if_true] at this
      exact absurd this (hm.2 c (by simp))
    | cons d n =>
      have hdn := (List.pairwise_cons.1 hn.1).1
      have key : c.1 = d.1 := by
        rcases lt_trichotomy c.1 d.1 with hlt | heq | hlt
        · have h1 := h c.1
          rw [memRead_of_lt (m := d :: n) (a := c.1) (fun e he => by
            rcases List.mem_cons.1 he with rfl | he
            · exact hlt
            · exact lt_trans hlt (hdn e he))] at h1
          simp only [memRead, if_true] at h1
          exact absurd h1 (hm.2 c (by simp))
        · exact heq
        · have h1 := h d.1
          rw [memRead_of_lt (m := c :: m) (a := d.1) (fun e he => by
            rcases List.mem_cons.1 he with rfl | he
            · exact hlt
            · exact lt_trans hlt (hcm e he))] at h1
          simp only [memRead, if_true] at h1
          exact absurd h1.symm (hn.2 d (by simp))
      have hv : c.2 = d.2 := by
        have := h c.1
        simpa [memRead, key] using this
      have hcd : c = d := Prod.ext key hv
      subst hcd
      rw [ih (wf_tail hm) (wf_tail hn) fun a => ?_]
      by_cases ha : c.1 = a
      · subst ha
        rw [memRead_of_lt hcm, memRead_of_lt hdn]
      · have := h a
        simpa only [memRead, if_neg ha] using this

/-! ## Byte strings -/

@[simp] theorem memReadBytes_length (m : Memory) (a n : Nat) : (memReadBytes m a n).length = n := by
  induction n generalizing a with
  | zero => rfl
  | succ n ih => simp [memReadBytes, ih]

theorem memReadBytes_congr {m m' : Memory} {a n : Nat} (h : ∀ x, a ≤ x → x < a + n → memRead m x = memRead m' x) :
    memReadBytes m a n = memReadBytes m' a n := by
  induction n generalizing a with
  | zero => rfl
  | succ n ih =>
    rw [memReadBytes, memReadBytes, h a (le_refl a) (by omega), ih fun x h1 h2 => h x (by omega) (by omega)]

theorem memWriteBytes_wf {m : Memory} (h : Memory.wf m) (a : Nat) (d : Bytes) : Memory.wf (memWriteBytes m a d) := by
  induction d generalizing m a with
  | nil => exact h
  | cons b d ih => exact ih (memWrite_wf h a b) (a + 1)

/-- What a byte-string write does, said once: the written bytes lie from `a` on, every other byte is as before. -/
theorem memRead_memWriteBytes {m : Memory} (h : Memory.wf m) (a : Nat) (d : Bytes) (x : Nat) :
    memRead (memWriteBytes m a d) x = if a ≤ x ∧ x < a + d.length then d.getD (x - a) 0#8 else memRead m x := by
  induction d generalizing m a with
  | nil => simp [memWriteBytes]
  | cons b d ih =>
    rw [memWriteBytes, ih (memWrite_wf h a b), memRead_memWrite h]
    rcases lt_trichotomy x a with hx | rfl | hx
    · simp only [List.length_cons]
      rw [if_neg (by omega), if_neg (by omega), if_neg (by omega)]
    · simp
    · simp only [List.length_cons]
      by_cases hlt : x < a + 1 + d.length
      · rw [if_pos (by omega), if_pos (by omega), show x - a = (x - (a + 1)) + 1 by omega, List.getD_cons_succ]
      · rw [if_neg (by omega), if_neg (by omega), if_neg (by omega)]

/-- A byte string is read back from where it was written. -/
theorem memReadBytes_memWriteBytes {m : Memory} (h : Memory.wf m) (a : Nat) (d : Bytes) :
    memReadBytes (memWriteBytes m a d) a d.length = d := by
  induction d generalizing m a with
  | nil => rfl
  | cons b d ih =>
    rw [List.length_cons, memReadBytes, memWriteBytes, ih (memWrite_wf h a b),
      memRead_memWriteBytes (memWrite_wf h a b), memRead_memWrite h]
    simp

/-- Every cell after a byte-string write is an old one or lies in the written range. -/
theorem mem_memWriteBytes {m : Memory} {a : Nat} {d : Bytes} {c : Host.Cell} (h : c ∈ memWriteBytes m a d) :
    c ∈ m ∨ (a ≤ c.1 ∧ c.1 < a + d.length) := by
  induction d generalizing m a with
  | nil => exact .inl h
  | cons b d ih =>
    rcases ih h with h | h
    · rcases mem_memWrite h with h | ⟨rfl, -⟩
      · exact .inl h
      · exact .inr ⟨le_refl _, by simp⟩
    · exact .inr ⟨by omega, by simp; omega⟩

/-! ## The register file -/

theorem rfStoreFrom_wf {m : Memory} (h : Memory.wf m) (a : Nat) (d : Bytes) : Memory.wf (rfStoreFrom m a d) := by
  induction d generalizing m a with
  | nil => exact h
  | cons b d ih =>
    refine ih ?_ (a + 1)
    split
    · exact memWrite_wf h a b
    · exact h

theorem rfStore_wf {m : Memory} (h : Memory.wf m) (r : U16) (d : Bytes) : Memory.wf (rfStore m r d) :=
  rfStoreFrom_wf h _ d

theorem rfWrite_wf {m : Memory} (h : Memory.wf m) (r v : U16) : Memory.wf (rfWrite m r v) :=
  memWrite_wf (memWrite_wf h _ _) _ _

/-- What RFStore does, said once: data bytes below the top are stored from byte 2R on, every other byte is as before. -/
theorem memRead_rfStoreFrom {m : Memory} (h : Memory.wf m) (a : Nat) (d : Bytes) (x : Nat) :
    memRead (rfStoreFrom m a d) x =
      if a ≤ x ∧ x < a + d.length ∧ x < rfBytes then d.getD (x - a) 0#8 else memRead m x := by
  induction d generalizing m a with
  | nil => simp only [rfStoreFrom, List.length_nil, Nat.add_zero]; rw [if_neg (by omega)]
  | cons b d ih =>
    rw [rfStoreFrom]
    by_cases ha : a < rfBytes
    · rw [if_pos ha, ih (memWrite_wf h a b), memRead_memWrite h]
      rcases lt_trichotomy x a with hx | rfl | hx
      · simp only [List.length_cons]
        rw [if_neg (by omega), if_neg (by omega), if_neg (by omega)]
      · simp [ha]
      · simp only [List.length_cons]
        by_cases hlt : x < a + 1 + d.length ∧ x < rfBytes
        · rw [if_pos (by omega), if_pos (by omega), show x - a = (x - (a + 1)) + 1 by omega, List.getD_cons_succ]
        · rw [if_neg (by omega), if_neg (by omega), if_neg (by omega)]
    · rw [if_neg ha, ih h]
      simp only [List.length_cons]
      rw [if_neg (by omega), if_neg (by omega)]

/-- Every cell after RFStore is an old one or lies within RF. -/
theorem mem_rfStoreFrom {m : Memory} {a : Nat} {d : Bytes} {c : Host.Cell} (h : c ∈ rfStoreFrom m a d) :
    c ∈ m ∨ c.1 < rfBytes := by
  induction d generalizing m a with
  | nil => exact .inl h
  | cons b d ih =>
    rcases ih h with h | h
    · split at h
      · rcases mem_memWrite h with h | ⟨rfl, -⟩
        · exact .inl h
        · exact .inr (by assumption)
      · exact .inl h
    · exact .inr h

/-- What RFWrite does, said once. -/
theorem rfRead_rfWrite {m : Memory} (h : Memory.wf m) (r v r' : U16) :
    rfRead (rfWrite m r v) r' = if r' = r then v else rfRead m r' := by
  unfold rfRead rfWrite
  simp only [memRead_memWrite (memWrite_wf h _ _), memRead_memWrite h]
  by_cases hr : r' = r
  · subst hr
    simp only [if_true]
    rw [if_neg (by omega)]
    ext i hi
    simp only [BitVec.getElem_append, BitVec.getElem_extractLsb']
    split
    · simp [BitVec.getLsbD_eq_getElem hi]
    · rw [← BitVec.getLsbD_eq_getElem]
      congr 1
      omega
  · have hn : r'.toNat ≠ r.toNat := fun e => hr (BitVec.eq_of_toNat_eq e)
    rw [if_neg hr, if_neg (by omega), if_neg (by omega), if_neg (by omega), if_neg (by omega)]

end Sys2Proof.Machine
end

