-- ==== Sys2Proof/Laws/State.lean ====
section
/-! SUPPORT. One lemma per field per update of the state: `record`, `emit`, `State.withQueue`. -/

namespace Sys2Proof.Machine

section record
variable (s : State) (r : Res) (a : U32) (d : Bytes)
@[simp] theorem record_params : (record s r a d).params = s.params := rfl
@[simp] theorem record_rxq : (record s r a d).rxq = s.rxq := rfl
@[simp] theorem record_txq : (record s r a d).txq = s.txq := rfl
@[simp] theorem record_crcAcc : (record s r a d).crcAcc = s.crcAcc := rfl
@[simp] theorem record_crcEn : (record s r a d).crcEn = s.crcEn := rfl
@[simp] theorem record_hdl : (record s r a d).hdl = s.hdl := rfl
@[simp] theorem record_rf : (record s r a d).rf = s.rf := rfl
@[simp] theorem record_wb : (record s r a d).wb = s.wb := rfl
@[simp] theorem record_tgt : (record s r a d).tgt = s.tgt := rfl
@[simp] theorem record_evt : (record s r a d).evt = s.evt := rfl
@[simp] theorem record_fault : (record s r a d).fault = s.fault := rfl
@[simp] theorem record_port : (record s r a d).port = s.port := rfl
@[simp] theorem record_din : (record s r a d).din = s.din := rfl
@[simp] theorem record_outs : (record s r a d).outs = s.outs ++ [⟨r, a, d⟩] := rfl
@[simp] theorem record_queue (q : QueueId) : (record s r a d).queue q = s.queue q := by cases q <;> rfl
end record

section emit
variable (s : State) (es : List Event)
@[simp] theorem emit_params : (emit s es).params = s.params := rfl
@[simp] theorem emit_rxq : (emit s es).rxq = s.rxq := rfl
@[simp] theorem emit_txq : (emit s es).txq = s.txq := rfl
@[simp] theorem emit_crcAcc : (emit s es).crcAcc = s.crcAcc := rfl
@[simp] theorem emit_crcEn : (emit s es).crcEn = s.crcEn := rfl
@[simp] theorem emit_hdl : (emit s es).hdl = s.hdl := rfl
@[simp] theorem emit_rf : (emit s es).rf = s.rf := rfl
@[simp] theorem emit_wb : (emit s es).wb = s.wb := rfl
@[simp] theorem emit_tgt : (emit s es).tgt = s.tgt := rfl
@[simp] theorem emit_evt : (emit s es).evt = s.evt ++ es := rfl
@[simp] theorem emit_fault : (emit s es).fault = s.fault := rfl
@[simp] theorem emit_port : (emit s es).port = s.port := rfl
@[simp] theorem emit_din : (emit s es).din = s.din := rfl
@[simp] theorem emit_outs : (emit s es).outs = s.outs := rfl
end emit

section withQueue
variable (s : State) (q : QueueId) (x : QState)
@[simp] theorem withQueue_params : (s.withQueue q x).params = s.params := by cases q <;> rfl
@[simp] theorem withQueue_crcAcc : (s.withQueue q x).crcAcc = s.crcAcc := by cases q <;> rfl
@[simp] theorem withQueue_crcEn : (s.withQueue q x).crcEn = s.crcEn := by cases q <;> rfl
@[simp] theorem withQueue_hdl : (s.withQueue q x).hdl = s.hdl := by cases q <;> rfl
@[simp] theorem withQueue_rf : (s.withQueue q x).rf = s.rf := by cases q <;> rfl
@[simp] theorem withQueue_wb : (s.withQueue q x).wb = s.wb := by cases q <;> rfl
@[simp] theorem withQueue_tgt : (s.withQueue q x).tgt = s.tgt := by cases q <;> rfl
@[simp] theorem withQueue_evt : (s.withQueue q x).evt = s.evt := by cases q <;> rfl
@[simp] theorem withQueue_fault : (s.withQueue q x).fault = s.fault := by cases q <;> rfl
@[simp] theorem withQueue_port : (s.withQueue q x).port = s.port := by cases q <;> rfl
@[simp] theorem withQueue_din : (s.withQueue q x).din = s.din := by cases q <;> rfl
@[simp] theorem withQueue_outs : (s.withQueue q x).outs = s.outs := by cases q <;> rfl
@[simp] theorem withQueue_rx : s.withQueue .rx x = { s with rxq := x } := rfl
@[simp] theorem withQueue_tx : s.withQueue .tx x = { s with txq := x } := rfl
@[simp] theorem queue_rx : s.queue .rx = s.rxq := rfl
@[simp] theorem queue_tx : s.queue .tx = s.txq := rfl
@[simp] theorem queue_withQueue : (s.withQueue q x).queue q = x := by cases q <;> rfl
@[simp] theorem withQueue_withQueue (y : QState) : (s.withQueue q x).withQueue q y = s.withQueue q y := by
  cases q <;> rfl
@[simp] theorem withQueue_queue : s.withQueue q (s.queue q) = s := by cases q <;> rfl
theorem queue_withQueue_of_ne (q' : QueueId) (h : q' ≠ q) : (s.withQueue q x).queue q' = s.queue q' := by
  cases q <;> cases q' <;> first | rfl | exact absurd rfl h
end withQueue

section answers
variable (s : State) (r : Res) (a : U32) (d : Bytes)
@[simp] theorem answer_st : (answer s r a d).st = s := rfl
@[simp] theorem answer_res : (answer s r a d).res = r := rfl
@[simp] theorem answer_aux : (answer s r a d).aux = a := rfl
@[simp] theorem answer_dout : (answer s r a d).dout = d := rfl
theorem answerFail_eq : answerFail s = answer s .fail 0#32 [] := rfl
@[simp] theorem finish_answer : finish (answer s r a d) = .next (record s r a d) := rfl
@[simp] theorem settle_returned (x : Reply) : settle (.returned x) = finish x := rfl
@[simp] theorem settle_faulted (f : ModelFault) :
    settle (.faulted s f) = .next (record { s with fault := some f } .fail (faultCode f) []) := rfl
@[simp] theorem rejectWord_eq : rejectWord s = .next (record s .fail auxIllegal []) := rfl
end answers

/-- A command whose ending is a return takes the state it leaves with one output more. -/
theorem finish_eq (x : Reply) : finish x = .next (record x.st x.res x.aux x.dout) := rfl

/-- Every ending of a command is a next state. -/
theorem settle_next (e : CmdEnd) : ∃ t, settle e = .next t := by
  cases e <;> exact ⟨_, rfl⟩

/-- What `onQueue` can do: the preamble's FAIL on an unconfigured queue, the command's own reply on a configured one. -/
theorem onQueue_cases (s : State) (q : QueueId) (k : QState → Reply) :
    ((s.queue q).cfg = false ∧ onQueue s q k = answer s .fail 0#32 []) ∨
      ((s.queue q).cfg = true ∧ onQueue s q k = k (s.queue q)) := by
  unfold onQueue
  cases h : (s.queue q).cfg
  · exact .inl ⟨rfl, rfl⟩
  · exact .inr ⟨rfl, rfl⟩

@[simp] theorem auxOfCount_small {n : Nat} (h : n < 2 ^ 32) : auxOfCount n = BitVec.ofNat 32 n := if_pos h

end Sys2Proof.Machine
end

