-- ==== Sys2Proof/Laws/Queue.lean ====
section
/-! SUPPORT. Queues as first-in first-out lists: what a push, a removal and a send do to the view, and that each keeps the
queue's shape. -/

namespace Sys2Proof.Machine

theorem SameSetup.rfl' (x : QState) : SameSetup x x := ⟨rfl, rfl, rfl, rfl, rfl⟩

theorem SameSetup.trans {x y z : QState} (h : SameSetup x y) (k : SameSetup y z) : SameSetup x z :=
  ⟨k.1.trans h.1, k.2.1.trans h.2.1, k.2.2.1.trans h.2.2.1, k.2.2.2.1.trans h.2.2.2.1, k.2.2.2.2.trans h.2.2.2.2⟩

@[simp] theorem view_length (x : QState) : (view x).length = x.cnt.toNat := by simp [view]

theorem view_getElem (x : QState) (o : Nat) (h : o < (view x).length) : (view x)[o] = viewAt x o := by
  simp [view]

@[simp] theorem elemAt_length (x : QState) (i : Nat) : (elemAt x i).length = x.isz.toNat := by simp [elemAt]

theorem toNat_advBy {x : QState} (h : 1 ≤ x.maxc.toNat) (i : U16) (n : Nat) :
    (advBy x i n).toNat = (i.toNat + n) % x.maxc.toNat := by
  unfold advBy
  rw [BitVec.toNat_ofNat, Nat.mod_eq_of_lt]
  exact lt_trans (Nat.mod_lt _ h) x.maxc.isLt

/-! ## Removal -/

theorem dropElems_setup (x : QState) (n : Nat) : SameSetup x (dropElems x n) := ⟨rfl, rfl, rfl, rfl, rfl⟩

@[simp] theorem dropElems_ram (x : QState) (n : Nat) : (dropElems x n).ram = x.ram := rfl

theorem dropElems_cnt {x : QState} {n : Nat} (h : n ≤ x.cnt.toNat) : (dropElems x n).cnt.toNat = x.cnt.toNat - n := by
  have := x.cnt.isLt
  simp only [dropElems, BitVec.toNat_sub, BitVec.toNat_ofNat]
  omega

theorem dropElems_shape {bytes : Nat} {x : QState} (h : RingShape bytes x) {n : Nat} (hn : n ≤ x.cnt.toNat) :
    RingShape bytes (dropElems x n) := by
  obtain ⟨h1, h2, h3, h4, h5, h6, h7⟩ := h
  have ht : (dropElems x n).tail.toNat = (x.tail.toNat + n) % x.maxc.toNat := toNat_advBy h2 _ _
  have hc := dropElems_cnt hn
  refine ⟨h1, h2, h3, ?_, h5, ?_, ?_⟩
  · rw [hc]
    exact le_trans (Nat.sub_le _ _) h4
  · rw [ht]
    exact Nat.mod_lt _ h2
  · show x.head.toNat = _ % x.maxc.toNat
    rw [ht, hc, Nat.mod_add_mod, show x.tail.toNat + n + (x.cnt.toNat - n) = x.tail.toNat + x.cnt.toNat by omega]
    exact h7

/-- Removing `n` elements removes the `n` oldest. -/
theorem view_dropElems {bytes : Nat} {x : QState} (h : RingShape bytes x) {n : Nat} (hn : n ≤ x.cnt.toNat) :
    view (dropElems x n) = (view x).drop n := by
  apply List.ext_getElem
  · simp [dropElems_cnt hn]
  · intro o h1 h2
    rw [view_getElem, List.getElem_drop, view_getElem]
    unfold viewAt
    rw [show (dropElems x n).tail.toNat = (x.tail.toNat + n) % x.maxc.toNat from toNat_advBy h.2.1 _ _]
    show elemAt x (((x.tail.toNat + n) % x.maxc.toNat + o) % x.maxc.toNat) = _
    rw [Nat.mod_add_mod, Nat.add_assoc]

/-! ## Push -/

theorem pushElem_setup (x : QState) (item : Bytes) : SameSetup x (pushElem x item) := by
  unfold pushElem
  split <;> exact ⟨rfl, rfl, rfl, rfl, rfl⟩

@[simp] theorem pushElem_ram (x : QState) (item : Bytes) :
    (pushElem x item).ram = memWriteBytes x.ram (x.head.toNat * x.isz.toNat) item := by
  unfold pushElem
  split <;> rfl

@[simp] theorem pushElem_head (x : QState) (item : Bytes) : (pushElem x item).head = advBy x x.head 1 := by
  unfold pushElem
  split <;> rfl

theorem pushElem_tail (x : QState) (item : Bytes) :
    (pushElem x item).tail = if x.cnt = x.maxc then advBy x x.tail 1 else x.tail := by
  unfold pushElem
  split <;> rfl

theorem pushElem_cnt {bytes : Nat} {x : QState} (h : RingShape bytes x) (item : Bytes) :
    (pushElem x item).cnt.toNat = if x.cnt = x.maxc then x.cnt.toNat else x.cnt.toNat + 1 := by
  have h4 := h.2.2.2.1
  have := x.maxc.isLt
  unfold pushElem
  split
  · rfl
  · rename_i hne
    have hlt : x.cnt.toNat ≠ x.maxc.toNat := fun e => hne (BitVec.eq_of_toNat_eq e)
    show (x.cnt + 1#16).toNat = _
    simp only [BitVec.toNat_add, BitVec.toNat_ofNat]
    omega

theorem pushElem_shape {bytes : Nat} {x : QState} (h : RingShape bytes x) (item : Bytes) :
    RingShape bytes (pushElem x item) := by
  obtain ⟨-, hisz, hmaxc, -, -⟩ := pushElem_setup x item
  have hcnt := pushElem_cnt h item
  have htail := pushElem_tail x item
  obtain ⟨h1, h2, h3, h4, h5, h6, h7⟩ := h
  have hhead : (pushElem x item).head.toNat = (x.head.toNat + 1) % x.maxc.toNat := by
    rw [pushElem_head, toNat_advBy h2]
  refine ⟨by rw [hisz]; exact h1, by rw [hmaxc]; exact h2, by rw [hisz, hmaxc]; exact h3, ?_, ?_, ?_, ?_⟩
  · rw [hmaxc, hcnt]
    split
    · exact h4
    · rename_i hne
      have : x.cnt.toNat ≠ x.maxc.toNat := fun e => hne (BitVec.eq_of_toNat_eq e)
      omega
  · rw [hmaxc, hhead]
    exact Nat.mod_lt _ h2
  · rw [hmaxc, htail]
    split
    · rw [toNat_advBy h2]
      exact Nat.mod_lt _ h2
    · exact h6
  · rw [hmaxc, hcnt, htail, hhead]
    split
    · rw [toNat_advBy h2, Nat.mod_add_mod, h7, Nat.mod_add_mod]
      congr 1
      omega
    · rw [h7, Nat.mod_add_mod]
      congr 1

/-- Pushing writes the element at HEAD and no other. -/
theorem elemAt_pushElem {x : QState} (hw : Memory.wf x.ram) {item : Bytes}
    (hi : item.length = x.isz.toNat) (i : Nat) :
    elemAt (pushElem x item) i = if i = x.head.toNat then item else elemAt x i := by
  obtain ⟨-, hisz, -, -, -⟩ := pushElem_setup x item
  unfold elemAt
  rw [hisz, pushElem_ram]
  split
  · rename_i he
    rw [he, ← hi]
    exact memReadBytes_memWriteBytes hw _ _
  · rename_i hne
    refine memReadBytes_congr fun a h1 h2 => ?_
    rw [memRead_memWriteBytes hw, if_neg]
    rintro ⟨h3, h4⟩
    rw [hi] at h4
    rcases Nat.lt_or_gt_of_ne hne with hlt | hgt
    · have : (i + 1) * x.isz.toNat ≤ x.head.toNat * x.isz.toNat := Nat.mul_le_mul_right _ hlt
      rw [Nat.add_mul, Nat.one_mul] at this
      omega
    · have : (x.head.toNat + 1) * x.isz.toNat ≤ i * x.isz.toNat := Nat.mul_le_mul_right _ hgt
      rw [Nat.add_mul, Nat.one_mul] at this
      omega

/-- A position less than MAXC beyond the tail is no other such position, modulo MAXC. -/
theorem ring_index_ne {t a b m : Nat} (ha : a < m) (hb : b < m) (h : a ≠ b) : (t + a) % m ≠ (t + b) % m := by
  intro e
  exact h (Nat.ModEq.eq_of_lt_of_lt (Nat.ModEq.add_left_cancel' t e) ha hb)

/-- A push appends the item, and on a full queue removes the oldest element. -/
theorem view_pushElem {bytes : Nat} {x : QState} (h : RingShape bytes x) (hw : Memory.wf x.ram) {item : Bytes}
    (hi : item.length = x.isz.toNat) :
    view (pushElem x item) = (view x ++ [item]).drop (if x.cnt = x.maxc then 1 else 0) := by
  have hcnt := pushElem_cnt h item
  have htail := pushElem_tail x item
  obtain ⟨-, -, hmaxc, -, -⟩ := pushElem_setup x item
  have hel := elemAt_pushElem hw hi
  obtain ⟨h1, h2, h3, h4, h5, h6, h7⟩ := h
  apply List.ext_getElem
  · simp only [view_length, List.length_drop, List.length_append, List.length_singleton, hcnt]
    split
    · rename_i he
      have := congrArg BitVec.toNat he
      omega
    · omega
  · intro o ho1 ho2
    rw [view_length, hcnt] at ho1
    rw [view_getElem, List.getElem_drop]
    unfold viewAt
    rw [hmaxc, hel, htail, h7]
    by_cases hf : x.cnt = x.maxc
    · rw [if_pos hf] at ho1
      have hfn : x.cnt.toNat = x.maxc.toNat := congrArg BitVec.toNat hf
      simp only [if_pos hf]
      rw [toNat_advBy h2, Nat.mod_add_mod]
      by_cases hlast : o + 1 = x.cnt.toNat
      · rw [if_pos (by rw [show x.tail.toNat + 1 + o = x.tail.toNat + x.cnt.toNat by omega]),
          List.getElem_append_right (by simp; omega)]
        simp [show 1 + o - x.cnt.toNat = 0 by omega]
      · have hne : (x.tail.toNat + 1 + o) % x.maxc.toNat ≠ (x.tail.toNat + x.cnt.toNat) % x.maxc.toNat := by
          rw [hfn, Nat.add_mod_right, show x.tail.toNat + 1 + o = x.tail.toNat + (o + 1) by omega]
          have := ring_index_ne (t := x.tail.toNat) (a := o + 1) (b := 0) (m := x.maxc.toNat) (by omega) (by omega)
            (by omega)
          simpa using this
        rw [if_neg hne, List.getElem_append_left (by simp; omega), view_getElem]
        unfold viewAt
        rw [show x.tail.toNat + 1 + o = x.tail.toNat + (1 + o) by omega]
    · rw [if_neg hf] at ho1
      have hfn : x.cnt.toNat ≠ x.maxc.toNat := fun e => hf (BitVec.eq_of_toNat_eq e)
      simp only [if_neg hf, Nat.zero_add]
      by_cases hlast : o = x.cnt.toNat
      · rw [if_pos (by rw [hlast]), List.getElem_append_right (by simp; omega)]
        simp [hlast]
      · rw [if_neg (ring_index_ne (by omega) (by omega) hlast), List.getElem_append_left (by simp; omega), view_getElem]
        rfl

/-- The elements of a queue's RAM after a push lie where RAM is. -/
theorem pushElem_bounds {bytes : Nat} {x : QState} (h : RingShape bytes x) {item : Bytes}
    (hi : item.length = x.isz.toNat) (hb : ∀ c ∈ x.ram, c.1 < bytes) : ∀ c ∈ (pushElem x item).ram, c.1 < bytes := by
  obtain ⟨h1, h2, h3, h4, h5, h6, h7⟩ := h
  intro c hc
  rw [pushElem_ram] at hc
  rcases mem_memWriteBytes hc with hc | ⟨-, hc⟩
  · exact hb c hc
  · have : (x.head.toNat + 1) * x.isz.toNat ≤ x.maxc.toNat * x.isz.toNat := Nat.mul_le_mul_right _ h5
    rw [Nat.add_mul, Nat.one_mul] at this
    omega

/-! ## Sending bytes -/

/-- What sending bytes does to a queue of one-byte elements, said once: the shape and the setup stay, the bytes are
appended in order, and what does not fit is removed from the oldest on. -/
theorem pushBytes_spec {bytes : Nat} {x : QState} (h : RingShape bytes x) (hw : Memory.wf x.ram)
    (hb : ∀ c ∈ x.ram, c.1 < bytes) (h1 : x.isz = 1#16) (d : Bytes) :
    RingShape bytes (pushBytes x d) ∧ Memory.wf (pushBytes x d).ram ∧ (∀ c ∈ (pushBytes x d).ram, c.1 < bytes) ∧
      SameSetup x (pushBytes x d) ∧
      view (pushBytes x d) = (view x ++ d.map fun b => [b]).drop (x.cnt.toNat + d.length - x.maxc.toNat) := by
  induction d generalizing x with
  | nil =>
    refine ⟨h, hw, hb, SameSetup.rfl' x, ?_⟩
    have := h.2.2.2.1
    simp [pushBytes, Nat.sub_eq_zero_of_le this]
  | cons b d ih =>
    have hi : [b].length = x.isz.toNat := by simp [h1]
    have hset := pushElem_setup x [b]
    have hw' : Memory.wf (pushElem x [b]).ram := by
      rw [pushElem_ram]
      exact memWriteBytes_wf hw _ _
    obtain ⟨i1, i2, i3, i4, i5⟩ := ih (pushElem_shape h [b]) hw' (pushElem_bounds h hi hb) (hset.2.1.trans h1)
    refine ⟨i1, i2, i3, hset.trans i4, ?_⟩
    have hle := h.2.2.2.1
    rw [pushBytes, i5, view_pushElem h hw hi, pushElem_cnt h, hset.2.2.1]
    by_cases hf : x.cnt = x.maxc
    · have hfn : x.cnt.toNat = x.maxc.toNat := congrArg BitVec.toNat hf
      simp only [if_pos hf]
      rw [← List.drop_append_of_le_length (by simp), List.drop_drop, List.append_assoc]
      simp only [List.map_cons, List.singleton_append, List.length_cons]
      congr 1
      omega
    · have hfn : x.cnt.toNat ≠ x.maxc.toNat := fun e => hf (BitVec.eq_of_toNat_eq e)
      simp only [if_neg hf, List.drop_zero]
      rw [List.append_assoc]
      simp only [List.map_cons, List.singleton_append, List.length_cons]
      congr 1
      omega

end Sys2Proof.Machine
end

