-- ==== Sys2Proof/Laws/Codec.lean ====
section
/-! SUPPORT. What the shared operations of the codec and the registry can do, each said once: Q.POPV's loop, sending, the
register operations, the handler, CDC.RECV. -/

namespace Sys2Proof.Machine

/-! ## Removals from a queue -/

/-- Two removals are one. -/
theorem dropElems_dropElems (x : QState) (a b : Nat) : dropElems (dropElems x a) b = dropElems x (a + b) := by
  have hm := x.maxc.isLt
  have ht : advBy (dropElems x a) (advBy x x.tail a) b = advBy x x.tail (a + b) := by
    apply BitVec.eq_of_toNat_eq
    simp only [advBy, dropElems, BitVec.toNat_ofNat]
    rcases Nat.eq_zero_or_pos x.maxc.toNat with h | h
    · rw [h]
      simp only [Nat.mod_zero]
      omega
    · have h1 := Nat.mod_lt (x.tail.toNat + a) h
      rw [Nat.mod_eq_of_lt (a := (x.tail.toNat + a) % x.maxc.toNat) (by omega), Nat.mod_add_mod, Nat.add_assoc]
  have hc : x.cnt - BitVec.ofNat 16 a - BitVec.ofNat 16 b = x.cnt - BitVec.ofNat 16 (a + b) := by
    rw [BitVec.ofNat_add]
    bv_omega
  unfold dropElems at *
  simp only [ht, hc]

/-- `t` is `s` with at most CNT oldest elements of queue q removed, and nothing else changed. -/
def Removed (q : QueueId) (s t : State) (n : Nat) : Prop :=
  n ≤ (s.queue q).cnt.toNat ∧ ((n = 0 ∧ t = s) ∨ (1 ≤ n ∧ t = s.withQueue q (dropElems (s.queue q) n)))

theorem Removed.zero (q : QueueId) (s : State) : Removed q s s 0 := ⟨Nat.zero_le _, .inl ⟨rfl, rfl⟩⟩

theorem Removed.cnt {q : QueueId} {s t : State} {n : Nat} (h : Removed q s t n) :
    (t.queue q).cnt.toNat + n = (s.queue q).cnt.toNat := by
  obtain ⟨hn, ⟨rfl, rfl⟩ | ⟨h1, rfl⟩⟩ := h
  · rfl
  · rw [queue_withQueue, dropElems_cnt hn]
    omega

theorem Removed.setup {q : QueueId} {s t : State} {n : Nat} (h : Removed q s t n) :
    SameSetup (s.queue q) (t.queue q) ∧ (t.queue q).ram = (s.queue q).ram ∧ (t.queue q).head = (s.queue q).head := by
  obtain ⟨hn, ⟨rfl, rfl⟩ | ⟨h1, rfl⟩⟩ := h
  · exact ⟨SameSetup.rfl' _, rfl, rfl⟩
  · rw [queue_withQueue]
    exact ⟨dropElems_setup _ _, rfl, rfl⟩

/-- The state after a removal is the old one with another queue state. -/
theorem Removed.eq {q : QueueId} {s t : State} {n : Nat} (h : Removed q s t n) : t = s.withQueue q (t.queue q) := by
  obtain ⟨hn, ⟨rfl, rfl⟩ | ⟨h1, rfl⟩⟩ := h <;> simp

theorem Removed.step {q : QueueId} {s t : State} {n m : Nat} (h : 1 ≤ m) (hm : m ≤ (s.queue q).cnt.toNat)
    (k : Removed q (s.withQueue q (dropElems (s.queue q) m)) t n) : Removed q s t (m + n) := by
  obtain ⟨hn, ⟨rfl, rfl⟩ | ⟨h1, rfl⟩⟩ := k
  · exact ⟨hm, .inr ⟨by omega, rfl⟩⟩
  · rw [queue_withQueue, dropElems_cnt hm] at hn
    exact ⟨by omega, .inr ⟨by omega, by rw [queue_withQueue, withQueue_withQueue, dropElems_dropElems]⟩⟩

theorem Removed.view {q : QueueId} {s t : State} {n bytes : Nat} (hs : RingShape bytes (s.queue q))
    (h : Removed q s t n) : RingShape bytes (t.queue q) ∧ view (t.queue q) = (view (s.queue q)).drop n := by
  obtain ⟨hn, ⟨rfl, rfl⟩ | ⟨h1, rfl⟩⟩ := h
  · exact ⟨hs, rfl⟩
  · rw [queue_withQueue]
    exact ⟨dropElems_shape hs hn, view_dropElems hs hn⟩

/-- How Q.POPV on queue q can end, after `dropped` elements and with `turns` attempts left: elements leave queue q from
the oldest end, nothing else changes; OK takes at least one element; FAIL comes only when every turn has dropped one. -/
def PopEnds (q : QueueId) (s : State) (turns dropped : Nat) : CmdEnd → Prop
  | .faulted t f => f = .checkerContract ∧ ∃ n, Removed q s t n
  | .returned r => ∃ n, Removed q s r.st n ∧
    (r.res = .ok ∧ 1 ≤ n ∨ r.res = .inv ∧ r.dout = [] ∧ r.aux = auxOfCount (dropped + n) ∨
      r.res = .fail ∧ r.dout = [] ∧ n = turns ∧ r.aux = auxOfCount (dropped + n))

/-- One dropped element and then an ending of the rest. -/
theorem PopEnds.drop {q : QueueId} {s : State} {turns dropped : Nat} {e : CmdEnd} (hc : 1 ≤ (s.queue q).cnt.toNat)
    (h : PopEnds q (s.withQueue q (dropElems (s.queue q) 1)) turns (dropped + 1) e) :
    PopEnds q s (turns + 1) dropped e := by
  cases e with
  | faulted t f =>
    obtain ⟨hf, n, hn⟩ := h
    exact ⟨hf, _, hn.step (le_refl 1) hc⟩
  | returned r =>
    obtain ⟨n, hn, h⟩ := h
    refine ⟨_, hn.step (le_refl 1) hc, ?_⟩
    rcases h with ⟨h, -⟩ | ⟨h1, h2, h3⟩ | ⟨h1, h2, h3, h4⟩
    · exact .inl ⟨h, by omega⟩
    · exact .inr (.inl ⟨h1, h2, by rw [h3]; congr 1; omega⟩)
    · exact .inr (.inr ⟨h1, h2, by omega, by rw [h4]; congr 1; omega⟩)

/-- What Q.POPV's loop can do. -/
theorem popvLoop_spec (q : QueueId) (turns dropped : Nat) (s : State) (ht : turns ≤ (s.queue q).cnt.toNat) :
    PopEnds q s turns dropped (popvLoop q turns dropped s) := by
  induction turns generalizing dropped s with
  | zero => exact ⟨0, Removed.zero q s, .inr (.inr ⟨rfl, rfl, rfl, rfl⟩)⟩
  | succ turns ih =>
    have hc : 1 ≤ (s.queue q).cnt.toNat := by omega
    rw [popvLoop]
    split
    · exact ⟨rfl, 0, Removed.zero q s⟩
    · exact ⟨0, Removed.zero q s, .inr (.inl ⟨rfl, rfl, rfl⟩)⟩
    · exact (ih (dropped + 1) _ (by rw [queue_withQueue, dropElems_cnt hc]; omega)).drop hc
    · rename_i n _
      split
      · exact ⟨rfl, 0, Removed.zero q s⟩
      · exact ⟨n, ⟨by omega, .inr ⟨by omega, rfl⟩⟩, .inl ⟨rfl, by omega⟩⟩

/-- What Q.POPV can do on any queue: FAIL or INV at once with nothing changed, or the loop. -/
theorem popValid_cases (q : QueueId) (s : State) :
    (((s.queue q).cfg = false ∨ (s.queue q).chk = 0#8) ∧ popValid q s = .returned (answer s .fail 0#32 [])) ∨
      ((s.queue q).cfg = true ∧ (s.queue q).chk ≠ 0#8 ∧ (s.queue q).cnt = 0#16 ∧
        popValid q s = .returned (answer s .inv 0#32 [])) ∨
      ((s.queue q).cfg = true ∧ (s.queue q).chk ≠ 0#8 ∧ 1 ≤ (s.queue q).cnt.toNat ∧
        popValid q s = popvLoop q (s.queue q).cnt.toNat 0 s) := by
  unfold popValid
  split
  · rename_i h
    split
    · rename_i h1
      exact .inl ⟨.inr h1, rfl⟩
    · rename_i h1
      split
      · rename_i h2
        exact .inr (.inl ⟨h, h1, h2, rfl⟩)
      · rename_i h2
        refine .inr (.inr ⟨h, h1, ?_, rfl⟩)
        rcases Nat.eq_zero_or_pos (s.queue q).cnt.toNat with h3 | h3
        · exact absurd (BitVec.eq_of_toNat_eq h3) h2
        · exact h3
  · rename_i h
    exact .inl ⟨.inl (by simpa using h), rfl⟩

/-- Q.POPV ends as its loop can end. -/
theorem popValid_spec (q : QueueId) (s : State) : ∃ turns, PopEnds q s turns 0 (popValid q s) := by
  rcases popValid_cases q s with ⟨-, h⟩ | ⟨-, -, -, h⟩ | ⟨-, -, -, h⟩ <;> rw [h]
  · exact ⟨0, 0, Removed.zero q s, .inr (.inr ⟨rfl, rfl, rfl, rfl⟩)⟩
  · exact ⟨0, 0, Removed.zero q s, .inr (.inl ⟨rfl, rfl, rfl⟩)⟩
  · exact ⟨_, popvLoop_spec q _ 0 s (le_refl _)⟩

/-! ## Sending -/

/-- What CDC.SEND can do: FAIL with nothing changed, or the bytes pushed into TXQ. -/
theorem sendBytes_cases (s : State) (d : Bytes) :
    (usable s.txq = false ∧ sendBytes s d = answer s .fail 0#32 []) ∨
      (usable s.txq = true ∧
        sendBytes s d = answer { s with txq := pushBytes s.txq d } .ok (auxOfCount d.length) []) := by
  unfold sendBytes
  cases h : usable s.txq
  · exact .inl ⟨rfl, rfl⟩
  · exact .inr ⟨rfl, rfl⟩

/-- What CDC.SENDP can do: FAIL with nothing changed, or the packed frame pushed into TXQ. -/
theorem sendPacket_cases (s : State) (d : Bytes) :
    ((usable s.txq = false ∨ pack s.params s.crcEn d = none) ∧ sendPacket s d = answer s .fail 0#32 []) ∨
      ∃ f, usable s.txq = true ∧ pack s.params s.crcEn d = some f ∧
        sendPacket s d = answer { s with txq := pushBytes s.txq f } .ok (auxOfCount f.length) [] := by
  unfold sendPacket
  cases h : usable s.txq
  · exact .inl ⟨.inl rfl, rfl⟩
  · cases hp : pack s.params s.crcEn d with
    | none => exact .inl ⟨.inr rfl, rfl⟩
    | some f => exact .inr ⟨f, rfl, rfl, rfl⟩

/-! ## The register operations -/

/-- What a stored write changes: RF, CRC_EN and EVT, and nothing else. -/
theorem storeWrite_eq (s : State) (e : Entry) (a : U16) (d : Bytes) :
    storeWrite s e a d = { s with
      rf := rfStore s.rf a d
      crcEn := crcEnAfter s.params (rfStore s.rf a d) s.crcEn a d
      evt := s.evt ++ writeEvents s.params s.wb (rfStore s.rf a d) e a d } := rfl

/-- With no CRC_CFG a write leaves CRC_EN. -/
theorem crcEnAfter_none {p : Params} (h : p.crcCfg = none) (rf : Memory) (en : Bool) (a : U16) (d : Bytes) :
    crcEnAfter p rf en a d = en := by
  simp [crcEnAfter, h]

/-- The CRC_CFG hook, both outcomes. -/
theorem crcEnAfter_some {p : Params} {r : U16} {k : Nat} (h : p.crcCfg = some (r, k)) (rf : Memory) (en : Bool) (a : U16)
    (d : Bytes) : crcEnAfter p rf en a d =
      if a.toNat ≤ r.toNat ∧ 2 * r.toNat < 2 * a.toNat + d.length then (rfRead rf r).getLsbD k else en := by
  simp [crcEnAfter, h]

/-- What REG.SET can do: nothing but its reply, or a stored write by the entry that owns the address. -/
theorem regSet_cases (s : State) (d : Bytes) :
    (∃ r, regSet s d = answer s r 0#32 []) ∨
      ∃ e, matchEntry s.params (half d 0) = some e ∧ e.wr = true ∧ 2 ≤ d.length ∧ d.drop 2 ≠ [] ∧
        regSet s d = answer (storeWrite s e (half d 0) (d.drop 2)) .ok (auxOfCount (d.drop 2).length) [] := by
  unfold regSet
  split
  · exact .inl ⟨_, rfl⟩
  · split
    · exact .inl ⟨_, rfl⟩
    · split
      · exact .inl ⟨_, rfl⟩
      · rename_i h1 e he h2
        refine .inr ⟨e, he, ?_, by omega, fun h => h2 (.inr h), rfl⟩
        cases h : e.wr
        · exact absurd (.inl h) h2
        · rfl

/-- REG.GET leaves the state as it is. -/
@[simp] theorem regGet_st (s : State) (d : Bytes) : (regGet s d).st = s := by
  unfold regGet
  split
  · rfl
  · split
    · rfl
    · split <;> rfl

/-- What the register dispatcher can do to the state: nothing, a stored write, or a sent frame. -/
theorem regDispatch_cases (s : State) (d : Bytes) :
    (regDispatch s d).st = s ∨
      (∃ e a b, (regDispatch s d).st = storeWrite s e a b) ∨
      (∃ f, usable s.txq = true ∧ (regDispatch s d).st = { s with txq := pushBytes s.txq f }) := by
  unfold regDispatch
  split
  · exact .inl rfl
  · split
    · rename_i cmd rest _
      rcases regSet_cases s rest with ⟨r, h⟩ | ⟨e, -, -, -, -, h⟩
      · exact .inl (by rw [h]; rfl)
      · exact .inr (.inl ⟨e, _, _, by rw [h]; rfl⟩)
    · split
      · rename_i cmd rest _ _
        dsimp only
        split
        · exact .inl (regGet_st s rest)
        · rw [regGet_st]
          rcases sendPacket_cases s (regGet s rest).dout with ⟨-, h⟩ | ⟨f, hu, -, h⟩
          · exact .inl (by rw [h]; rfl)
          · exact .inr (.inr ⟨f, hu, by rw [h]; rfl⟩)
      · exact .inl rfl

/-- The register dispatcher reads nothing of DIN's field, so it commutes with a change of it. -/
theorem regDispatch_din (s : State) (d p : Bytes) :
    regDispatch { s with din := d } p = { regDispatch s p with st := { (regDispatch s p).st with din := d } } := by
  have hset : ∀ q, regSet { s with din := d } q = { regSet s q with st := { (regSet s q).st with din := d } } := by
    intro q
    unfold regSet
    by_cases h : q.length < 2
    · simp only [if_pos h]; rfl
    · simp only [if_neg h]
      cases hm : matchEntry s.params (half q 0) with
      | none => rfl
      | some e => dsimp only; split <;> rfl
  have hget : ∀ q, regGet { s with din := d } q = { regGet s q with st := { s with din := d } } := by
    intro q
    unfold regGet
    by_cases h : q.length < 3
    · simp only [if_pos h]; rfl
    · simp only [if_neg h]
      cases hm : matchEntry s.params (half q 0) with
      | none => rfl
      | some e => dsimp only; split <;> rfl
  have hsend : ∀ q, sendPacket { s with din := d } q = { sendPacket s q with st := { (sendPacket s q).st with din := d } } := by
    intro q
    unfold sendPacket
    dsimp only
    split
    · cases pack s.params s.crcEn q <;> rfl
    · rfl
  unfold regDispatch
  split
  · rfl
  · dsimp only
    split
    · rw [hset]; rfl
    · split
      · rw [hget]
        dsimp only
        simp only [regGet_st]
        split
        · rfl
        · rw [hsend]; rfl
      · rfl

/-- What handler invocation can change: RF, CRC_EN, EVT (by events appended) and TXQ (by bytes sent). -/
theorem invokeHandler_cases (s : State) (p : Bytes) :
    ∃ rf en es x, invokeHandler s p = { s with rf := rf, crcEn := en, evt := s.evt ++ es, txq := x } ∧
      (rf = s.rf ∨ ∃ a d, rf = rfStore s.rf a d) ∧ (s.params.crcCfg = none → en = s.crcEn) ∧
      (x = s.txq ∨ usable s.txq = true ∧ ∃ f, x = pushBytes s.txq f) := by
  unfold invokeHandler
  split
  · exact ⟨s.rf, s.crcEn, [], s.txq, by simp, .inl rfl, fun _ => rfl, .inl rfl⟩
  · split
    · rcases regDispatch_cases s p with h | ⟨e, a, b, h⟩ | ⟨f, hu, h⟩
      · exact ⟨s.rf, s.crcEn, [], s.txq, by simp [h], .inl rfl, fun _ => rfl, .inl rfl⟩
      · exact ⟨_, _, _, s.txq, by rw [h, storeWrite_eq], .inr ⟨a, b, rfl⟩, fun hc => crcEnAfter_none hc _ _ _ _, .inl rfl⟩
      · exact ⟨s.rf, s.crcEn, [], _, by simp [h], .inl rfl, fun _ => rfl, .inr ⟨hu, f, rfl⟩⟩
    · exact ⟨s.rf, s.crcEn, [.handlerCall s.hdl p], s.txq, rfl, .inl rfl, fun _ => rfl, .inl rfl⟩

/-- The handler leaves RXQ and the fields no handler writes as they are. -/
theorem invokeHandler_frame (s : State) (p : Bytes) :
    (invokeHandler s p).rxq = s.rxq ∧ (invokeHandler s p).params = s.params ∧
      (invokeHandler s p).crcAcc = s.crcAcc ∧ (invokeHandler s p).hdl = s.hdl ∧ (invokeHandler s p).wb = s.wb ∧
      (invokeHandler s p).tgt = s.tgt ∧ (invokeHandler s p).fault = s.fault ∧
      (invokeHandler s p).port = s.port ∧ (invokeHandler s p).din = s.din ∧ (invokeHandler s p).outs = s.outs := by
  obtain ⟨rf, en, es, x, h, -⟩ := invokeHandler_cases s p
  rw [h]
  exact ⟨rfl, rfl, rfl, rfl, rfl, rfl, rfl, rfl, rfl, rfl⟩

/-! ## CDC.RECV -/

/-- How CDC.RECV can end: elements leave RXQ from the oldest end; on OK at least one leaves and the handler runs once on
what is delivered; otherwise nothing else changes. -/
def RecvEnds (s : State) : CmdEnd → Prop
  | .faulted t f => f = .checkerContract ∧ ∃ n, Removed .rx s t n
  | .returned r =>
    (∃ n u, 1 ≤ n ∧ Removed .rx s u n ∧ r.res = .ok ∧ r.st = invokeHandler u r.dout) ∨
      (r.res ≠ .ok ∧ r.dout = [] ∧ ∃ n, Removed .rx s r.st n)

/-- What CDC.RECV can do. -/
theorem receive_spec (s : State) : RecvEnds s (receive s) := by
  unfold receive
  split
  · obtain ⟨turns, h⟩ := popValid_spec .rx s
    cases hp : popValid .rx s with
    | faulted t f =>
      rw [hp] at h
      exact h
    | returned r =>
      rw [hp] at h
      obtain ⟨n, hn, h⟩ := h
      dsimp only
      split
      · rename_i hr
        rcases h with ⟨-, h1⟩ | ⟨h, -⟩ | ⟨h, -⟩
        · exact .inl ⟨n, r.st, h1, hn, rfl, rfl⟩
        · rw [h] at hr; cases hr
        · rw [h] at hr; cases hr
      · rename_i hr
        exact .inr ⟨hr, rfl, n, hn⟩
  · exact .inr ⟨fun h => Res.noConfusion h, rfl, 0, Removed.zero _ _⟩

/-- A delivered frame takes at least one element from RXQ. -/
theorem receive_ok_cnt {s : State} {r : Reply} (h : receive s = .returned r) (hr : r.res = .ok) :
    r.st.rxq.cnt.toNat + 1 ≤ s.rxq.cnt.toNat := by
  have := receive_spec s
  rw [h] at this
  rcases this with ⟨n, u, h1, hu, -, hst⟩ | ⟨h, -⟩
  · have hc := hu.cnt
    simp only [queue_rx] at hc
    rw [hst, (invokeHandler_frame u _).1]
    omega
  · exact absurd hr h

/-- The fuel of CDC.POLL's loop does not matter once it exceeds the number of stored elements. -/
theorem pollLoop_fuel {a b k : Nat} {s : State} (ha : s.rxq.cnt.toNat < a) (hb : s.rxq.cnt.toNat < b) :
    pollLoop a k s = pollLoop b k s := by
  induction a generalizing b k s with
  | zero => omega
  | succ a ih =>
    cases b with
    | zero => omega
    | succ b =>
      rw [pollLoop, pollLoop]
      cases hr : receive s with
      | faulted t f => rfl
      | returned r =>
        dsimp only
        split
        · rename_i ho
          have := receive_ok_cnt hr ho
          exact ih (by omega) (by omega)
        · rfl

end Sys2Proof.Machine
end

