-- ==== Sys2Proof/Laws/Encoding.lean ====
section
/-! SUPPORT. The fields of an encoded command word (Decode.lean, WellFormed.lean). -/

namespace Sys2Proof

theorem toNat_wordOf (op : Byte) (u : BitVec 4) (imm : U16) :
    (wordOf op u imm).toNat = op.toNat * 2 ^ 24 + u.toNat * 2 ^ 20 + imm.toNat := by
  have h1 := u.isLt
  have h2 := imm.isLt
  unfold wordOf
  rw [BitVec.toNat_append, ← Nat.shiftLeft_add_eq_or_of_lt h2, BitVec.toNat_append,
    ← Nat.shiftLeft_add_eq_or_of_lt (by decide), BitVec.toNat_append, ← Nat.shiftLeft_add_eq_or_of_lt h1]
  simp only [Nat.shiftLeft_eq, BitVec.toNat_ofNat]
  omega

@[simp] theorem fieldOp_wordOf (op : Byte) (u : BitVec 4) (imm : U16) : fieldOp (wordOf op u imm) = op := by
  have h0 := op.isLt
  have h1 := u.isLt
  have h2 := imm.isLt
  apply BitVec.eq_of_toNat_eq
  rw [fieldOp, BitVec.extractLsb'_toNat, toNat_wordOf, Nat.shiftRight_eq_div_pow]
  omega

@[simp] theorem fieldU_wordOf (op : Byte) (u : BitVec 4) (imm : U16) : fieldU (wordOf op u imm) = u := by
  have h1 := u.isLt
  have h2 := imm.isLt
  apply BitVec.eq_of_toNat_eq
  rw [fieldU, BitVec.extractLsb'_toNat, toNat_wordOf, Nat.shiftRight_eq_div_pow]
  omega

@[simp] theorem fieldZ_wordOf (op : Byte) (u : BitVec 4) (imm : U16) : fieldZ (wordOf op u imm) = 0#4 := by
  have h2 := imm.isLt
  apply BitVec.eq_of_toNat_eq
  rw [fieldZ, BitVec.extractLsb'_toNat, toNat_wordOf, Nat.shiftRight_eq_div_pow, BitVec.toNat_ofNat]
  omega

@[simp] theorem fieldImm_wordOf (op : Byte) (u : BitVec 4) (imm : U16) : fieldImm (wordOf op u imm) = imm := by
  have h2 := imm.isLt
  apply BitVec.eq_of_toNat_eq
  rw [fieldImm, BitVec.extractLsb'_toNat, toNat_wordOf, Nat.shiftRight_eq_div_pow]
  omega

theorem toNat_imm8 (b : Byte) : (imm8 b).toNat = b.toNat := by
  rw [imm8, BitVec.toNat_append, ← Nat.shiftLeft_add_eq_or_of_lt b.isLt]
  simp

/-- IMM[7:0] and IMM[15:8] of a word that uses IMM[7:0] alone. -/
theorem immLow_imm8 (op : Byte) (u : BitVec 4) (b : Byte) : immLow (wordOf op u (imm8 b)) = b := by
  have h := b.isLt
  have h1 := u.isLt
  apply BitVec.eq_of_toNat_eq
  rw [immLow, BitVec.extractLsb'_toNat, toNat_wordOf, toNat_imm8, Nat.shiftRight_eq_div_pow]
  omega

theorem immHigh_imm8 (op : Byte) (u : BitVec 4) (b : Byte) : immHigh (wordOf op u (imm8 b)) = 0#8 := by
  have h := b.isLt
  have h1 := u.isLt
  apply BitVec.eq_of_toNat_eq
  rw [immHigh, BitVec.extractLsb'_toNat, toNat_wordOf, toNat_imm8, Nat.shiftRight_eq_div_pow, BitVec.toNat_ofNat]
  omega

/-- IMM[15:8] and IMM[7:0] of a word whose IMM is a pair of bytes. -/
theorem imm_pair (op : Byte) (u : BitVec 4) (n b : Byte) :
    immHigh (wordOf op u (n ++ b)) = n ∧ immLow (wordOf op u (n ++ b)) = b := by
  have h := b.isLt
  have h0 := n.isLt
  have h1 := u.isLt
  have e : (n ++ b : U16).toNat = n.toNat * 256 + b.toNat := by
    rw [BitVec.toNat_append, ← Nat.shiftLeft_add_eq_or_of_lt h, Nat.shiftLeft_eq]
  have e' := toNat_wordOf op u (n ++ b)
  rw [e] at e'
  constructor <;> apply BitVec.eq_of_toNat_eq
  · rw [immHigh, BitVec.extractLsb'_toNat, e', Nat.shiftRight_eq_div_pow]
    omega
  · rw [immLow, BitVec.extractLsb'_toNat, e', Nat.shiftRight_eq_div_pow]
    omega

/-- The word of a command whose row admits its U and whose IMM fits the row's bits is legal. -/
theorem legalWord_wordOf {op : Byte} {u : BitVec 4} {imm : U16} (r : WordRow) (hr : r ∈ wordRows)
    (ho : r.op = op.toNat) (hu : r.u.admits u.toNat = true) (hi : imm.toNat < 2 ^ r.immBits) :
    legalWord (wordOf op u imm) = true := by
  have h1 := u.isLt
  have h2 := imm.isLt
  have eo : (wordOf op u imm).toNat / 2 ^ 24 = r.op := by rw [toNat_wordOf]; omega
  have eu : (wordOf op u imm).toNat / 2 ^ 20 % 16 = u.toNat := by rw [toNat_wordOf]; omega
  have ez : (wordOf op u imm).toNat / 2 ^ 16 % 16 = 0 := by rw [toNat_wordOf]; omega
  have ei : (wordOf op u imm).toNat % 2 ^ 16 = imm.toNat := by rw [toNat_wordOf]; omega
  unfold legalWord opDefined zClear uAdmitted immAdmitted
  rw [eo, eu, ez, ei]
  simp only [Bool.and_eq_true, List.any_eq_true]
  exact ⟨⟨⟨⟨r, hr, by simp⟩, by simp⟩, ⟨r, hr, by simp [hu]⟩⟩, ⟨r, hr, by simp [hi]⟩⟩

end Sys2Proof
end

