-- ==== Sys2Proof/Laws/Invariant.lean ====
section
/-! SUPPORT. What the shared operations do to the invariants of Safety.lean. -/

namespace Sys2Proof.Machine

/-- The invariant reads PARAMS, the queues, RF and WB alone. -/
theorem StateInv.of_fields {s t : State} (h : StateInv s) (hp : t.params = s.params) (hr : t.rxq = s.rxq)
    (ht : t.txq = s.txq) (hf : t.rf = s.rf) (hw : t.wb = s.wb) : StateInv t := by
  obtain ⟨a, b, c, d, e, f⟩ := h
  exact ⟨hp ▸ a, by rw [hp, hr]; exact b, by rw [hp, ht]; exact c, hf ▸ d, hf ▸ e, by rw [hp, hw]; exact f⟩

theorem StateInv.queue {s : State} (h : StateInv s) (q : QueueId) :
    QueueInv s.params (queueBytes s.params q) (s.queue q) := by
  cases q
  · exact h.rxq
  · exact h.txq

/-- A queue may be replaced by one that keeps the queue's invariant. -/
theorem StateInv.withQueue {s : State} {q : QueueId} {x : QState} (h : StateInv s)
    (hx : QueueInv s.params (queueBytes s.params q) x) : StateInv (s.withQueue q x) := by
  obtain ⟨a, b, c, d, e, f⟩ := h
  cases q
  · exact ⟨a, hx, c, d, e, f⟩
  · exact ⟨a, b, hx, d, e, f⟩

/-- A removal keeps the queue invariant. -/
theorem QueueInv.drop {p : Params} {bytes n : Nat} {x : QState} (h : QueueInv p bytes x) (hn : n ≤ x.cnt.toNat) :
    QueueInv p bytes (dropElems x n) := by
  obtain ⟨h1, h2, h3, h4, h5, h6, h7⟩ := h
  refine ⟨h1, h2, fun hc => dropElems_shape (h3 hc) hn, fun hc => ?_, h5, h6, h7⟩
  obtain ⟨a, b, c, d, e⟩ := h4 hc
  obtain rfl : n = 0 := by rw [c] at hn; simpa using hn
  exact ⟨a, by simp [dropElems, advBy, b], by simp [dropElems, c], d, e⟩

/-- A push of an item of ISZ bytes keeps the queue invariant. -/
theorem QueueInv.push {p : Params} {bytes : Nat} {x : QState} (h : QueueInv p bytes x) (hc : x.cfg = true) {item : Bytes}
    (hi : item.length = x.isz.toNat) : QueueInv p bytes (pushElem x item) := by
  obtain ⟨h1, h2, h3, h4, h5, h6, h7⟩ := h
  obtain ⟨s1, s2, -, s4, s5⟩ := pushElem_setup x item
  refine ⟨by rw [pushElem_ram]; exact memWriteBytes_wf h1 _ _, pushElem_bounds (h3 hc) hi h2,
    fun _ => pushElem_shape (h3 hc) _, fun hx => ?_, by rw [s4, s2]; exact h5, by rw [s4]; exact h6,
    by rw [s5]; exact h7⟩
  rw [s1, hc] at hx
  cases hx

/-- Sending into a usable queue keeps the queue invariant. -/
theorem QueueInv.pushBytes {p : Params} {bytes : Nat} {x : QState} (h : QueueInv p bytes x) (hu : usable x = true)
    (d : Bytes) : QueueInv p bytes (pushBytes x d) := by
  obtain ⟨h1, h2, h3, h4, h5, h6, h7⟩ := h
  simp only [usable, Bool.and_eq_true, beq_iff_eq] at hu
  obtain ⟨a1, a2, a3, ⟨s1, s2, -, s4, s5⟩, -⟩ := pushBytes_spec (h3 hu.1) h1 h2 hu.2 d
  refine ⟨a2, a3, fun _ => a1, fun hx => ?_, by rw [s4, s2]; exact h5, by rw [s4]; exact h6, by rw [s5]; exact h7⟩
  rw [s1, hu.1] at hx
  cases hx

/-- A removal from a queue keeps the invariant. -/
theorem Removed.inv {q : QueueId} {s t : State} {n : Nat} (h : Removed q s t n) (hi : StateInv s) : StateInv t := by
  obtain ⟨hn, ⟨rfl, rfl⟩ | ⟨-, rfl⟩⟩ := h
  · exact hi
  · exact hi.withQueue ((hi.queue q).drop hn)

/-- RFStore keeps the bounds of RF. -/
theorem rfStore_inside {m : Memory} (h : ∀ c ∈ m, c.1 < rfBytes) (r : U16) (d : Bytes) :
    ∀ c ∈ rfStore m r d, c.1 < rfBytes := by
  intro c hc
  rcases mem_rfStoreFrom hc with hc | hc
  · exact h c hc
  · exact hc

/-- Handler invocation keeps the invariant. -/
theorem invokeHandler_inv {s : State} (hi : StateInv s) (p : Bytes) : StateInv (invokeHandler s p) := by
  obtain ⟨rf, en, es, x, h, hrf, -, hx⟩ := invokeHandler_cases s p
  rw [h]
  obtain ⟨a, b, c, d, e, f⟩ := hi
  refine ⟨a, b, ?_, ?_, ?_, f⟩
  · rcases hx with rfl | ⟨hu, f, rfl⟩
    · exact c
    · exact c.pushBytes hu f
  · rcases hrf with rfl | ⟨a, d', rfl⟩
    · exact d
    · exact rfStore_wf d _ _
  · rcases hrf with rfl | ⟨a, d', rfl⟩
    · exact e
    · exact rfStore_inside e _ _

end Sys2Proof.Machine
end

