-- ==== Sys2Proof/Laws/Mapper.lean ====
section
/-! SUPPORT. The target, the primitive kinds, one item of a list, the print buffer, the lookup of an address, and what the
FRAME checker's verdicts say. -/

namespace Sys2Proof.Machine

/-! ## The target -/

theorem tgtRead_tgtWrite (t : Target) (i j : Nat) (v : U64) :
    tgtRead (tgtWrite t i v) j = if j = i ∧ i < 256 then v else tgtRead t j := by
  unfold tgtRead tgtWrite
  rw [Vector.getElem?_setIfInBounds]
  by_cases h : i = j
  · subst h
    by_cases hi : i < 256
    · simp [hi]
    · simp [hi]
  · rw [if_neg h, if_neg (fun e => h e.1.symm)]

@[simp] theorem tgtRead_freshTarget (i : Nat) : tgtRead freshTarget i = 0#64 := by
  unfold tgtRead freshTarget
  rw [Vector.getElem?_replicate]
  split <;> rfl

/-! ## Primitive kinds -/

/-- No kind takes more than 8 bytes, or none. -/
theorem primLenOk_bounds {k : Prim} {n : Nat} (h : primLenOk k n = true) : 1 ≤ n ∧ n ≤ 8 := by
  cases k <;> simp [primLenOk] at h <;> omega

theorem parsePrim_eq (k : Prim) (b : Bytes) :
    parsePrim k b = if primLenOk k b.length then some (primValue k b) else none := rfl

theorem printPrim_eq (k : Prim) (v : U64) (n : Nat) :
    printPrim k v n = if primLenOk k n then some (be n v.toNat) else none := rfl

/-! ## One item -/

/-- An item of a built-in kind, at a length the kind takes, writes its slot. -/
theorem parseItem_builtin {p : Params} {k : Byte} (hc : customOf p k = none) {prim : Prim} (hp : primOfCode k = some prim)
    {b : Bytes} (hb : primLenOk prim b.length = true) (t : Target) (i : Nat) :
    parseItem p k t i b = (.ok, tgtWrite t i (primValue prim b)) := by
  simp [parseItem, hc, hp, parsePrim, hb]

/-- An item of a built-in kind prints the low bytes of its slot. -/
theorem printItem_builtin {p : Params} {k : Byte} (hc : customOf p k = none) {prim : Prim} (hp : primOfCode k = some prim)
    {n : Nat} (hn : primLenOk prim n = true) (t : Target) (i : Nat) :
    printItem p k t i n = (.ok, be n (tgtRead t i).toNat) := by
  simp [printItem, hc, hp, printPrim, hn]

/-- An item of a reserved or undefined kind code fails. -/
theorem parseItem_undefined {p : Params} {k : Byte} (hc : customOf p k = none) (hp : primOfCode k = none) (t : Target)
    (i : Nat) (b : Bytes) : parseItem p k t i b = (.fail, t) := by
  simp [parseItem, hc, hp]

/-- An item of a built-in kind, at a length the kind does not take, fails. -/
theorem parseItem_badLength {p : Params} {k : Byte} (hc : customOf p k = none) {prim : Prim} (hp : primOfCode k = some prim)
    {b : Bytes} (hb : primLenOk prim b.length = false) (t : Target) (i : Nat) : parseItem p k t i b = (.fail, t) := by
  simp [parseItem, hc, hp, parsePrim, hb]

/-- An item of a defined custom kind does what its CUSTOM_PARSE does. -/
theorem parseItem_custom {p : Params} {k : Byte} {d : CustomDef} (hc : customOf p k = some d) (t : Target) (i : Nat)
    (b : Bytes) : parseItem p k t i b = customParse d k t i b := by
  simp [parseItem, hc]

/-- An item of a reserved or undefined kind code prints nothing and fails. -/
theorem printItem_undefined {p : Params} {k : Byte} (hc : customOf p k = none) (hp : primOfCode k = none) (t : Target)
    (i n : Nat) : printItem p k t i n = (.fail, []) := by
  simp [printItem, hc, hp]

/-- An item of a built-in kind, at a length the kind does not take, prints nothing and fails. -/
theorem printItem_badLength {p : Params} {k : Byte} (hc : customOf p k = none) {prim : Prim} (hp : primOfCode k = some prim)
    {n : Nat} (hn : primLenOk prim n = false) (t : Target) (i : Nat) : printItem p k t i n = (.fail, []) := by
  simp [printItem, hc, hp, printPrim, hn]

/-- An item of a defined custom kind prints what its CUSTOM_PRINT does. -/
theorem printItem_custom {p : Params} {k : Byte} {d : CustomDef} (hc : customOf p k = some d) (t : Target) (i n : Nat) :
    printItem p k t i n = customPrint d k t i n := by
  simp [printItem, hc]

/-! ## The print buffer -/

@[simp] theorem overwrite_length (buf : Bytes) (off : Nat) (b : Bytes) (h : off + b.length ≤ buf.length) :
    (overwrite buf off b).length = buf.length := by
  simp [overwrite]
  omega

/-- MAP.PRINT's loop keeps the length of its buffer. -/
theorem printItems_length {p : Params} {t : Target} {its : List Item} {i off : Nat} {buf : Bytes} {r : Res} {a : Nat}
    {out : Bytes} (h : printItems p t its i off buf = .done r a out) : out.length = buf.length := by
  induction its generalizing i off buf with
  | nil =>
    rw [printItems, PrintEnd.done.injEq] at h
    rw [h.2.2]
  | cons it its ih =>
    rw [printItems] at h
    split at h
    · rw [PrintEnd.done.injEq] at h
      rw [h.2.2]
    · rename_i hlt
      split at h
      · split at h
        · rename_i hl
          rw [ih h, overwrite_length _ _ _ (by omega)]
        · cases h
      · rw [PrintEnd.done.injEq] at h
        rw [h.2.2]

/-! ## Lookup -/

/-- The entry found covers the address, and no entry before it does. -/
theorem matchEntry_some {p : Params} {a : U16} {e : Entry} (h : matchEntry p a = some e) :
    entryCovers e a = true ∧ ∃ l r, sysTableOf p = l ++ e :: r ∧ ∀ f ∈ l, entryCovers f a = false := by
  obtain ⟨h1, l, r, h2, h3⟩ := List.find?_eq_some_iff_append.1 h
  exact ⟨h1, l, r, h2, fun f hf => by simpa using h3 f hf⟩

theorem matchEntry_none {p : Params} {a : U16} :
    matchEntry p a = none ↔ ∀ e ∈ sysTableOf p, entryCovers e a = false := by
  simp [matchEntry, List.find?_eq_none]

theorem entryCovers_iff (e : Entry) (a : U16) :
    entryCovers e a = true ↔ e.addr.toNat ≤ a.toNat ∧ a.toNat < e.addr.toNat + e.len := by
  simp [entryCovers]

theorem inSpRange_iff (w : Binding) (a : U16) :
    inSpRange w a = true ↔ w.sp.toNat ≤ a.toNat ∧ a.toNat < w.sp.toNat + w.lenDsc.toNat := by
  simp [inSpRange]

/-! ## The FRAME checker -/

/-- The header comparison never delivers, and never breaks a contract. -/
theorem headerVerdict_cases (h v : Bytes) :
    (headerVerdict h v = some .inv ∧ v.length < h.length) ∨ headerVerdict h v = some .fail ∨
      (headerVerdict h v = none ∧ h <+: v) := by
  induction h generalizing v with
  | nil => exact .inr (.inr ⟨by cases v <;> rfl, List.nil_prefix⟩)
  | cons x h ih =>
    cases v with
    | nil => exact .inl ⟨rfl, by simp⟩
    | cons y v =>
      rw [headerVerdict]
      split
      · rename_i hxy
        subst hxy
        rcases ih v with ⟨h1, h2⟩ | h1 | ⟨h1, h2⟩
        · exact .inl ⟨h1, by simpa using h2⟩
        · exact .inr (.inl h1)
        · exact .inr (.inr ⟨h1, by simpa using h2⟩)
      · exact .inr (.inl rfl)

/-- A delivery is the whole declared frame, and it lies in the view; nothing breaks a contract. -/
theorem frameCheck_cases (p : Params) (crcEn : Bool) (v : Bytes) :
    frameCheck p crcEn v = .inv ∨ frameCheck p crcEn v = .fail ∨
      (frameCheck p crcEn v = .ok (declaredTotal p v) ∧ p.hdr <+: v ∧ preambleLen p ≤ declaredTotal p v ∧
        declaredTotal p v ≤ v.length) := by
  unfold frameCheck
  rcases headerVerdict_cases p.hdr v with ⟨h, -⟩ | h | ⟨h, hp⟩ <;> rw [h]
  · exact .inl rfl
  · exact .inr (.inl rfl)
  · dsimp only
    split
    · exact .inl rfl
    · split
      · exact .inl rfl
      · split
        · exact .inr (.inl rfl)
        · exact .inr (.inr ⟨rfl, hp, Nat.le_add_right _ _, by omega⟩)

end Sys2Proof.Machine
end

