-- ==== Sys2Proof/Laws/PerInstr.lean ====
section
/-! SUPPORT. Statements made instruction by instruction. The family EncodeLegal: the word of every command is one that the
table of spec/30_encoding.md R94 calls legal. -/

namespace Sys2Proof.Laws.EncodeLegal

/-- The command's word is legal. -/
def Statement (i : Instr) : Prop := legalWord (encode i) = true

theorem nop : Statement .nop :=
  legalWord_wordOf ⟨0x00, .fixed 0, 0⟩ (by decide) rfl (by decide) (by decide)

theorem qInit (q : QueueId) (byteSize : U16) : Statement (.qInit q byteSize) :=
  legalWord_wordOf ⟨0x10, .select, 16⟩ (by decide) rfl (by cases q <;> decide) (BitVec.isLt _)

theorem qPush (q : QueueId) : Statement (.qPush q) :=
  legalWord_wordOf ⟨0x11, .select, 0⟩ (by decide) rfl (by cases q <;> decide) (by decide)

theorem qPop (q : QueueId) : Statement (.qPop q) :=
  legalWord_wordOf ⟨0x12, .select, 0⟩ (by decide) rfl (by cases q <;> decide) (by decide)

theorem qPopv (q : QueueId) : Statement (.qPopv q) :=
  legalWord_wordOf ⟨0x13, .select, 0⟩ (by decide) rfl (by cases q <;> decide) (by decide)

theorem qSetchk (q : QueueId) (id : Byte) : Statement (.qSetchk q id) :=
  legalWord_wordOf ⟨0x14, .select, 8⟩ (by decide) rfl (by cases q <;> decide) (by rw [toNat_imm8]; exact BitVec.isLt _)

theorem qEmpty (q : QueueId) : Statement (.qEmpty q) :=
  legalWord_wordOf ⟨0x15, .select, 0⟩ (by decide) rfl (by cases q <;> decide) (by decide)

theorem qCount (q : QueueId) : Statement (.qCount q) :=
  legalWord_wordOf ⟨0x16, .select, 0⟩ (by decide) rfl (by cases q <;> decide) (by decide)

theorem qClear (q : QueueId) : Statement (.qClear q) :=
  legalWord_wordOf ⟨0x17, .select, 0⟩ (by decide) rfl (by cases q <;> decide) (by decide)

theorem qSetcd (q : QueueId) : Statement (.qSetcd q) :=
  legalWord_wordOf ⟨0x18, .select, 0⟩ (by decide) rfl (by cases q <;> decide) (by decide)

theorem qDeinit (q : QueueId) : Statement (.qDeinit q) :=
  legalWord_wordOf ⟨0x19, .select, 0⟩ (by decide) rfl (by cases q <;> decide) (by decide)

theorem crcSeed (v : CrcVariant) : Statement (.crcSeed v) :=
  legalWord_wordOf ⟨0x20, .select, 0⟩ (by decide) rfl (by cases v <;> decide) (by decide)

theorem crcUpd (b : Byte) : Statement (.crcUpd b) :=
  legalWord_wordOf ⟨0x21, .fixed 0, 8⟩ (by decide) rfl (by decide) (by rw [toNat_imm8]; exact BitVec.isLt _)

theorem crcUpdn : Statement .crcUpdn :=
  legalWord_wordOf ⟨0x22, .fixed 0, 0⟩ (by decide) rfl (by decide) (by decide)

theorem crcCalc (v : CrcVariant) : Statement (.crcCalc v) :=
  legalWord_wordOf ⟨0x23, .select, 0⟩ (by decide) rfl (by cases v <;> decide) (by decide)

theorem crcRd : Statement .crcRd :=
  legalWord_wordOf ⟨0x24, .fixed 0, 0⟩ (by decide) rfl (by decide) (by decide)

theorem cdcSend : Statement .cdcSend :=
  legalWord_wordOf ⟨0x30, .fixed 0, 0⟩ (by decide) rfl (by decide) (by decide)

theorem cdcSendp : Statement .cdcSendp :=
  legalWord_wordOf ⟨0x31, .fixed 0, 0⟩ (by decide) rfl (by decide) (by decide)

theorem cdcRecv : Statement .cdcRecv :=
  legalWord_wordOf ⟨0x32, .fixed 0, 0⟩ (by decide) rfl (by decide) (by decide)

theorem cdcPoll : Statement .cdcPoll :=
  legalWord_wordOf ⟨0x33, .fixed 0, 0⟩ (by decide) rfl (by decide) (by decide)

theorem cdcSetcrc (enable : Bool) : Statement (.cdcSetcrc enable) :=
  legalWord_wordOf ⟨0x34, .fixed 0, 1⟩ (by decide) rfl (by decide) (by cases enable <;> decide)

theorem cdcSethdl (id : Byte) : Statement (.cdcSethdl id) :=
  legalWord_wordOf ⟨0x35, .fixed 0, 8⟩ (by decide) rfl (by decide) (by rw [toNat_imm8]; exact BitVec.isLt _)

theorem cdcPhase : Statement .cdcPhase :=
  legalWord_wordOf ⟨0x36, .fixed 0, 0⟩ (by decide) rfl (by decide) (by decide)

theorem mapParse (l : BitVec 4) : Statement (.mapParse l) :=
  legalWord_wordOf ⟨0x40, .listId, 0⟩ (by decide) rfl rfl (by decide)

theorem mapPrint (l : BitVec 4) (n : U16) : Statement (.mapPrint l n) :=
  legalWord_wordOf ⟨0x41, .listId, 16⟩ (by decide) rfl rfl (BitVec.isLt _)

theorem mapParsepUint (slot : Byte) : Statement (.mapParsepUint slot) :=
  legalWord_wordOf ⟨0x42, .fixed 0, 8⟩ (by decide) rfl (by decide) (by rw [toNat_imm8]; exact BitVec.isLt _)

theorem mapParsepI16 (slot : Byte) : Statement (.mapParsepI16 slot) :=
  legalWord_wordOf ⟨0x42, .fixed 1, 8⟩ (by decide) rfl (by decide) (by rw [toNat_imm8]; exact BitVec.isLt _)

theorem mapParsepI32 (slot : Byte) : Statement (.mapParsepI32 slot) :=
  legalWord_wordOf ⟨0x42, .fixed 2, 8⟩ (by decide) rfl (by decide) (by rw [toNat_imm8]; exact BitVec.isLt _)

theorem mapParsepI64 (slot : Byte) : Statement (.mapParsepI64 slot) :=
  legalWord_wordOf ⟨0x42, .fixed 3, 8⟩ (by decide) rfl (by decide) (by rw [toNat_imm8]; exact BitVec.isLt _)

theorem mapParsepF32 (slot : Byte) : Statement (.mapParsepF32 slot) :=
  legalWord_wordOf ⟨0x42, .fixed 4, 8⟩ (by decide) rfl (by decide) (by rw [toNat_imm8]; exact BitVec.isLt _)

theorem mapParsepF64 (slot : Byte) : Statement (.mapParsepF64 slot) :=
  legalWord_wordOf ⟨0x42, .fixed 5, 8⟩ (by decide) rfl (by decide) (by rw [toNat_imm8]; exact BitVec.isLt _)

theorem mapPrintpUint (len slot : Byte) : Statement (.mapPrintpUint len slot) :=
  legalWord_wordOf ⟨0x43, .fixed 0, 16⟩ (by decide) rfl (by decide) (BitVec.isLt _)

theorem mapPrintpI16 (len slot : Byte) : Statement (.mapPrintpI16 len slot) :=
  legalWord_wordOf ⟨0x43, .fixed 1, 16⟩ (by decide) rfl (by decide) (BitVec.isLt _)

theorem mapPrintpI32 (len slot : Byte) : Statement (.mapPrintpI32 len slot) :=
  legalWord_wordOf ⟨0x43, .fixed 2, 16⟩ (by decide) rfl (by decide) (BitVec.isLt _)

theorem mapPrintpI64 (len slot : Byte) : Statement (.mapPrintpI64 len slot) :=
  legalWord_wordOf ⟨0x43, .fixed 3, 16⟩ (by decide) rfl (by decide) (BitVec.isLt _)

theorem mapPrintpF32 (len slot : Byte) : Statement (.mapPrintpF32 len slot) :=
  legalWord_wordOf ⟨0x43, .fixed 4, 16⟩ (by decide) rfl (by decide) (BitVec.isLt _)

theorem mapPrintpF64 (len slot : Byte) : Statement (.mapPrintpF64 len slot) :=
  legalWord_wordOf ⟨0x43, .fixed 5, 16⟩ (by decide) rfl (by decide) (BitVec.isLt _)

theorem mapTrd (slot : Byte) : Statement (.mapTrd slot) :=
  legalWord_wordOf ⟨0x44, .fixed 0, 8⟩ (by decide) rfl (by decide) (by rw [toNat_imm8]; exact BitVec.isLt _)

theorem mapTwr (slot : Byte) : Statement (.mapTwr slot) :=
  legalWord_wordOf ⟨0x45, .fixed 0, 8⟩ (by decide) rfl (by decide) (by rw [toNat_imm8]; exact BitVec.isLt _)

theorem regSet : Statement .regSet :=
  legalWord_wordOf ⟨0x50, .fixed 0, 0⟩ (by decide) rfl (by decide) (by decide)

theorem regGet : Statement .regGet :=
  legalWord_wordOf ⟨0x51, .fixed 0, 0⟩ (by decide) rfl (by decide) (by decide)

theorem regDisp : Statement .regDisp :=
  legalWord_wordOf ⟨0x52, .fixed 0, 0⟩ (by decide) rfl (by decide) (by decide)

theorem rfRd (r : U16) : Statement (.rfRd r) :=
  legalWord_wordOf ⟨0x53, .fixed 0, 16⟩ (by decide) rfl (by decide) (BitVec.isLt _)

theorem rfWr (r : U16) : Statement (.rfWr r) :=
  legalWord_wordOf ⟨0x54, .fixed 0, 16⟩ (by decide) rfl (by decide) (BitVec.isLt _)

theorem wbAdd : Statement .wbAdd :=
  legalWord_wordOf ⟨0x55, .fixed 0, 0⟩ (by decide) rfl (by decide) (by decide)

theorem wbClr : Statement .wbClr :=
  legalWord_wordOf ⟨0x56, .fixed 0, 0⟩ (by decide) rfl (by decide) (by decide)

end Sys2Proof.Laws.EncodeLegal
end

