-- ==== Sys2Proof/Laws/Step.lean ====
section
/-! SUPPORT. What a step and a run can do, case by case. -/

namespace Sys2Proof.Machine

/-- While FAULT is set there is no step. -/
theorem step_halted {s : State} {f : ModelFault} (h : s.fault = some f) : step s = .fault (.halted f) := by
  simp [step, fetch, h]

/-- With an empty port nothing happens. -/
theorem step_idle {s : State} (h : s.fault = none) (hp : s.port = []) : step s = .next s := by
  simp [step, fetch, h, hp]

/-- A step on a command at the port: its meaning, or the result of an illegal word. -/
theorem step_command {s : State} {c : Command} {rest : List Command} (h : s.fault = none) (hp : s.port = c :: rest) :
    step s = match decode c.cw with
      | .ok i => exec i { s with port := rest, din := c.din }
      | .error _ => rejectWord { s with port := rest, din := c.din } := by
  cases hd : decode c.cw <;> simp only [step, fetch, h, hp, hd]

/-- A step on a command that decodes. -/
theorem step_decoded {s : State} {c : Command} {rest : List Command} {i : Instr} (h : s.fault = none)
    (hp : s.port = c :: rest) (hd : decode c.cw = .ok i) : step s = exec i { s with port := rest, din := c.din } := by
  simp only [step_command h hp, hd]

/-- A step on an illegal word. -/
theorem step_illegal {s : State} {c : Command} {rest : List Command} {e : Illegal} (h : s.fault = none)
    (hp : s.port = c :: rest) (hd : decode c.cw = .error e) :
    step s = .next (record { s with port := rest, din := c.din } .fail auxIllegal []) := by
  simp only [step_command h hp, hd, rejectWord_eq]

@[simp] theorem runFor_zero (s : State) : runFor 0 s = .next s := rfl

/-- A run goes on from the next state. -/
theorem runFor_next {s t : State} (h : step s = .next t) (n : Nat) : runFor (n + 1) s = runFor n t := by
  have h' : Sys2Proof.core.step s = .next t := h
  simp only [runFor, Host.Core.run, h']
  rfl

/-- A run ends where a step faults. -/
theorem runFor_fault {s : State} {f : Fault} (h : step s = .fault f) (n : Nat) : runFor (n + 1) s = .fault f := by
  have h' : Sys2Proof.core.step s = .fault f := h
  simp only [runFor, Host.Core.run, h']
  rfl

end Sys2Proof.Machine
end

