-- ==== Sys2Proof/Tests/Slice0.lean ====
section
/-! SUPPORT. Tests: the smoke of WellFormed and of PARAMS, a written-out word for every row of R94, at most two one-step
tests per command with the values of spec/95_test_vectors.md, and a witness for the hypotheses of every statement. -/

open Sys2Proof Sys2Proof.Machine

namespace Sys2Proof.Tests

/-! ## Helpers -/

/-- Reset with a given DIN. -/
def given (d : Bytes) : State := { State.reset with din := d }

/-- Reset with bytes pushed into RXQ. -/
def received (d : Bytes) : State := { State.reset with rxq := pushBytes State.reset.rxq d }

/-- Reset with a command at the port. -/
def waiting (cw : U32) (d : Bytes) : State := { State.reset with port := [⟨cw, d⟩] }

/-- The output of the last command of a step. -/
def lastOut : Host.Outcome State Fault Refusal → Option Output
  | .next t => t.outs.getLast?
  | _ => none

/-- A field of the next state of a step. -/
def after {α : Type} (f : State → α) : Host.Outcome State Fault Refusal → Option α
  | .next t => some (f t)
  | _ => none

/-- The reply OK. -/
def ok (a : U32) (d : Bytes) : Option Output := some ⟨.ok, a, d⟩
/-- The reply FAIL. -/
def fail (a : U32) (d : Bytes) : Option Output := some ⟨.fail, a, d⟩
/-- The reply INV. -/
def inv (a : U32) (d : Bytes) : Option Output := some ⟨.inv, a, d⟩

/-- The frame of DOC's example (95 X1). -/
def frameX1 : Bytes := [0x5A#8, 0xA5#8, 0x04#8, 0x83#8, 0x00#8, 0x10#8, 0x04#8]
/-- The same payload with CRC (95 X2). -/
def frameX2 : Bytes := [0x5A#8, 0xA5#8, 0x06#8, 0x83#8, 0x00#8, 0x10#8, 0x04#8, 0x25#8, 0xA3#8]
/-- The frame of 95 V-CDC-13: one payload byte wrong. -/
def frameBad : Bytes := [0x5A#8, 0xA5#8, 0x06#8, 0x83#8, 0x00#8, 0x10#8, 0x05#8, 0x25#8, 0xA3#8]

/-! ## WellFormed: an ill-formed word for each check (95 section 2.1) -/

theorem test_smoke_opDefined : opDefined 0x57000000#32 = false ∧ legalWord 0x57000000#32 = false := by decide
theorem test_smoke_zClear : zClear 0x00010000#32 = false ∧ legalWord 0x00010000#32 = false := by decide
theorem test_smoke_uAdmitted : uAdmitted 0x10200000#32 = false ∧ legalWord 0x10200000#32 = false := by decide
theorem test_smoke_uAdmitted_kind : uAdmitted 0x42600000#32 = false ∧ legalWord 0x42600000#32 = false := by decide
theorem test_smoke_immAdmitted : immAdmitted 0x34000002#32 = false ∧ legalWord 0x34000002#32 = false := by decide
theorem test_legal_edge : legalWord 0x41F0FFFF#32 = true ∧ legalWord 0x41FFFFFF#32 = false := by decide

/-! ## PARAMS: a refused record for each condition of R276, and records at the edges -/

theorem test_params_hdr : paramsOk { Params.default with hdr := [] } = false ∧
    paramsOk { Params.default with hdr := [1#8, 2#8, 3#8, 4#8, 5#8] } = false := by decide
theorem test_params_lenW : paramsOk { Params.default with lenW := 0 } = false ∧
    paramsOk { Params.default with lenW := 5 } = false ∧ paramsOk { Params.default with lenW := 4 } = true := by decide
theorem test_params_queues : paramsOk { Params.default with rxqBytes := 0 } = false ∧
    paramsOk { Params.default with txqBytes := 65536 } = false ∧
    paramsOk { Params.default with txqBytes := 65535 } = true := by decide
theorem test_params_checkers : paramsOk { Params.default with checkers := [⟨1, []⟩] } = false ∧
    paramsOk { Params.default with checkers := [⟨255, []⟩] } = true := by decide
theorem test_params_custom : paramsOk { Params.default with custom := [⟨15, [], []⟩] } = false ∧
    paramsOk { Params.default with custom := [⟨16, [], []⟩] } = true := by decide
theorem test_params_lists : paramsOk { Params.default with itemLists := [] } = false := by decide
theorem test_params_widget : paramsOk { Params.default with widgetList := [(3#8, 16)] } = false := by decide
theorem test_params_commands : paramsOk { Params.default with cmdRd := 0x82#8 } = false := by decide
theorem test_params_table : paramsOk { Params.default with sysTable := some [⟨0xFFFF#16, 2, .sys, true, true⟩] } = false ∧
    paramsOk { Params.default with sysTable := some [⟨0xFFFF#16, 1, .sys, true, true⟩] } = true := by decide
theorem test_params_var : paramsOk { Params.default with varLen := 0xF001 } = false := by decide
theorem test_params_crcCfg : paramsOk { Params.default with crcCfg := some (0x0080#16, 16) } = false := by decide

/-! ## Decode: one word for every row of R94, written out from its OP, U and IMM -/

theorem test_decode_system : decodeTableWord 32 0x00000000 = some .nop := by decide

theorem test_decode_queue :
    decodeTableWord 32 0x10100104 = some (.qInit .tx 0x0104#16) ∧ decodeTableWord 32 0x11000000 = some (.qPush .rx) ∧
    decodeTableWord 32 0x12100000 = some (.qPop .tx) ∧ decodeTableWord 32 0x13000000 = some (.qPopv .rx) ∧
    decodeTableWord 32 0x141000FE = some (.qSetchk .tx 0xFE#8) ∧ decodeTableWord 32 0x15000000 = some (.qEmpty .rx) ∧
    decodeTableWord 32 0x16100000 = some (.qCount .tx) ∧ decodeTableWord 32 0x17000000 = some (.qClear .rx) ∧
    decodeTableWord 32 0x18100000 = some (.qSetcd .tx) ∧ decodeTableWord 32 0x19000000 = some (.qDeinit .rx) := by decide

theorem test_decode_crc :
    decodeTableWord 32 0x20100000 = some (.crcSeed .modbus) ∧ decodeTableWord 32 0x21000083 = some (.crcUpd 0x83#8) ∧
    decodeTableWord 32 0x22000000 = some .crcUpdn ∧ decodeTableWord 32 0x23000000 = some (.crcCalc .plain) ∧
    decodeTableWord 32 0x24000000 = some .crcRd := by decide

theorem test_decode_codec :
    decodeTableWord 32 0x30000000 = some .cdcSend ∧ decodeTableWord 32 0x31000000 = some .cdcSendp ∧
    decodeTableWord 32 0x32000000 = some .cdcRecv ∧ decodeTableWord 32 0x33000000 = some .cdcPoll ∧
    decodeTableWord 32 0x34000001 = some (.cdcSetcrc true) ∧ decodeTableWord 32 0x350000FF = some (.cdcSethdl 0xFF#8) ∧
    decodeTableWord 32 0x36000000 = some .cdcPhase := by decide

theorem test_decode_mapper_lists :
    decodeTableWord 32 0x40700000 = some (.mapParse 7#4) ∧
    decodeTableWord 32 0x41F0FFFF = some (.mapPrint 15#4 0xFFFF#16) := by decide

theorem test_decode_mapper_parsep :
    decodeTableWord 32 0x42000001 = some (.mapParsepUint 1#8) ∧ decodeTableWord 32 0x42100002 = some (.mapParsepI16 2#8) ∧
    decodeTableWord 32 0x42200003 = some (.mapParsepI32 3#8) ∧ decodeTableWord 32 0x42300004 = some (.mapParsepI64 4#8) ∧
    decodeTableWord 32 0x42400005 = some (.mapParsepF32 5#8) ∧
    decodeTableWord 32 0x425000FF = some (.mapParsepF64 0xFF#8) := by decide

theorem test_decode_mapper_printp :
    decodeTableWord 32 0x43000301 = some (.mapPrintpUint 3#8 1#8) ∧
    decodeTableWord 32 0x43100202 = some (.mapPrintpI16 2#8 2#8) ∧
    decodeTableWord 32 0x43200403 = some (.mapPrintpI32 4#8 3#8) ∧
    decodeTableWord 32 0x43300804 = some (.mapPrintpI64 8#8 4#8) ∧
    decodeTableWord 32 0x43400405 = some (.mapPrintpF32 4#8 5#8) ∧
    decodeTableWord 32 0x435008FF = some (.mapPrintpF64 8#8 0xFF#8) := by decide

theorem test_decode_mapper_target :
    decodeTableWord 32 0x44000005 = some (.mapTrd 5#8) ∧ decodeTableWord 32 0x45000006 = some (.mapTwr 6#8) := by decide

theorem test_decode_registry :
    decodeTableWord 32 0x50000000 = some .regSet ∧ decodeTableWord 32 0x51000000 = some .regGet ∧
    decodeTableWord 32 0x52000000 = some .regDisp ∧ decodeTableWord 32 0x5300000E = some (.rfRd 0x000E#16) ∧
    decodeTableWord 32 0x5400FFFF = some (.rfWr 0xFFFF#16) ∧ decodeTableWord 32 0x55000000 = some .wbAdd ∧
    decodeTableWord 32 0x56000000 = some .wbClr := by decide

/-- 95 section 2.1: illegal words. -/
theorem test_decode_refuses :
    decodeTableWord 32 0x01000000 = none ∧ decodeTableWord 32 0x11000001 = none ∧ decodeTableWord 32 0x14000100 = none ∧
    decodeTableWord 32 0x24100000 = none ∧ decodeTableWord 32 0x40000001 = none ∧ decodeTableWord 32 0x43F00000 = none ∧
    decodeTableWord 32 0x53100000 = none := by decide

/-! ## The step -/

/-- 60_exceptions R273. -/
theorem test_step_illegal : lastOut (step (waiting 0x00010000#32 [1#8])) = fail 0xFFFFFFFF#32 [] := by decide
theorem test_step_runs : lastOut (step (waiting 0x23100000#32 [0x00#8])) = ok 0x40BF#32 [] := by decide
theorem test_step_fetchWord :
    after (fun t => t.crcEn) (step (State.reset.withFetchWord 32 0x34000001)) = some true := by decide

/-! ## System and ring queue (95 section 2.2) -/

theorem test_nop : lastOut (exec .nop State.reset) = ok 0#32 [] := by decide
theorem test_qInit : lastOut (exec (.qInit .rx 5#16) (given [0#8, 2#8])) = ok 2#32 [] := by decide
theorem test_qInit_too_big : lastOut (exec (.qInit .rx 0x101#16) (given [0#8, 1#8])) = fail 0#32 [] := by decide
theorem test_qPush_evicts :
    lastOut (exec (.qPush .rx) { given [3#8] with
      rxq := pushBytes (initQueue State.reset.rxq 1 2) [1#8, 2#8] }) = ok 1#32 [] := by decide
theorem test_qPush_wrong_length : lastOut (exec (.qPush .rx) (given [1#8, 2#8])) = fail 0#32 [] := by decide
theorem test_qPop : lastOut (exec (.qPop .rx) (received [7#8, 8#8])) = ok 0#32 [7#8] := by decide
theorem test_qPop_empty : lastOut (exec (.qPop .rx) State.reset) = inv 0#32 [] := by decide
/-- V-Q-15. -/
theorem test_qPopv_resync : lastOut (exec (.qPopv .rx) (received [0x5A#8, 0#8, 0x5A#8, 0xA5#8, 0#8])) =
    ok 3#32 [0x5A#8, 0xA5#8, 0#8] := by decide
/-- V-Q-13. -/
theorem test_qPopv_incomplete : lastOut (exec (.qPopv .rx) (received [0#8, 0x11#8, 0x5A#8])) = inv 2#32 [] := by decide
theorem test_qSetchk_undefined : lastOut (exec (.qSetchk .rx 2#8) State.reset) = fail 0#32 [] := by decide
theorem test_qSetchk : after (fun t => t.txq.chk) (exec (.qSetchk .tx 1#8) State.reset) = some 1#8 := by decide
theorem test_qEmpty : lastOut (exec (.qEmpty .rx) State.reset) = ok 1#32 [] := by decide
theorem test_qCount : lastOut (exec (.qCount .rx) (received [1#8, 2#8])) = ok 2#32 [] := by decide
theorem test_qClear : after (fun t => (t.rxq.head, t.rxq.tail, t.rxq.cnt)) (exec (.qClear .rx) (received [1#8, 2#8])) =
    some (0#16, 0#16, 0#16) := by decide
theorem test_qSetcd : lastOut (exec (.qSetcd .rx) (given (List.replicate 17 0#8))) = fail 0#32 [] := by decide
theorem test_qDeinit : after (fun t => (t.rxq.cfg, t.rxq.chk)) (exec (.qDeinit .rx) State.reset) = some (false, 0#8) := by
  decide

/-! ## CRC16 (95 section 2.3) -/

theorem test_crcSeed : lastOut (exec (.crcSeed .modbus) State.reset) = ok 0xFFFF#32 [] := by decide
/-- V-CRC-02: T[0x80]. -/
theorem test_crcUpd : lastOut (exec (.crcUpd 0x80#8) State.reset) = ok 0xA001#32 [] := by decide
/-- V-CRC-06. -/
theorem test_crcUpdn : lastOut (exec .crcUpdn (given [0x83#8, 0x00#8, 0x10#8, 0x04#8])) = ok 0x8725#32 [] := by decide
/-- V-CRC-08. -/
theorem test_crcCalc : lastOut (exec (.crcCalc .modbus)
    (given [0x31#8, 0x32#8, 0x33#8, 0x34#8, 0x35#8, 0x36#8, 0x37#8, 0x38#8, 0x39#8])) = ok 0x4B37#32 [] := by decide
theorem test_crcRd : lastOut (exec .crcRd { State.reset with crcAcc := 0xA325#16 }) = ok 0xA325#32 [] := by decide

/-! ## Frame codec (95 section 1, 2.4) -/

theorem test_cdcSend : lastOut (exec .cdcSend (given [1#8, 2#8])) = ok 2#32 [] := by decide
/-- X1. -/
theorem test_cdcSendp : after (fun t => view t.txq) (exec .cdcSendp (given [0x83#8, 0x00#8, 0x10#8, 0x04#8])) =
    some (unitElems frameX1) := by decide
/-- X2. -/
theorem test_cdcSendp_crc :
    after (fun t => view t.txq) (exec .cdcSendp { given [0x83#8, 0x00#8, 0x10#8, 0x04#8] with crcEn := true }) =
      some (unitElems frameX2) := by decide
/-- X4. -/
theorem test_cdcRecv : lastOut (exec .cdcRecv { received frameX2 with crcEn := true, hdl := 0#8 }) =
    ok 9#32 [0x83#8, 0x00#8, 0x10#8, 0x04#8] := by decide
/-- V-CDC-13. -/
theorem test_cdcRecv_corrupted : lastOut (exec .cdcRecv { received frameBad with crcEn := true }) = fail 9#32 [] := by decide
/-- P1 steps 5 and 6, on register 0x0004. -/
theorem test_cdcPoll : after (fun t => view t.txq)
    (exec .cdcPoll (received [0x5A#8, 0xA5#8, 0x04#8, 0x83#8, 0x00#8, 0x04#8, 0x01#8])) =
      some (unitElems [0x5A#8, 0xA5#8, 0x06#8, 0x83#8, 0x00#8, 0x04#8, 0x01#8, 0x00#8, 0x00#8]) := by decide
theorem test_cdcPoll_counts : lastOut (exec .cdcPoll (received [0x5A#8, 0xA5#8, 0x00#8, 0x5A#8])) = inv 1#32 [] := by decide
theorem test_cdcSetcrc : after (fun t => t.crcEn) (exec (.cdcSetcrc true) State.reset) = some true := by decide
theorem test_cdcSethdl : after (fun t => t.hdl) (exec (.cdcSethdl 5#8) State.reset) = some 5#8 := by decide
/-- V-CDC-10. -/
theorem test_cdcPhase : lastOut (exec .cdcPhase (received [0x5A#8, 0xA5#8])) = ok 1#32 [] ∧
    lastOut (exec .cdcPhase (received [0x5A#8, 0xA5#8, 0x04#8])) = ok 2#32 [] := by decide
theorem test_cdcPhase_validating : lastOut (exec .cdcPhase (received frameX1)) = ok 3#32 [] := by decide

/-! ## Struct mapper (95 section 2.5) -/

section targets
set_option maxRecDepth 8000

/-- The lists of V-MAP-17 to V-MAP-24 that the tests use, and three lists (8 to 10) with a bad or a custom item behind a
good one. -/
def listParams : Params :=
  { Params.default with itemLists := [[⟨2#16, 0#8⟩], [⟨2#16, 0#8⟩, ⟨1#16, 0#8⟩, ⟨4#16, 2#8⟩], [⟨1#16, 6#8⟩], [], [], [],
    [⟨2#16, 0#8⟩, ⟨2#16, 0#8⟩, ⟨2#16, 0#8⟩], [⟨2#16, 17#8⟩], [⟨2#16, 0#8⟩, ⟨1#16, 6#8⟩], [⟨2#16, 0#8⟩, ⟨2#16, 17#8⟩],
    [⟨2#16, 17#8⟩, ⟨2#16, 0#8⟩, ⟨3#16, 17#8⟩]] ++ List.replicate 5 []
                        custom := [⟨17, [⟨0, [0#8, 7#8], .ok, [(0, 1007#64)]⟩, ⟨2, [1#8, 2#8, 3#8], .inv, []⟩],
                          [⟨0, 2, .ok, [1#8, 2#8, 3#8]⟩, ⟨1, 2, .ok, [1#8]⟩, ⟨2, 3, .inv, []⟩]⟩] }

/-- A state with those lists, a DIN and a value in slot 0. -/
def mapping (d : Bytes) (v : U64) : State :=
  { State.postInit listParams with din := d, tgt := tgtWrite freshTarget 0 v }

/-- V-MAP-22. -/
theorem test_mapParse_bound : lastOut (exec (.mapParse 6#4) (mapping [1#8, 2#8, 3#8, 4#8, 5#8] 0#64)) = fail 2#32 [] := by
  decide
/-- P3 step 1. -/
theorem test_mapParse : after (fun t => tgtRead t.tgt 2)
    (exec (.mapParse 1#4) (mapping [0x04#8, 0xD2#8, 0x07#8, 0xFF#8, 0xFF#8, 0xFB#8, 0x2E#8] 0#64)) =
      some 0xFFFFFFFFFFFFFB2E#64 := by decide
theorem test_mapPrint : lastOut (exec (.mapPrint 1#4 8#16) (mapping [] 0x4D2#64)) =
    ok 7#32 [0x04#8, 0xD2#8, 0#8, 0#8, 0#8, 0#8, 0#8, 0#8] := by decide
/-- V-MAP-24. -/
theorem test_mapPrint_contract : after (fun t => (t.fault, t.outs.getLast?)) (exec (.mapPrint 7#4 4#16) (mapping [] 0#64)) =
    some (some .customContract, fail 2#32 []) := by decide
theorem test_mapParsepUint : after (fun t => tgtRead t.tgt 2) (exec (.mapParsepUint 2#8) (given [0x12#8, 0x34#8])) =
    some 0x1234#64 := by decide
theorem test_mapParsepI16 : after (fun t => tgtRead t.tgt 0) (exec (.mapParsepI16 0#8) (given [0x80#8, 0x00#8])) =
    some 0xFFFFFFFFFFFF8000#64 := by decide
theorem test_mapParsepI32 :
    after (fun t => tgtRead t.tgt 0) (exec (.mapParsepI32 0#8) (given [0x80#8, 0#8, 0#8, 0#8])) =
      some 0xFFFFFFFF80000000#64 := by decide
theorem test_mapParsepI64 :
    after (fun t => tgtRead t.tgt 0) (exec (.mapParsepI64 0#8) (given (0x80#8 :: List.replicate 7 0#8))) =
      some 0x8000000000000000#64 := by decide
theorem test_mapParsepF32 :
    after (fun t => tgtRead t.tgt 0) (exec (.mapParsepF32 0#8) (given [0xFF#8, 0xC0#8, 0#8, 1#8])) =
      some 0x00000000FFC00001#64 := by decide
theorem test_mapParsepF64 : lastOut (exec (.mapParsepF64 0#8) (given (List.replicate 7 0#8))) = fail 0#32 [] := by decide
theorem test_mapPrintpUint : lastOut (exec (.mapPrintpUint 1#8 0#8) (mapping [] 0x1234#64)) = ok 1#32 [0x34#8] := by decide
theorem test_mapPrintpUint_len9 : lastOut (exec (.mapPrintpUint 9#8 0#8) State.reset) = fail 0#32 [] := by decide
theorem test_mapPrintpI16 : lastOut (exec (.mapPrintpI16 2#8 0#8) (mapping [] 0x9C40#64)) =
    ok 2#32 [0x9C#8, 0x40#8] := by decide
theorem test_mapPrintpI32 : lastOut (exec (.mapPrintpI32 4#8 0#8) (mapping [] 0xFFFFFFFFFFFFFB2E#64)) =
    ok 4#32 [0xFF#8, 0xFF#8, 0xFB#8, 0x2E#8] := by decide
theorem test_mapPrintpI64 : lastOut (exec (.mapPrintpI64 8#8 0#8) (mapping [] 0xFFFFFFFFFFFFFFFF#64)) =
    ok 8#32 (List.replicate 8 0xFF#8) := by decide
theorem test_mapPrintpF32 : lastOut (exec (.mapPrintpF32 4#8 0#8) (mapping [] 0x7FC00001#64)) =
    ok 4#32 [0x7F#8, 0xC0#8, 0x00#8, 0x01#8] := by decide
theorem test_mapPrintpF64 : lastOut (exec (.mapPrintpF64 4#8 0#8) State.reset) = fail 0#32 [] := by decide
/-- V-MAP-11. -/
theorem test_mapTrd : lastOut (exec (.mapTrd 0#8) (mapping [] 0xFFFFFFFFFFFF9C40#64)) =
    ok 0xFFFF9C40#32 [0xFF#8, 0xFF#8, 0xFF#8, 0xFF#8, 0xFF#8, 0xFF#8, 0x9C#8, 0x40#8] := by decide
theorem test_mapTwr : after (fun t => tgtRead t.tgt 255)
    (exec (.mapTwr 255#8) (given [0#8, 0#8, 0#8, 0#8, 0#8, 0#8, 0x04#8, 0xD2#8])) = some 1234#64 := by decide

/-! ## Address registry (95 section 1, 2.6) -/

/-- The binding of X6 and P5, and its PARAMS. -/
def bindingX6 : Binding := { handle := 7#16, priority := 0#8, type := 2#8, sp := 0x2000#16, lenDsc := 2#16, vp := 0x3000#16 }

/-- PARAMS of X6, with CRC_CFG of V-REG-22. -/
def bindParams : Params :=
  { Params.default with itemLists := [[], [], [⟨2#16, 0#8⟩, ⟨2#16, 1#8⟩]] ++ List.replicate 13 []
                        widgetList := [(2#8, 2)]
                        crcCfg := some (0x0080#16, 0) }

/-- A state with that binding and a DIN. -/
def bound (d : Bytes) : State := { State.postInit bindParams with wb := [bindingX6], din := d }

/-- X6, VP write. -/
theorem test_regSet_scalar : after (fun t => t.evt) (exec .regSet (bound [0x30#8, 0x00#8, 0xAB#8, 0xCD#8])) =
    some [.setScalar 7#16 0xABCD#16] := by decide
/-- X6, write inside the SP range. -/
theorem test_regSet_record : after (fun t => t.evt) (exec .regSet (bound [0x20#8, 0x01#8, 0xFF#8, 0xFE#8])) =
    some [.setRecord 7#16 2#8 [0#64, 0xFFFFFFFFFFFFFFFE#64]] := by decide
/-- V-REG-11: nothing past the top of RF. -/
theorem test_regGet_top :
    lastOut (exec .regGet { given [0xFF#8, 0xFF#8, 2#8] with rf := [(0x1FFFE, 0x11#8), (0x1FFFF, 0x22#8)] }) =
      ok 8#32 [0x83#8, 0xFF#8, 0xFF#8, 2#8, 0x11#8, 0x22#8, 0#8, 0#8] := by decide
theorem test_regGet_short : lastOut (exec .regGet (given [0#8, 0x10#8])) = fail 0#32 [] := by decide
/-- V-REG-15. -/
theorem test_regDisp_read : after (fun t => (t.outs.getLast?, view t.txq))
    (exec .regDisp (given [0x83#8, 0x00#8, 0x04#8, 0x01#8])) =
      some (ok 9#32 [0x83#8, 0x00#8, 0x04#8, 0x01#8, 0#8, 0#8],
        unitElems [0x5A#8, 0xA5#8, 0x06#8, 0x83#8, 0x00#8, 0x04#8, 0x01#8, 0#8, 0#8]) := by decide
/-- V-REG-13. -/
theorem test_regDisp_write_short : lastOut (exec .regDisp (given [0x82#8, 0x00#8])) = fail 0#32 [] := by decide
theorem test_rfRd : lastOut (exec (.rfRd 0x1000#16) { State.reset with rf := [(0x2000, 0xAB#8)] }) =
    ok 0xAB00#32 [0xAB#8, 0x00#8] := by decide
theorem test_rfWr : after (fun t => t.rf) (exec (.rfWr 0xFFFF#16) (given [0x11#8, 0x00#8])) = some [(0x1FFFE, 0x11#8)] := by
  decide
theorem test_wbAdd : after (fun t => t.wb)
    (exec .wbAdd (given [0#8, 7#8, 0#8, 2#8, 0x20#8, 0#8, 0#8, 2#8, 0x30#8, 0#8])) = some [bindingX6] := by decide
theorem test_wbClr : after (fun t => t.wb) (exec .wbClr (bound [])) = some [] := by decide

end targets

/-! ## Witnesses: a concrete state and operands for the hypotheses of each statement, clause by clause -/

section witnesses
set_option maxRecDepth 8000

/-- RXQ of reset holding X1's frame. -/
def queueX1 : QState := pushBytes State.reset.rxq frameX1
/-- A full queue of two one-byte elements with no checker, in 256 bytes. -/
def queueFull : QState := pushBytes (initQueue State.reset.rxq 1 2) [1#8, 2#8]
/-- A queue of two-byte elements with one of them. -/
def queueWide : QState := pushElem (initQueue State.reset.txq 2 8) [1#8, 2#8]
/-- A torn-down queue. -/
def queueDown : QState := { State.reset.rxq with cfg := false, chk := 0#8 }

/-- A PARAMS whose checker 2 returns OK(0), and a machine with it on RXQ. -/
def breakingParams : Params := { Params.default with checkers := [⟨2, [⟨[[1#8]], none, .ok 0⟩]⟩] }
def breaking : State :=
  { State.postInit breakingParams with rxq := { pushBytes State.reset.rxq [1#8] with chk := 2#8 } }

theorem inv_queueX1 : QueueInv Params.default 256 queueX1 :=
  ⟨by decide, by decide, by decide, by decide, by decide, by decide, by decide⟩
theorem inv_queueFull : QueueInv Params.default 256 queueFull :=
  ⟨by decide, by decide, by decide, by decide, by decide, by decide, by decide⟩
theorem inv_queueWide : QueueInv Params.default 256 queueWide :=
  ⟨by decide, by decide, by decide, by decide, by decide, by decide, by decide⟩
theorem inv_queueDown : QueueInv Params.default 256 queueDown :=
  ⟨by decide, by decide, by decide, by decide, by decide, by decide, by decide⟩
theorem inv_received : StateInv (received frameX1) :=
  ⟨by decide, inv_queueX1, ⟨by decide, by decide, by decide, by decide, by decide, by decide, by decide⟩, by decide,
    by decide, by decide⟩

theorem witness_EncodeOfDecodeIsTheWord : decode 0x42200007#32 = .ok (.mapParsepI32 7#8) := rfl

theorem witness_IllegalWordFailsAndChangesNothing :
    Running (waiting 0x00010000#32 [1#8]) ∧ (waiting 0x00010000#32 [1#8]).port = [⟨0x00010000#32, [1#8]⟩] ∧
      legalWord 0x00010000#32 = false := by decide

theorem witness_StepRunsTheDecodedCommand :
    Running (waiting 0x24000000#32 []) ∧ (waiting 0x24000000#32 []).port = [⟨0x24000000#32, []⟩] ∧
      decode 0x24000000#32 = .ok .crcRd := ⟨rfl, rfl, rfl⟩

theorem witness_FaultedMachineHasNoStep :
    ({ State.reset with fault := some .checkerContract } : State).fault = some .checkerContract := rfl

theorem witness_IdleMachineKeepsItsState : Running State.reset ∧ State.reset.port = [] := ⟨rfl, rfl⟩

/-- NOP meets the premise of every clause; REG.SET without CRC_CFG the second one's other side. -/
theorem witness_EachFieldHasOnlyItsWriters :
    (∃ t, exec .nop State.reset = .next t) ∧ ¬WritesCrcAcc .nop ∧ (∀ e, Instr.nop ≠ .cdcSetcrc e) ∧
      ¬RunsRegisterWrite .nop ∧ (∀ d, Instr.nop ≠ .cdcSethdl d) ∧ (∀ r, Instr.nop ≠ .rfWr r) ∧ Instr.nop ≠ .wbAdd ∧
      Instr.nop ≠ .wbClr ∧ ¬WritesTgt .nop ∧ ¬CanFault .nop ∧ (∀ q, ¬WritesQueue q .nop) ∧
      (∃ t, exec .regSet (given [0#8, 4#8, 0#8, 1#8]) = .next t) ∧ (∀ e, Instr.regSet ≠ .cdcSetcrc e) ∧
      (given [0#8, 4#8, 0#8, 1#8]).params.crcCfg = none :=
  ⟨⟨_, rfl⟩, id, (fun _ h => nomatch h), id, (fun _ h => nomatch h), (fun _ h => nomatch h), (fun h => nomatch h),
    (fun h => nomatch h), id, id, (fun _ => id), ⟨_, rfl⟩, (fun _ h => nomatch h), rfl⟩

theorem witness_ReadingCommandsChangeNothing :
    ReadsOnly (.mapPrint 1#4 8#16) ∧ Running (mapping [] 1#64) ∧
      ∃ t, exec (.mapPrint 1#4 8#16) (mapping [] 1#64) = .next t ∧ Running t := ⟨trivial, rfl, _, rfl, rfl⟩

theorem witness_CrcAccIsInvisibleToOtherUnits :
    ¬WritesCrcAcc .cdcSendp ∧ Instr.cdcSendp ≠ .crcRd ∧ ∃ t, exec .cdcSendp (given [1#8]) = .next t :=
  ⟨id, (fun h => nomatch h), _, rfl⟩

theorem witness_PriorityIsNeverRead : ∃ t, exec .regSet (bound [0x30#8, 0#8, 1#8, 2#8]) = .next t := ⟨_, rfl⟩

theorem witness_ResetLeavesTheListedValues : paramsOk bindParams = true ∧ paramsOk Params.default = true := by decide

/-- The reset state has the default SYS_TABLE. -/
theorem witness_ResetParamsAreTheListedDefaults : State.reset.params.sysTable = none := rfl

/-- A record refused by each condition, and one that none refuses. -/
theorem witness_ParamsOutOfRangeNeverRun :
    ParamsRefused { Params.default with hdr := [] } ∧ ParamsRefused { Params.default with txqBytes := 65536 } ∧
      ParamsRefused { Params.default with checkers := [⟨1, []⟩] } ∧
      ParamsRefused { Params.default with custom := [⟨256, [], []⟩] } ∧
      ParamsRefused { Params.default with itemLists := [] } ∧
      ParamsRefused { Params.default with widgetList := [(0#8, 16)] } ∧
      ParamsRefused { Params.default with cmdRd := 0x82#8 } ∧
      ParamsRefused { Params.default with sysTable := some [⟨0xFFFF#16, 2, .sys, true, true⟩] } ∧
      ParamsRefused { Params.default with varLen := 0xF001 } ∧
      ParamsRefused { Params.default with crcCfg := some (0#16, 16) } ∧ ¬ParamsRefused Params.default := by
  simp [ParamsRefused, Params.default]

theorem witness_EveryStartMeetsTheInvariant : paramsOk bindParams = true := by decide

theorem witness_EveryStepKeepsTheInvariant :
    StateInv { received frameX1 with port := [⟨0x33000000#32, []⟩] } ∧
      ∃ t, step { received frameX1 with port := [⟨0x33000000#32, []⟩] } = .next t :=
  ⟨inv_received.of_fields rfl rfl rfl rfl rfl, _, rfl⟩

theorem witness_UnconfiguredQueueFails :
    Instr.qPop .rx ∈ [Instr.qPush .rx, .qPop .rx, .qPopv .rx, .qSetchk .rx 0#8, .qEmpty .rx, .qCount .rx, .qClear .rx,
      .qSetcd .rx, .qDeinit .rx] ∧ (({ State.reset with rxq := queueDown } : State).queue .rx).cfg = false := by decide

/-- Q.INIT: the largest byte_size that fits, the smallest queue, each refusal at its edge, a DIN of another length. -/
theorem witness_QInitBuildsAFreshQueue :
    (given [1#8, 0#8]).din = [1#8, 0#8] ∧ (1#8).toNat * 256 + (0#8).toNat = 256 ∧
      (256#16).toNat = queueBytes (given [1#8, 0#8]).params .rx ∧
      (given [0#8, 0#8]).din = [0#8, 0#8] ∧ (0#8).toNat * 256 + (0#8).toNat = 0 ∧
      (given [1#8, 1#8]).din = [1#8, 1#8] ∧ (256#16).toNat < (1#8).toNat * 256 + (1#8).toNat ∧
      queueBytes (given [0#8, 1#8]).params .rx < (257#16).toNat ∧ (0#16).toNat = 0 ∧
      (given [1#8]).din.length ≠ 2 := by decide

/-- Q.PUSH: a full queue, one with room, an item of another length. -/
theorem witness_QPushAppendsTheItem :
    (QueueInv Params.default 256 queueFull ∧ queueFull.cfg = true ∧ (given [9#8]).din.length = queueFull.isz.toNat ∧
        queueFull.cnt = queueFull.maxc) ∧
      (QueueInv Params.default 256 queueWide ∧ queueWide.cfg = true ∧
        (given [8#8, 9#8]).din.length = queueWide.isz.toNat ∧ queueWide.cnt ≠ queueWide.maxc) ∧
      (given [8#8]).din.length ≠ queueWide.isz.toNat :=
  ⟨⟨inv_queueFull, by decide⟩, ⟨inv_queueWide, by decide⟩, by decide⟩

/-- Q.POP: an empty queue, a queue with elements. -/
theorem witness_QPopTakesTheOldest :
    (QueueInv Params.default 256 (initQueue queueDown 1 4) ∧ (initQueue queueDown 1 4).cfg = true ∧
        view (initQueue queueDown 1 4) = []) ∧
      (QueueInv Params.default 256 queueFull ∧ queueFull.cfg = true ∧ view queueFull = [1#8] :: [[2#8]]) :=
  ⟨⟨⟨by decide, by decide, by decide, by decide, by decide, by decide, by decide⟩, by decide⟩, inv_queueFull, by decide⟩

/-- A broken checker contract, for Q.POPV and, RXQ being of one-byte elements, for CDC.RECV. -/
theorem witness_QPopvIsReassemblyOfTheContents_fault :
    QueueInv breakingParams 256 breaking.rxq ∧ breaking.rxq.cfg = true ∧ breaking.rxq.chk ≠ 0#8 ∧ view breaking.rxq ≠ [] ∧
      reassemble (checkList breaking breaking.rxq) 1 0 (view breaking.rxq) = .faulted [[1#8]] :=
  ⟨⟨by decide, by decide, by decide, by decide, by decide, by decide, by decide⟩, by decide, by decide, by decide, rfl⟩

/-- Q.POPV: no checker; a checker on an empty queue; a checker on elements. -/
theorem witness_QPopvIsReassemblyOfTheContents :
    (QueueInv Params.default 256 queueFull ∧ queueFull.cfg = true ∧ queueFull.chk = 0#8) ∧
      (QueueInv Params.default 256 State.reset.rxq ∧ State.reset.rxq.cfg = true ∧ State.reset.rxq.chk ≠ 0#8 ∧
        view State.reset.rxq = []) ∧
      (QueueInv Params.default 256 queueX1 ∧ queueX1.cfg = true ∧ queueX1.chk ≠ 0#8 ∧ view queueX1 ≠ []) :=
  ⟨⟨inv_queueFull, by decide⟩,
    ⟨⟨by decide, by decide, by decide, by decide, by decide, by decide, by decide⟩, by decide⟩, inv_queueX1, by decide⟩

/-- Q.SETCHK at ids 0, 1 and 2; Q.SETCD at lengths 0, CD_MAX and CD_MAX + 1. -/
theorem witness_QSetchkAndQSetcdSetTheirField :
    queueWide.cfg = true ∧ queueX1.cfg = true ∧
      (2 ≤ (2#8).toNat ∧ ¬(∃ d ∈ Params.default.checkers, d.id = (2#8).toNat)) ∧
      ((1#8) = 1#8 ∧ queueWide.isz ≠ 1#16) ∧
      ((2 ≤ (1#8).toNat → ∃ d ∈ Params.default.checkers, d.id = (1#8).toNat) ∧ ((1#8) = 1#8 → queueX1.isz = 1#16)) ∧
      (given (List.replicate 17 0#8)).params.cdMax < (given (List.replicate 17 0#8)).din.length ∧ (given []).din = [] ∧
      (given (List.replicate 16 0#8)).din ≠ [] ∧ (given (List.replicate 16 0#8)).din.length ≤ Params.default.cdMax := by
  decide

theorem witness_QEmptyAndQCountReport :
    (State.reset.queue .rx).cfg = true ∧ view (State.reset.queue .rx) = [] ∧
      ((received frameX1).queue .rx).cfg = true ∧ view ((received frameX1).queue .rx) ≠ [] := by decide

theorem witness_QClearAndQDeinitEmptyTheQueue : (received frameX1).queue .rx = queueX1 ∧ queueX1.cfg = true := by decide

theorem witness_ElementsLeaveOldestFirst :
    StateInv (received frameX1) ∧ (∃ t, exec .cdcPoll (received frameX1) = .next t) ∧ ¬AddsOrResets .rx .cdcPoll :=
  ⟨inv_received, ⟨_, rfl⟩, fun h => nomatch h⟩

theorem witness_CrcOfAnySplitIsTheCrcOfTheWhole :
    Running { State.reset with port := [⟨encode (.crcSeed .modbus), []⟩, ⟨encode (.crcUpd 1#8), []⟩, ⟨encode .crcUpdn, [2#8, 3#8]⟩] } ∧
      [(⟨encode (.crcSeed .modbus), []⟩ : Command), ⟨encode (.crcUpd 1#8), []⟩, ⟨encode .crcUpdn, [2#8, 3#8]⟩] =
        ⟨encode (.crcSeed .modbus), []⟩ :: [Piece.byte 1#8, Piece.bytes [2#8, 3#8]].map Piece.command := ⟨rfl, rfl⟩

/-- CDC.SEND on a usable TXQ, on one of two-byte elements, on one torn down. -/
theorem witness_CdcSendPushesTheBytes :
    (QueueInv Params.default 256 queueX1 ∧ queueX1.cfg = true ∧ queueX1.isz = 1#16) ∧
      (QueueInv Params.default 256 queueWide ∧ queueWide.isz ≠ 1#16) ∧
      (QueueInv Params.default 256 queueDown ∧ queueDown.cfg = false) :=
  ⟨⟨inv_queueX1, by decide⟩, ⟨inv_queueWide, by decide⟩, inv_queueDown, by decide⟩

/-- CDC.SENDP with CRC at 253 bytes, the longest payload, and at 254. -/
theorem witness_CdcSendpPushesTheFrame :
    QueueInv Params.default 256 queueX1 ∧ queueX1.cfg = true ∧ queueX1.isz = 1#16 ∧
      (List.replicate 253 0#8).length + 2 < 2 ^ (8 * Params.default.lenW) ∧
      2 ^ (8 * Params.default.lenW) ≤ (List.replicate 254 0#8).length + 2 := ⟨inv_queueX1, by simp [Params.default]; decide⟩

/-- FRAME: a wrong header; half a header; a header with no length; too short; whole; CRC with L = 1; CRC. -/
theorem witness_FrameCheckerFollowsItsSteps :
    [0x5A#8, 0x00#8].take 2 ≠ Params.default.hdr.take [0x5A#8, 0x00#8].length ∧
      ([0x5A#8].length < Params.default.hdr.length ∧ [0x5A#8] = Params.default.hdr.take [0x5A#8].length) ∧
      (Params.default.hdr.length ≤ [0x5A#8, 0xA5#8].length ∧ [0x5A#8, 0xA5#8].take 2 = Params.default.hdr ∧
        [0x5A#8, 0xA5#8].length < Params.default.hdr.length + Params.default.lenW) ∧
      ([0x01#8].length = Params.default.lenW ∧ ([] : Bytes).length < unBE [0x01#8]) ∧ unBE [0x01#8] ≤ [0x00#8].length ∧
      unBE [0x01#8] < 2 ∧ (unBE [0x02#8] = ([] : Bytes).length + 2 ∧ [0xFF#8, 0xFF#8] = [] ++ [0xFF#8, 0xFF#8] ++ []) := by
  decide

/-- CDC.RECV: an unusable RXQ, an empty one, and each handler on a whole frame; FAIL and INV endings are the views of
V-Q-13 and V-Q-14. -/
theorem witness_CdcRecvReassemblesThenHandles :
    (QueueInv Params.default 256 queueDown ∧ queueDown.cfg = false) ∧
      (QueueInv Params.default 256 queueX1 ∧ queueX1.cfg = true ∧ queueX1.isz = 1#16 ∧ queueX1.chk ≠ 0#8 ∧
        view queueX1 ≠ []) ∧
      (QueueInv Params.default 256 State.reset.rxq ∧ view State.reset.rxq = []) ∧
      (match reassemble (checkList State.reset queueX1) 7 0 (view queueX1) with
        | .returned _ r a _ => r = .ok ∧ a = 7
        | .faulted _ => False) ∧
      (received frameX1).hdl = 1#8 ∧ ({ received frameX1 with hdl := 0#8 } : State).hdl = 0#8 ∧
      2 ≤ ({ received frameX1 with hdl := 2#8 } : State).hdl.toNat :=
  ⟨⟨inv_queueDown, by decide⟩, ⟨inv_queueX1, by decide⟩,
    ⟨⟨by decide, by decide, by decide, by decide, by decide, by decide, by decide⟩, by decide⟩, ⟨rfl, rfl⟩, by decide⟩

/-- CDC.POLL: a state whose first CDC.RECV is OK, one where it is INV, and one where it ends in a fault. -/
theorem witness_CdcPollIsRepeatedRecv :
    (Running (received frameX1) ∧ ∃ t, exec .cdcRecv (received frameX1) = .next t ∧ t.fault = none) ∧
      (Running State.reset ∧ lastOut (exec .cdcRecv State.reset) = inv 0#32 []) ∧
      lastOut (exec .cdcRecv (received frameX1)) = ok 7#32 [0x83#8, 0x00#8, 0x10#8, 0x04#8] ∧
      (Running breaking ∧ ∃ t, exec .cdcRecv breaking = .next t ∧ t.fault = some .checkerContract) :=
  ⟨⟨rfl, _, rfl, rfl⟩, ⟨rfl, by decide⟩, by decide, rfl, _, rfl, rfl⟩

theorem witness_CdcPollEndsUnderTheFrameChecker :
    StateInv (received frameX1) ∧ (received frameX1).rxq.cfg = true ∧ (received frameX1).rxq.isz = 1#16 ∧
      (received frameX1).rxq.chk = 1#8 ∧ StateInv { received frameX1 with rxq := queueDown } ∧ queueDown.cfg = false :=
  ⟨inv_received, rfl, rfl, rfl, inv_received.withQueue (q := .rx) inv_queueDown, rfl⟩

/-- CDC.PHASE: a non-empty queue of two-byte elements; one view for each code, the declared length at the bytes at hand and
one past them. -/
theorem witness_CdcPhaseReadsTheReceiveSide :
    (queueWide.isz ≠ 1#16 ∧ view queueWide ≠ []) ∧ view (received frameX1).rxq = unitElems frameX1 ∧
      (received frameX1).rxq.cfg = true ∧ (received frameX1).rxq.isz = 1#16 ∧ frameX1 = Params.default.hdr ++ [4#8] ++ [0x83#8, 0x00#8, 0x10#8, 0x04#8] ∧
      view (received [0x5A#8]).rxq = unitElems [0x5A#8] ∧ ¬Params.default.hdr <+: [0x5A#8] ∧
      Params.default.hdr <+: [0x5A#8, 0xA5#8] ∧ [0x5A#8, 0xA5#8].length < 2 + 1 ∧
      ([0x83#8, 0x00#8, 0x10#8] : Bytes).length < unBE [4#8] := by decide

/-- X4's frame at the receiver, with CRC and with HDL = 0; X3's without CRC. -/
theorem witness_RecvOfAPackedFrameIsThePayload :
    QueueInv Params.default 256 (received frameX2).rxq ∧ (received frameX2).rxq.chk = 1#8 ∧
      Params.default.validOnly = true ∧ 1 ≤ Params.default.hdr.length ∧
      pack Params.default true [0x83#8, 0x00#8, 0x10#8, 0x04#8] = some frameX2 ∧
      view (received frameX2).rxq = unitElems frameX2 ∧
      pack Params.default false [0x83#8, 0x00#8, 0x10#8, 0x04#8] = some frameX1 ∧
      view (received frameX1).rxq = unitElems frameX1 :=
  ⟨⟨by decide, by decide, by decide, by decide, by decide, by decide, by decide⟩, by decide⟩

/-- V-CDC-13: 04 replaced by 05 in X2's frame. -/
theorem witness_OneWrongPayloadByteFailsTheFrame :
    (0x04#8 : Byte) ≠ 0x05#8 ∧ ({ received frameBad with crcEn := true } : State).crcEn = true ∧
      pack Params.default true ([0x83#8, 0x00#8, 0x10#8] ++ 0x04#8 :: []) = some frameX2 ∧
      frameBad = Params.default.hdr ++ be Params.default.lenW (([0x83#8, 0x00#8, 0x10#8] ++ 0x04#8 :: []).length + 2) ++
        ([0x83#8, 0x00#8, 0x10#8] ++ 0x05#8 :: []) ++ crcWire ([0x83#8, 0x00#8, 0x10#8] ++ 0x04#8 :: []) ∧
      (received frameBad).rxq.chk = 1#8 ∧ view (received frameBad).rxq = unitElems frameBad := by decide

/-- A full RXQ of 4 bytes whose header declares one byte more than fits (V-CDC-20's shape). -/
theorem witness_FrameLongerThanRxqStalls :
    QueueInv Params.default 256
        { pushBytes (initQueue State.reset.rxq 1 4) [0x5A#8, 0xA5#8, 2#8, 0#8] with chk := 1#8 } ∧
      view { pushBytes (initQueue State.reset.rxq 1 4) [0x5A#8, 0xA5#8, 2#8, 0#8] with chk := 1#8 } =
        unitElems (Params.default.hdr ++ [2#8] ++ [0#8]) ∧
      [2#8].length = Params.default.lenW ∧ (4#16).toNat < Params.default.hdr.length + Params.default.lenW + unBE [2#8] :=
  ⟨⟨by decide, by decide, by decide, by decide, by decide, by decide, by decide⟩, by decide⟩

/-- MAP.PARSEP and MAP.PRINTP: each kind at a length it takes, at both edges of UINT and past them. -/
theorem witness_ParsepAndPrintp :
    (primLenOk .uint 1 = true ∧ primLenOk .uint 8 = true ∧ primLenOk .uint 0 = false ∧ primLenOk .uint 9 = false) ∧
      (primLenOk .i16 2 = true ∧ primLenOk .i32 4 = true ∧ primLenOk .i64 8 = true ∧ primLenOk .f32 4 = true ∧
        primLenOk .f64 8 = true) ∧ primLenOk .i16 1 = false ∧ primLenOk .f64 7 = false ∧
      Instr.mapParsepI32 7#8 = parsepOf .i32 7#8 ∧ Instr.mapPrintpF64 8#8 3#8 = printpOf .f64 8#8 3#8 := by decide

theorem witness_TwrThenTrdGivesTheBytes :
    (given (List.replicate 8 1#8)).din.length = 8 ∧ (given (List.replicate 7 1#8)).din.length ≠ 8 := by decide

/-- List 6 of V-MAP-22: three items of two bytes, against buffers of 6 and of 5 bytes. -/
theorem goodUint : GoodItem listParams ⟨2#16, 0#8⟩ := ⟨rfl, .uint, rfl, rfl⟩

/-- List 6 under MAP.PARSE and MAP.PRINT, at the last buffer it fits and one byte less; list 10: a custom item that parses
and one that answers INV behind two that do. -/
theorem witness_MapParseAndMapPrintBounds :
    itemsOf listParams 6 = [⟨2#16, 0#8⟩, ⟨2#16, 0#8⟩, ⟨2#16, 0#8⟩] ∧ (itemsOf listParams 6).length ≤ 255 ∧
      lenSum (itemsOf listParams 6) 3 ≤ 6 ∧ 5 < lenSum (itemsOf listParams 6) 3 ∧ lenSum (itemsOf listParams 6) 2 ≤ 5 ∧
      (itemsOf listParams 10).length ≤ 255 ∧
      lastOut (exec (.mapParse 10#4) (mapping [0#8, 7#8, 0#8, 9#8, 1#8, 2#8, 3#8] 0#64)) = inv 2#32 [] ∧
      after (fun t => tgtRead t.tgt 0) (exec (.mapParse 10#4) (mapping [0#8, 7#8, 0#8, 9#8, 1#8, 2#8, 3#8] 0#64)) =
        some 1007#64 := by
  decide

/-- An item of one custom kind: OK with a new target, INV; and a print of the wrong length. -/
theorem witness_ItemParsesAndItemPrints :
    ItemParses listParams ⟨2#16, 17#8⟩ 0 [0#8, 7#8] freshTarget .ok (tgtWrite freshTarget 0 1007#64) ∧
      ItemParses listParams ⟨3#16, 17#8⟩ 2 [1#8, 2#8, 3#8] freshTarget .inv freshTarget ∧
      ItemPrints listParams freshTarget ⟨2#16, 17#8⟩ 1 .ok [1#8] ∧ ItemPrints listParams freshTarget ⟨3#16, 17#8⟩ 2 .inv [] :=
  ⟨rfl, rfl, rfl, rfl⟩

/-- The reserved kind 6, as the first item of list 2 and behind a good item in list 8; an I16 item of one byte. -/
theorem witness_ItemOfABadKindFails :
    itemsOf listParams 2 = [] ++ ⟨1#16, 6#8⟩ :: [] ∧ itemsOf listParams 8 = [⟨2#16, 0#8⟩] ++ ⟨1#16, 6#8⟩ :: [] ∧
      (∀ x ∈ [(⟨2#16, 0#8⟩ : Item)], GoodItem listParams x) ∧ customOf listParams 6#8 = none ∧ primOfCode 6#8 = none ∧
      lenSum [⟨2#16, 0#8⟩] 1 + (1#16).toNat ≤ (mapping [9#8, 9#8, 9#8] 0#64).din.length ∧
      primOfCode 1#8 = some .i16 ∧ primLenOk .i16 (1#16).toNat = false :=
  ⟨by decide, by decide, by simpa using goodUint, by decide⟩

/-- V-MAP-24, and the same kind behind a good item in list 9. -/
theorem witness_CustomPrintOfWrongLengthFaults :
    itemsOf listParams 7 = [] ++ ⟨2#16, 17#8⟩ :: [] ∧ itemsOf listParams 9 = [⟨2#16, 0#8⟩] ++ ⟨2#16, 17#8⟩ :: [] ∧
      (∀ x ∈ [(⟨2#16, 0#8⟩ : Item)], GoodItem listParams x) ∧ lenSum [⟨2#16, 0#8⟩] 1 + (2#16).toNat ≤ (4#16).toNat ∧
      ∃ d, customOf listParams 17#8 = some d ∧ customPrint d 17#8 freshTarget 0 2 = (.ok, [1#8, 2#8, 3#8]) ∧
        customPrint d 17#8 freshTarget 1 2 = (.ok, [1#8]) ∧ [1#8, 2#8, 3#8].length ≠ (2#16).toNat ∧
        [1#8].length ≠ (2#16).toNat :=
  ⟨by decide, by decide, by simpa using goodUint, by decide, _, rfl, rfl, rfl, by decide, by decide⟩

/-- The first entry of the default table owns register 0x0004; nothing covers 0x0011. -/
theorem owns_0004 : Owns bindParams 0x0004 ⟨0x0004#16, 1, .sys, true, true⟩ :=
  ⟨[], (sysTableOf bindParams).tail, rfl, by decide, by simp⟩

theorem unmatched_0011 : Unmatched bindParams 0x0011 := by
  unfold Unmatched
  decide

/-- The VAR window owns its last register, 0xFFFF. -/
theorem owns_FFFF : Owns bindParams 0xFFFF ⟨0x1000#16, 0xF000, .var, true, true⟩ :=
  ⟨systemEntries, [], rfl, by decide, by decide⟩

/-- The VAR window owns the VP and the SP of X6's binding. -/
theorem owns_3000 : Owns bindParams 0x3000 ⟨0x1000#16, 0xF000, .var, true, true⟩ :=
  ⟨systemEntries, [], rfl, by decide, by decide⟩

theorem owns_2001 : Owns bindParams 0x2001 ⟨0x1000#16, 0xF000, .var, true, true⟩ :=
  ⟨systemEntries, [], rfl, by decide, by decide⟩

/-- REG.SET: short DIN; no entry; a read-only entry; no data; a SYS and a VAR write. -/
theorem witness_RegSetStoresAndRunsItsHandler :
    Memory.wf (bound []).rf ∧ (bound [1#8]).din.length < 2 ∧ (bound [0#8, 0x11#8]).din = 0#8 :: 0x11#8 :: [] ∧
      (addrOf 0#8 0x11#8).toNat = 0x0011 ∧ Unmatched bindParams 0x0011 ∧ (addrOf 0#8 4#8).toNat = 0x0004 ∧
      Owns bindParams 0x0004 ⟨0x0004#16, 1, .sys, true, true⟩ ∧ (addrOf 0xFF#8 0xFF#8).toNat = 0xFFFF ∧
      Owns bindParams 0xFFFF ⟨0x1000#16, 0xF000, .var, true, true⟩ ∧
      Owns bindParams 0x000E ⟨0x000E#16, 1, .sys, false, true⟩ :=
  ⟨by decide, by decide, rfl, by decide, unmatched_0011, by decide, owns_0004, by decide, owns_FFFF,
    [⟨0x0004#16, 1, .sys, true, true⟩], _, rfl, by decide, by decide⟩

/-- V-REG-22: a write that covers register 0x0080, and one of register 0x0004 that does not. -/
theorem witness_CrcCfgHookFollowsTheRegister :
    bindParams.crcCfg = some (0x0080#16, 0) ∧ Memory.wf (bound [0#8, 0x80#8, 0#8, 1#8]).rf ∧
      (bound [0#8, 0x80#8, 0#8, 1#8]).din = 0#8 :: 0x80#8 :: [0#8, 1#8] ∧
      Owns bindParams (addrOf 0#8 0x80#8).toNat ⟨0x0080#16, 1, .sys, true, true⟩ ∧
      (addrOf 0#8 0x80#8).toNat ≤ (0x0080#16).toNat ∧ 2 * (0x0080#16).toNat < 2 * (addrOf 0#8 0x80#8).toNat + 1 ∧
      Owns bindParams (addrOf 0#8 4#8).toNat ⟨0x0004#16, 1, .sys, true, true⟩ ∧
      2 * (addrOf 0#8 4#8).toNat + 2 ≤ 2 * (0x0080#16).toNat ∧ State.reset.params.crcCfg = none ∧
      Unmatched bindParams (addrOf 0#8 0x11#8).toNat :=
  ⟨rfl, by decide, rfl, ⟨(sysTableOf bindParams).take 4, (sysTableOf bindParams).drop 5, rfl, by decide, by decide⟩,
    by decide, by decide, owns_0004, by decide, rfl, unmatched_0011⟩

/-- X6: the VP, the last register of the SP range, and one register past the range. -/
theorem witness_OneBindingGetsItsEvents :
    (bound [0x30#8, 0#8, 1#8, 2#8]).wb = [bindingX6] ∧ (bound [0x30#8, 0#8, 1#8, 2#8]).din = 0x30#8 :: 0#8 :: [1#8, 2#8] ∧
      (bound [0x30#8, 0#8, 1#8]).din = 0x30#8 :: 0#8 :: [1#8] ∧ Memory.wf (bound [0x30#8, 0#8, 1#8, 2#8]).rf ∧ addrOf 0x30#8 0#8 = bindingX6.vp ∧
      Owns bindParams (addrOf 0x30#8 0#8).toNat ⟨0x1000#16, 0xF000, .var, true, true⟩ ∧
      (addrOf 0x20#8 1#8 ≠ bindingX6.vp ∧ bindingX6.sp.toNat ≤ (addrOf 0x20#8 1#8).toNat ∧
        (addrOf 0x20#8 1#8).toNat < bindingX6.sp.toNat + bindingX6.lenDsc.toNat) ∧
      Owns bindParams (addrOf 0x20#8 1#8).toNat ⟨0x1000#16, 0xF000, .var, true, true⟩ ∧
      (addrOf 0x20#8 2#8 ≠ bindingX6.vp ∧
        bindingX6.sp.toNat + bindingX6.lenDsc.toNat ≤ (addrOf 0x20#8 2#8).toNat) :=
  ⟨rfl, rfl, rfl, by decide, by decide, owns_3000, by decide, owns_2001, by decide⟩

/-- Two bindings of one VP. -/
theorem witness_EventsOfATableAreThoseOfItsBindings :
    ({ bound [0x30#8, 0#8, 1#8, 2#8] with wb := [bindingX6, bindingX6] } : State).wb = bindingX6 :: [bindingX6] ∧
      (bound [0x30#8, 0#8, 1#8, 2#8]).din = 0x30#8 :: 0#8 :: [1#8, 2#8] ∧
      Owns bindParams (addrOf 0x30#8 0#8).toNat ⟨0x1000#16, 0xF000, .var, true, true⟩ :=
  ⟨rfl, rfl, owns_3000⟩

/-- REG.GET: short DIN, no entry, an entry that may be read, one that may not. -/
theorem witness_RegGetEchoesThenReads :
    (bound [0#8, 4#8]).din.length < 3 ∧ (bound [0xFF#8, 0xFF#8, 2#8]).din = 0xFF#8 :: 0xFF#8 :: 2#8 :: [] ∧
      Owns bindParams (addrOf 0xFF#8 0xFF#8).toNat ⟨0x1000#16, 0xF000, .var, true, true⟩ ∧
      Unmatched bindParams (addrOf 0#8 0x11#8).toNat ∧
      Owns { bindParams with sysTable := some [⟨0x0001#16, 1, .sys, true, false⟩] } (addrOf 0#8 1#8).toNat
        ⟨0x0001#16, 1, .sys, true, false⟩ :=
  ⟨by decide, rfl, owns_FFFF, unmatched_0011, [], [], rfl, by decide, by simp⟩

/-- REG.DISP: empty, unknown, write, read, each first byte. -/
theorem witness_RegDispRoutesByItsFirstByte :
    (bound []).din = [] ∧ (0x99#8 : Byte) ≠ bindParams.cmdWr ∧ (0x99#8 : Byte) ≠ bindParams.cmdRd ∧
      (0x82#8 : Byte) = bindParams.cmdWr ∧ (0x83#8 : Byte) ≠ bindParams.cmdWr ∧ (0x83#8 : Byte) = bindParams.cmdRd ∧
      (regGet (bound []) [0#8, 4#8, 1#8]).res = .ok ∧ (regGet (bound []) [0#8, 4#8, 1#8]).dout ≠ [] ∧
      (regGet (bound []) [0#8, 0x11#8, 1#8]).dout = [] := by decide

theorem witness_RfWrThenRfRdGivesTheRegister :
    Memory.wf (given [1#8, 2#8]).rf ∧ (given [1#8, 2#8]).din = [1#8, 2#8] ∧ (given [1#8]).din.length ≠ 2 := by decide

theorem witness_WbAddAppendsAndWbClrEmpties :
    (given (List.replicate 9 0#8)).din.length ≠ 10 ∧
      (given (List.replicate 10 0#8)).din = [0#8, 0#8, 0#8, 0#8, 0#8, 0#8, 0#8, 0#8, 0#8, 0#8] ∧
      (given []).wb.length ≠ (given []).params.wbMax ∧
      (State.postInit { Params.default with wbMax := 0 }).wb.length = 0 := by decide

end witnesses

end Sys2Proof.Tests
end

section
/-! PROOFS. The family of spec/00_scope.md: the default PARAMS and the default address table. -/

namespace Sys2Proof.Proofs.Scope

open Sys2Proof Sys2Proof.Machine

/-- R12: where SYS_TABLE is not given, the VAR window stands behind the system entries. -/
theorem sysTableOf_of_none {p : Params} (h : p.sysTable = none) :
    sysTableOf p = systemEntries ++ [⟨BitVec.ofNat 16 p.varBase, p.varLen, .var, true, true⟩] := by
  simp only [sysTableOf, h]

/-- R11: a widget type goes to list 0 where WIDGET_LIST names none. -/
theorem widgetListOf_of_nil {p : Params} (h : p.widgetList = []) (type : Byte) : widgetListOf p type = 0 := by
  simp only [widgetListOf, h, List.find?_nil]

/-- A list id holds no items where the list at its position is empty or ITEM_LISTS is too short for it. -/
theorem itemsOf_eq_nil {p : Params} {l : Nat} (h : p.itemLists.getD l [] = []) : itemsOf p l = [] := by
  simp only [itemsOf, h, itemsBeforeSentinel, List.takeWhile_nil]

/-- R11: the default ITEM_LISTS has an item under no list id, the ids past 15 included. -/
theorem itemsOf_default (l : Nat) : itemsOf Params.default l = [] := by
  apply itemsOf_eq_nil
  rcases Nat.lt_or_ge l 16 with hl | hl
  · exact List.getD_replicate [] hl
  · exact List.getD_eq_default Params.default.itemLists [] hl

/-- Settles O15. The reset state's record is `Params.default`, so each single value is read off it; the three function
parameters (the items of a list, the list of a widget type, the table) have a lemma each. -/
theorem resetParamsAreTheListedDefaults : Obligations.ResetParamsAreTheListedDefaults := by
  unfold Obligations.ResetParamsAreTheListedDefaults
  constructor
  · rintro p rfl
    have hreset : State.reset.params = Params.default := rfl
    rw [hreset]
    exact ⟨rfl, rfl, rfl, rfl, rfl, rfl, rfl, rfl, rfl, itemsOf_default, widgetListOf_of_nil rfl, rfl, rfl, rfl, rfl,
      rfl, rfl, rfl⟩
  · intro p hp
    exact sysTableOf_of_none hp

end Sys2Proof.Proofs.Scope
end

section
/-! PROOFS. The family of spec/10_state.md, part one: state that no other unit reads. CRC_ACC (R43) and the priorities in WB
(R53) are covered by one commutation: a command run on a state seen through a mask ends as the command run on the state
itself, seen through the same mask. -/

namespace Sys2Proof.Proofs.StateMask

open Sys2Proof Sys2Proof.Machine

/-! ## The mask -/

/-- `s` with `g` applied to CRC_ACC and `f` to WB. -/
def masked (g : U16 → U16) (f : List Binding → List Binding) (s : State) : State :=
  { s with crcAcc := g s.crcAcc, wb := f s.wb }

/-- Register indirection, the one reader of WB's bindings, does not see `f`. -/
def IndirectionBlind (f : List Binding → List Binding) : Prop :=
  ∀ p wb rf a, indirection p (f wb) rf a = indirection p wb rf a

/-- A reply with `m` applied to its state. -/
def mapReply (m : State → State) (r : Reply) : Reply := { r with st := m r.st }

/-- The end of a command with `m` applied to its state. -/
def mapEnd (m : State → State) : CmdEnd → CmdEnd
  | .returned r => .returned (mapReply m r)
  | .faulted s f => .faulted (m s) f

/-- An outcome with `m` applied to its next state. -/
def mapOutcome (m : State → State) : Host.Outcome State Fault Refusal → Host.Outcome State Fault Refusal
  | .next s => .next (m s)
  | .fault r => .fault r
  | .refused r => .refused r

@[simp] theorem mapReply_st (m : State → State) (r : Reply) : (mapReply m r).st = m r.st := rfl
@[simp] theorem mapReply_res (m : State → State) (r : Reply) : (mapReply m r).res = r.res := rfl
@[simp] theorem mapReply_aux (m : State → State) (r : Reply) : (mapReply m r).aux = r.aux := rfl
@[simp] theorem mapReply_dout (m : State → State) (r : Reply) : (mapReply m r).dout = r.dout := rfl
@[simp] theorem mapEnd_returned (m : State → State) (r : Reply) : mapEnd m (.returned r) = .returned (mapReply m r) := rfl
@[simp] theorem mapEnd_faulted (m : State → State) (s : State) (f : ModelFault) :
    mapEnd m (.faulted s f) = .faulted (m s) f := rfl

/-- A branch commutes with `m` where its condition is the same on both sides and its two replies commute. -/
theorem ite_mapReply {m : State → State} {c : Prop} {i j : Decidable c} {a b a' b' : Reply} (ha : a' = mapReply m a)
    (hb : b' = mapReply m b) : @ite Reply c i a' b' = mapReply m (@ite Reply c j a b) := by
  by_cases h : c
  · rw [if_pos h, if_pos h, ha]
  · rw [if_neg h, if_neg h, hb]

section mask
variable (g : U16 → U16) (f : List Binding → List Binding) (s : State)

@[simp] theorem masked_params : (masked g f s).params = s.params := rfl
@[simp] theorem masked_rxq : (masked g f s).rxq = s.rxq := rfl
@[simp] theorem masked_crcEn : (masked g f s).crcEn = s.crcEn := rfl
@[simp] theorem masked_hdl : (masked g f s).hdl = s.hdl := rfl
@[simp] theorem masked_rf : (masked g f s).rf = s.rf := rfl
@[simp] theorem masked_wb : (masked g f s).wb = f s.wb := rfl
@[simp] theorem masked_tgt : (masked g f s).tgt = s.tgt := rfl
@[simp] theorem masked_din : (masked g f s).din = s.din := rfl
@[simp] theorem masked_queue (q : QueueId) : (masked g f s).queue q = s.queue q := by cases q <;> rfl
@[simp] theorem masked_withQueue (q : QueueId) (x : QState) :
    (masked g f s).withQueue q x = masked g f (s.withQueue q x) := by cases q <;> rfl
@[simp] theorem answer_masked (r : Res) (a : U32) (d : Bytes) :
    answer (masked g f s) r a d = mapReply (masked g f) (answer s r a d) := rfl
theorem answer_withQueue_masked (q : QueueId) (x : QState) (r : Res) (a : U32) (d : Bytes) :
    answer ((masked g f s).withQueue q x) r a d = mapReply (masked g f) (answer (s.withQueue q x) r a d) := by
  rw [masked_withQueue, answer_masked]

/-- A command commutes with the mask where its reply does. -/
theorem finish_masked {r r' : Reply} (h : r' = mapReply (masked g f) r) :
    finish r' = mapOutcome (masked g f) (finish r) := by
  rw [h]
  rfl

@[simp] theorem settle_mapEnd (e : CmdEnd) :
    settle (mapEnd (masked g f) e) = mapOutcome (masked g f) (settle e) := by
  cases e <;> rfl

/-- The queue preamble does not see the mask where the command behind it does not. -/
theorem onQueue_masked (q : QueueId) {k k' : QState → Reply} (h : ∀ x, k' x = mapReply (masked g f) (k x)) :
    onQueue (masked g f s) q k' = mapReply (masked g f) (onQueue s q k) := by
  unfold onQueue
  rw [masked_queue]
  split
  · exact h _
  · rfl

/-! ## Q.POPV -/

theorem popvLoop_masked (q : QueueId) (turns dropped : Nat) (s : State) :
    popvLoop q turns dropped (masked g f s) = mapEnd (masked g f) (popvLoop q turns dropped s) := by
  induction turns generalizing dropped s with
  | zero => rfl
  | succ turns ih =>
    simp only [popvLoop, masked_params, masked_crcEn, masked_queue, masked_withQueue]
    split
    · rfl
    · rfl
    · exact ih _ _
    · split <;> rfl

theorem popValid_masked (q : QueueId) : popValid q (masked g f s) = mapEnd (masked g f) (popValid q s) := by
  simp only [popValid, masked_queue, popvLoop_masked]
  split
  · split
    · rfl
    · split <;> rfl
  · rfl

/-! ## Sending and the register operations -/

theorem sendBytes_masked (d : Bytes) : sendBytes (masked g f s) d = mapReply (masked g f) (sendBytes s d) := by
  exact ite_mapReply rfl rfl

theorem sendPacket_masked (d : Bytes) : sendPacket (masked g f s) d = mapReply (masked g f) (sendPacket s d) := by
  refine ite_mapReply ?_ rfl
  dsimp only [masked_params, masked_crcEn]
  cases pack s.params s.crcEn d <;> rfl

theorem regGet_masked (d : Bytes) : regGet (masked g f s) d = mapReply (masked g f) (regGet s d) := by
  simp only [regGet, masked_params]
  split
  · rfl
  · cases matchEntry s.params (half d 0) with
    | none => rfl
    | some e => dsimp only; split <;> rfl

/-! ## The mapper's primitive commands -/

theorem parsePrimInto_masked (k : Prim) (slot : Byte) :
    parsePrimInto k slot (masked g f s) = mapReply (masked g f) (parsePrimInto k slot s) := by
  simp only [parsePrimInto, masked_din]
  cases parsePrim k s.din <;> rfl

theorem printPrimFrom_masked (k : Prim) (len slot : Byte) :
    printPrimFrom k len slot (masked g f s) = mapReply (masked g f) (printPrimFrom k len slot s) := by
  simp only [printPrimFrom, masked_tgt]
  cases printPrim k (tgtRead s.tgt slot.toNat) len.toNat <;> rfl

end mask

/-! ## What reads WB: a register write, and so the dispatcher, the handler and the receive side -/

section blind
variable (g : U16 → U16) {f : List Binding → List Binding}

theorem writeEvents_blind (hf : IndirectionBlind f) (p : Params) (wb : List Binding) (rf : Memory) (e : Entry) (a : U16)
    (d : Bytes) : writeEvents p (f wb) rf e a d = writeEvents p wb rf e a d := by
  unfold writeEvents
  cases e.kind
  · rfl
  · exact hf p wb rf a

theorem storeWrite_masked (hf : IndirectionBlind f) (s : State) (e : Entry) (a : U16) (d : Bytes) :
    storeWrite (masked g f s) e a d = masked g f (storeWrite s e a d) := by
  simp only [storeWrite_eq, masked_params, masked_wb, masked_rf, writeEvents_blind hf]
  rfl

theorem regSet_masked (hf : IndirectionBlind f) (s : State) (d : Bytes) :
    regSet (masked g f s) d = mapReply (masked g f) (regSet s d) := by
  simp only [regSet, masked_params]
  split
  · rfl
  · cases matchEntry s.params (half d 0) with
    | none => rfl
    | some e =>
      dsimp only
      split
      · rfl
      · rw [storeWrite_masked g hf, answer_masked]

theorem regDispatch_masked (hf : IndirectionBlind f) (s : State) (d : Bytes) :
    regDispatch (masked g f s) d = mapReply (masked g f) (regDispatch s d) := by
  cases d with
  | nil => rfl
  | cons cmd rest =>
    simp only [regDispatch, masked_params, regSet_masked g hf, regGet_masked, mapReply_st, mapReply_res, mapReply_aux,
      mapReply_dout, sendPacket_masked]
    split
    · rfl
    · split
      · split <;> rfl
      · rfl

theorem invokeHandler_masked (hf : IndirectionBlind f) (s : State) (d : Bytes) :
    invokeHandler (masked g f s) d = masked g f (invokeHandler s d) := by
  simp only [invokeHandler, masked_hdl, regDispatch_masked g hf, mapReply_st]
  split
  · rfl
  · split <;> rfl

theorem receive_masked (hf : IndirectionBlind f) (s : State) :
    receive (masked g f s) = mapEnd (masked g f) (receive s) := by
  simp only [receive, masked_rxq, popValid_masked]
  split
  · cases popValid .rx s with
    | faulted t m => rfl
    | returned r =>
      have hd : delivered (masked g f r.st) r.dout = delivered r.st r.dout := rfl
      simp only [mapEnd_returned, mapReply_st, mapReply_res, mapReply_aux, mapReply_dout, hd, invokeHandler_masked g hf]
      split <;> rfl
  · rfl

theorem pollLoop_masked (hf : IndirectionBlind f) (fuel frames : Nat) (s : State) :
    pollLoop fuel frames (masked g f s) = mapEnd (masked g f) (pollLoop fuel frames s) := by
  induction fuel generalizing frames s with
  | zero => rfl
  | succ fuel ih =>
    simp only [pollLoop, receive_masked g hf]
    cases receive s with
    | faulted t m => rfl
    | returned r =>
      simp only [mapEnd_returned, mapReply_st, mapReply_res, ih]
      split <;> rfl

theorem poll_masked (hf : IndirectionBlind f) (s : State) : poll (masked g f s) = mapEnd (masked g f) (poll s) :=
  pollLoop_masked g hf _ _ s

end blind

/-! ## The commands -/

/-- The commands that read or write CRC_ACC (41_crc16 R154 to R156, R158). -/
def UsesCrcAcc (i : Instr) : Prop := WritesCrcAcc i ∨ i = .crcRd

/-- The commands that write WB (44_address_registry R244, R245). -/
def UsesBindings (i : Instr) : Prop := i = .wbAdd ∨ i = .wbClr

/-- Every command commutes with a mask that register indirection does not see, where the mask leaves CRC_ACC alone for the
commands of the CRC unit and WB alone for the commands that write it. -/
theorem exec_masked (g : U16 → U16) {f : List Binding → List Binding} (hf : IndirectionBlind f) (i : Instr) (s : State)
    (hg : UsesCrcAcc i → g = id) (hw : UsesBindings i → f = id) :
    exec i (masked g f s) = mapOutcome (masked g f) (exec i s) := by
  cases i with
  | nop => rfl
  | qInit q n =>
    refine finish_masked g f (ite_mapReply (ite_mapReply ?_ rfl) rfl)
    rw [masked_queue]
    exact answer_withQueue_masked g f s q _ _ _ _
  | qPush q =>
    exact finish_masked g f (onQueue_masked g f s q fun x => ite_mapReply (answer_withQueue_masked g f s q _ _ _ _) rfl)
  | qPop q =>
    exact finish_masked g f (onQueue_masked g f s q fun x => ite_mapReply rfl (answer_withQueue_masked g f s q _ _ _ _))
  | qPopv q => simp only [exec, execQPopv, popValid_masked, settle_mapEnd]
  | qSetchk q id =>
    exact finish_masked g f (onQueue_masked g f s q fun x =>
      ite_mapReply rfl (ite_mapReply rfl (answer_withQueue_masked g f s q _ _ _ _)))
  | qEmpty q => exact finish_masked g f (onQueue_masked g f s q fun x => rfl)
  | qCount q => exact finish_masked g f (onQueue_masked g f s q fun x => rfl)
  | qClear q => exact finish_masked g f (onQueue_masked g f s q fun x => answer_withQueue_masked g f s q _ _ _ _)
  | qSetcd q =>
    exact finish_masked g f (onQueue_masked g f s q fun x => ite_mapReply rfl (answer_withQueue_masked g f s q _ _ _ _))
  | qDeinit q => exact finish_masked g f (onQueue_masked g f s q fun x => answer_withQueue_masked g f s q _ _ _ _)
  | crcSeed v => obtain rfl := hg (.inl trivial); rfl
  | crcUpd b => obtain rfl := hg (.inl trivial); rfl
  | crcUpdn => obtain rfl := hg (.inl trivial); rfl
  | crcCalc v => rfl
  | crcRd => obtain rfl := hg (.inr rfl); rfl
  | cdcSend => exact finish_masked g f (sendBytes_masked g f s s.din)
  | cdcSendp => exact finish_masked g f (sendPacket_masked g f s s.din)
  | cdcRecv => simp only [exec, execCdcRecv, receive_masked g hf, settle_mapEnd]
  | cdcPoll => simp only [exec, execCdcPoll, poll_masked g hf, settle_mapEnd]
  | cdcSetcrc e => rfl
  | cdcSethdl id => rfl
  | cdcPhase => exact finish_masked g f (ite_mapReply rfl rfl)
  | mapParse l => rfl
  | mapPrint l n =>
    simp only [exec, execMapPrint, masked_params, masked_tgt]
    split <;> rfl
  | mapParsepUint slot => exact finish_masked g f (parsePrimInto_masked g f s .uint slot)
  | mapParsepI16 slot => exact finish_masked g f (parsePrimInto_masked g f s .i16 slot)
  | mapParsepI32 slot => exact finish_masked g f (parsePrimInto_masked g f s .i32 slot)
  | mapParsepI64 slot => exact finish_masked g f (parsePrimInto_masked g f s .i64 slot)
  | mapParsepF32 slot => exact finish_masked g f (parsePrimInto_masked g f s .f32 slot)
  | mapParsepF64 slot => exact finish_masked g f (parsePrimInto_masked g f s .f64 slot)
  | mapPrintpUint n slot => exact finish_masked g f (printPrimFrom_masked g f s .uint n slot)
  | mapPrintpI16 n slot => exact finish_masked g f (printPrimFrom_masked g f s .i16 n slot)
  | mapPrintpI32 n slot => exact finish_masked g f (printPrimFrom_masked g f s .i32 n slot)
  | mapPrintpI64 n slot => exact finish_masked g f (printPrimFrom_masked g f s .i64 n slot)
  | mapPrintpF32 n slot => exact finish_masked g f (printPrimFrom_masked g f s .f32 n slot)
  | mapPrintpF64 n slot => exact finish_masked g f (printPrimFrom_masked g f s .f64 n slot)
  | mapTrd slot => rfl
  | mapTwr slot => exact finish_masked g f (ite_mapReply rfl rfl)
  | regSet => exact finish_masked g f (regSet_masked g hf s s.din)
  | regGet => exact finish_masked g f (regGet_masked g f s s.din)
  | regDisp => exact finish_masked g f (regDispatch_masked g hf s s.din)
  | rfRd r => rfl
  | rfWr r => exact finish_masked g f (ite_mapReply rfl rfl)
  | wbAdd =>
    obtain rfl := hw (.inl rfl)
    exact finish_masked g id (ite_mapReply (ite_mapReply rfl rfl) rfl)
  | wbClr => obtain rfl := hw (.inr rfl); rfl

/-! ## CRC_ACC -/

/-- Settles O12: the mask that replaces CRC_ACC alone commutes with every command outside the CRC unit. -/
theorem crcAccIsInvisibleToOtherUnits : Obligations.CrcAccIsInvisibleToOtherUnits := by
  unfold Obligations.CrcAccIsInvisibleToOtherUnits
  intro i s t c hw hr h
  have hcrc : ¬UsesCrcAcc i := not_or.2 ⟨hw, hr⟩
  have key := exec_masked (fun _ => c) (f := id) (fun _ _ _ _ => rfl) i s (fun hu => absurd hu hcrc) fun _ => rfl
  rw [h] at key
  exact key

/-! ## Priorities -/

/-- Register indirection reads handle, type, range and VP of a binding, and not its priority (44_address_registry R235). -/
theorem withPriorities_blind (f : Binding → Byte) : IndirectionBlind (withPriorities f) := by
  intro p wb rf a
  have hbinding : ∀ w : Binding, bindingEvent p rf a { w with priority := f w } = bindingEvent p rf a w := fun _ => rfl
  simp only [indirection, withPriorities, List.filterMap_map]
  exact List.filterMap_congr fun w _ => hbinding w

/-- Priorities that are replaced twice are those of the last replacement, where it does not read the first. -/
theorem withPriorities_const (b : Byte) (f : Binding → Byte) (l : List Binding) :
    withPriorities (fun _ => b) (withPriorities f l) = withPriorities (fun _ => b) l := by
  simp [withPriorities]

/-- WB.ADD reads of WB its length alone: the new binding goes behind whatever bindings stand there. -/
theorem exec_wbAdd_withPriorities (s : State) (f : Binding → Byte) :
    exec .wbAdd { s with wb := withPriorities f s.wb } = mapOutcome (masked id (withPriorities f)) (exec .wbAdd s) ∨
      ∃ b r a d, exec .wbAdd { s with wb := withPriorities f s.wb } =
          .next (record { s with wb := withPriorities f s.wb ++ [b] } r a d) ∧
        exec .wbAdd s = .next (record { s with wb := s.wb ++ [b] } r a d) := by
  have hlen : (withPriorities f s.wb).length = s.wb.length := by simp [withPriorities]
  simp only [exec, execWbAdd, hlen]
  split
  · split
    · exact .inl rfl
    · exact .inr ⟨_, _, _, _, rfl, rfl⟩
  · exact .inl rfl

/-- Settles O13. Every command but WB.ADD and WB.CLR commutes with the replacement of priorities; WB.ADD appends the same
binding on both sides, WB.CLR leaves none on either. -/
theorem priorityIsNeverRead : Obligations.PriorityIsNeverRead := by
  unfold Obligations.PriorityIsNeverRead
  intro i s t f h
  have commuting : exec i { s with wb := withPriorities f s.wb } = mapOutcome (masked id (withPriorities f)) (exec i s) →
      ∃ wb, exec i { s with wb := withPriorities f s.wb } = .next { t with wb := wb } ∧
        withPriorities (fun _ => 0x00#8) wb = withPriorities (fun _ => 0x00#8) t.wb := by
    intro hc
    rw [h] at hc
    exact ⟨_, hc, withPriorities_const _ f t.wb⟩
  by_cases hb : UsesBindings i
  · rcases hb with rfl | rfl
    · rcases exec_wbAdd_withPriorities s f with hc | ⟨b, r, a, d, h1, h2⟩
      · exact commuting hc
      · obtain rfl : record { s with wb := s.wb ++ [b] } r a d = t := Host.Outcome.next.inj (h2.symm.trans h)
        refine ⟨_, h1, ?_⟩
        simp [withPriorities]
    · exact commuting rfl
  · exact commuting (exec_masked id (withPriorities_blind f) i s (fun _ => rfl) fun hu => absurd hu hb)

end Sys2Proof.Proofs.StateMask
end

section
/-! PROOFS. The family of spec/10_state.md, part two: what a command can do to the state, said once for all 46 commands, and
from it which command writes which field (R43 to R58) and that every step keeps the machine invariant. -/

namespace Sys2Proof.Proofs.StateEffect

open Sys2Proof Sys2Proof.Machine

/-! ## What a command can do -/

/-- What can become of a queue `x` of `bytes` bytes (40_ring_queue R123 to R132, 42_frame_codec R174), each under the checks
that its command makes. -/
inductive QueueWrite (p : Params) (bytes : Nat) (x : QState) : QState → Prop
  | init (isz : Nat) (bs : U16) : initSizesOk bytes isz bs.toNat = true → QueueWrite p bytes x (initQueue x isz bs.toNat)
  | push (item : Bytes) : x.cfg = true → item.length = x.isz.toNat → QueueWrite p bytes x (pushElem x item)
  | drop (n : Nat) : n ≤ x.cnt.toNat → QueueWrite p bytes x (dropElems x n)
  | setChecker (id : Byte) : x.cfg = true → (2 ≤ id.toNat → checkerDefined p id = true) → (id = 1#8 → x.isz = 1#16) →
      QueueWrite p bytes x { x with chk := id }
  | clear : x.cfg = true → QueueWrite p bytes x { x with head := 0#16, tail := 0#16, cnt := 0#16 }
  | setCustomData (d : Bytes) : x.cfg = true → d.length ≤ p.cdMax →
      QueueWrite p bytes x { x with cd := if d = [] then none else some d }
  | deinit : QueueWrite p bytes x
      { x with cd := none, chk := 0#8, cfg := false, head := 0#16, tail := 0#16, cnt := 0#16 }
  | send (d : Bytes) : usable x = true → QueueWrite p bytes x (pushBytes x d)

/-- `t` follows from `s` by removals from RXQ and handler invocations, in any order and number: what CDC.RECV and CDC.POLL
are made of (42_frame_codec R176, R177, R181). -/
inductive Received (s : State) : State → Prop
  | start : Received s s
  | removed {t u : State} {n : Nat} : Received s t → Removed .rx t u n → Received s u
  | handled {t : State} (payload : Bytes) : Received s t → Received s (invokeHandler t payload)

/-- What command `i` can do to a state `s`, but for its outputs: one constructor for each way of writing a field. -/
inductive Effect (i : Instr) (s : State) : State → Prop
  | nothing : Effect i s s
  | queue (q : QueueId) (x : QState) : WritesQueue q i → QueueWrite s.params (queueBytes s.params q) (s.queue q) x →
      Effect i s (s.withQueue q x)
  | crcAcc (c : U16) : WritesCrcAcc i → Effect i s { s with crcAcc := c }
  | crcEn (en : Bool) : i = .cdcSetcrc en → Effect i s { s with crcEn := en }
  | hdl (id : Byte) : i = .cdcSethdl id → Effect i s { s with hdl := id }
  | tgt (t : Target) : WritesTgt i → Effect i s { s with tgt := t }
  | rf (r v : U16) : i = .rfWr r → Effect i s { s with rf := rfWrite s.rf r v }
  | bind (w : Binding) : i = .wbAdd → s.wb.length ≠ s.params.wbMax → Effect i s { s with wb := s.wb ++ [w] }
  | unbind : i = .wbClr → Effect i s { s with wb := [] }
  | store (e : Entry) (a : U16) (d : Bytes) : RunsRegisterWrite i → Effect i s (storeWrite s e a d)
  | received {t : State} : (i = .cdcRecv ∨ i = .cdcPoll) → Received s t → Effect i s t
  | faulted {t : State} (f : ModelFault) : CanFault i → Effect i s t → Effect i s { t with fault := some f }

/-! ## Every command has such an effect -/

/-- An outcome that is a next state, reached by an effect of `i` and one output. -/
def HasEffect (i : Instr) (s : State) (o : Host.Outcome State Fault Refusal) : Prop :=
  ∃ u r a d, o = .next (record u r a d) ∧ Effect i s u

/-- An end of a command whose state, before the fault is set, is an effect of `i`. -/
def EndEffect (i : Instr) (s : State) : CmdEnd → Prop
  | .returned r => Effect i s r.st
  | .faulted t _ => CanFault i ∧ Effect i s t

theorem HasEffect.finish {i : Instr} {s : State} {r : Reply} (h : Effect i s r.st) : HasEffect i s (finish r) :=
  ⟨r.st, r.res, r.aux, r.dout, rfl, h⟩

theorem HasEffect.settle {i : Instr} {s : State} {e : CmdEnd} (h : EndEffect i s e) : HasEffect i s (settle e) := by
  cases e with
  | returned r => exact .finish h
  | faulted t f => exact ⟨_, _, _, _, rfl, .faulted f h.1 h.2⟩

/-- The queue preamble changes nothing on an unconfigured queue. -/
theorem Effect.onQueue {i : Instr} {s : State} {q : QueueId} {k : QState → Reply}
    (h : (s.queue q).cfg = true → Effect i s (k (s.queue q)).st) : Effect i s (onQueue s q k).st := by
  rcases onQueue_cases s q k with ⟨-, hk⟩ | ⟨hc, hk⟩ <;> rw [hk]
  · exact .nothing
  · exact h hc

/-- A removal is a write of the queue, or nothing. -/
theorem Effect.ofRemoved {i : Instr} {s t : State} {q : QueueId} {n : Nat} (hw : WritesQueue q i) (h : Removed q s t n) :
    Effect i s t := by
  obtain ⟨hn, ⟨-, rfl⟩ | ⟨-, rfl⟩⟩ := h
  · exact .nothing
  · exact .queue q _ hw (.drop n hn)

theorem popValid_effect (q : QueueId) (s : State) : EndEffect (.qPopv q) s (popValid q s) := by
  obtain ⟨turns, h⟩ := popValid_spec q s
  cases hp : popValid q s with
  | returned r =>
    rw [hp] at h
    obtain ⟨n, hn, -⟩ := h
    exact .ofRemoved rfl hn
  | faulted t f =>
    rw [hp] at h
    obtain ⟨-, n, hn⟩ := h
    exact ⟨trivial, .ofRemoved rfl hn⟩

theorem sendBytes_effect (i : Instr) (hw : WritesQueue .tx i) (s : State) (d : Bytes) :
    Effect i s (sendBytes s d).st := by
  rcases sendBytes_cases s d with ⟨-, h⟩ | ⟨hu, h⟩ <;> rw [h]
  · exact .nothing
  · exact .queue .tx _ hw (.send d hu)

theorem sendPacket_effect (i : Instr) (hw : WritesQueue .tx i) (s : State) (d : Bytes) :
    Effect i s (sendPacket s d).st := by
  rcases sendPacket_cases s d with ⟨-, h⟩ | ⟨f, hu, -, h⟩ <;> rw [h]
  · exact .nothing
  · exact .queue .tx _ hw (.send f hu)

theorem regSet_effect (i : Instr) (hr : RunsRegisterWrite i) (s : State) (d : Bytes) : Effect i s (regSet s d).st := by
  rcases regSet_cases s d with ⟨r, h⟩ | ⟨e, -, -, -, -, h⟩ <;> rw [h]
  · exact .nothing
  · exact .store e _ _ hr

theorem regDispatch_effect (i : Instr) (hr : RunsRegisterWrite i) (hw : WritesQueue .tx i) (s : State) (d : Bytes) :
    Effect i s (regDispatch s d).st := by
  rcases regDispatch_cases s d with h | ⟨e, a, b, h⟩ | ⟨f, hu, h⟩ <;> rw [h]
  · exact .nothing
  · exact .store e a b hr
  · exact .queue .tx _ hw (.send f hu)

/-- The receive side runs removals and handlers, and nothing else. -/
def EndReceived (s : State) : CmdEnd → Prop
  | .returned r => Received s r.st
  | .faulted t _ => Received s t

theorem receive_received {s t : State} (h : Received s t) : EndReceived s (receive t) := by
  have hr := receive_spec t
  cases hp : receive t with
  | returned r =>
    rw [hp] at hr
    rcases hr with ⟨n, u, -, hu, -, hst⟩ | ⟨-, -, n, hn⟩
    · show Received s r.st
      rw [hst]
      exact .handled _ (.removed h hu)
    · exact .removed h hn
  | faulted u f =>
    rw [hp] at hr
    obtain ⟨-, n, hn⟩ := hr
    exact .removed h hn

theorem pollLoop_received (fuel frames : Nat) {s t : State} (h : Received s t) :
    EndReceived s (pollLoop fuel frames t) := by
  induction fuel generalizing frames t with
  | zero => exact h
  | succ fuel ih =>
    have hr := receive_received h
    rw [pollLoop]
    cases hp : receive t with
    | faulted u f =>
      rw [hp] at hr
      exact hr
    | returned r =>
      rw [hp] at hr
      dsimp only
      split
      · exact ih _ hr
      · exact hr

theorem EndReceived.effect {i : Instr} {s : State} {e : CmdEnd} (hi : i = .cdcRecv ∨ i = .cdcPoll)
    (h : EndReceived s e) : EndEffect i s e := by
  cases e with
  | returned r => exact .received hi h
  | faulted t f => exact ⟨by rcases hi with rfl | rfl <;> trivial, .received hi h⟩

theorem parsePrimInto_effect (i : Instr) (hw : WritesTgt i) (k : Prim) (slot : Byte) (s : State) :
    Effect i s (parsePrimInto k slot s).st := by
  unfold parsePrimInto
  split
  · exact .nothing
  · exact .tgt _ hw

theorem printPrimFrom_effect (i : Instr) (k : Prim) (len slot : Byte) (s : State) :
    Effect i s (printPrimFrom k len slot s).st := by
  unfold printPrimFrom
  split <;> exact .nothing

theorem execQInit_effect (q : QueueId) (bs : U16) (s : State) : HasEffect (.qInit q bs) s (execQInit q bs s) := by
  refine .finish ?_
  split
  · split
    · rename_i hsizes
      exact .queue q _ rfl (.init _ bs hsizes)
    · exact .nothing
  · exact .nothing

theorem execQSetchk_effect (q : QueueId) (id : Byte) (s : State) : HasEffect (.qSetchk q id) s (execQSetchk q id s) := by
  refine .finish (.onQueue fun hc => ?_)
  split
  · exact .nothing
  · rename_i hknown
    split
    · exact .nothing
    · rename_i hbytes
      refine .queue q _ rfl (.setChecker id hc (fun h2 => ?_) fun h1 => ?_)
      · simpa using fun hd => hknown ⟨h2, hd⟩
      · exact not_not.1 fun hne => hbytes ⟨h1, hne⟩

theorem execMapPrint_effect (l : BitVec 4) (n : U16) (s : State) :
    HasEffect (.mapPrint l n) s (execMapPrint l n s) := by
  refine .settle ?_
  split
  · exact Effect.nothing
  · exact ⟨trivial, .nothing⟩

/-- What a command can do, said once: every command, in every state, takes a next state by one of its effects. -/
theorem exec_hasEffect (i : Instr) (s : State) : HasEffect i s (exec i s) := by
  cases i with
  | nop => exact .finish .nothing
  | qInit q n => exact execQInit_effect q n s
  | qPush q =>
    refine .finish (.onQueue fun hc => ?_)
    split
    · rename_i hlen
      exact .queue q _ rfl (.push _ hc hlen)
    · exact .nothing
  | qPop q =>
    refine .finish (.onQueue fun hc => ?_)
    split
    · exact .nothing
    · rename_i hne
      have hpos : 1 ≤ (s.queue q).cnt.toNat := Nat.one_le_iff_ne_zero.2 fun h0 => hne (BitVec.eq_of_toNat_eq h0)
      exact .queue q _ rfl (.drop 1 hpos)
  | qPopv q => exact .settle (popValid_effect q s)
  | qSetchk q id => exact execQSetchk_effect q id s
  | qEmpty q => exact .finish (.onQueue fun _ => .nothing)
  | qCount q => exact .finish (.onQueue fun _ => .nothing)
  | qClear q => exact .finish (.onQueue fun hc => .queue q _ rfl (.clear hc))
  | qSetcd q =>
    refine .finish (.onQueue fun hc => ?_)
    split
    · exact .nothing
    · rename_i hlen
      exact .queue q _ rfl (.setCustomData _ hc (Nat.le_of_not_lt hlen))
  | qDeinit q => exact .finish (.onQueue fun _ => .queue q _ rfl .deinit)
  | crcSeed v => exact .finish (.crcAcc _ trivial)
  | crcUpd b => exact .finish (.crcAcc _ trivial)
  | crcUpdn => exact .finish (.crcAcc _ trivial)
  | crcCalc v => exact .finish .nothing
  | crcRd => exact .finish .nothing
  | cdcSend => exact .finish (sendBytes_effect .cdcSend rfl s s.din)
  | cdcSendp => exact .finish (sendPacket_effect .cdcSendp rfl s s.din)
  | cdcRecv => exact .settle ((receive_received .start).effect (.inl rfl))
  | cdcPoll => exact .settle ((pollLoop_received _ 0 .start).effect (.inr rfl))
  | cdcSetcrc e => exact .finish (.crcEn e rfl)
  | cdcSethdl id => exact .finish (.hdl id rfl)
  | cdcPhase =>
    refine .finish ?_
    split <;> exact .nothing
  | mapParse l => exact .finish (.tgt _ trivial)
  | mapPrint l n => exact execMapPrint_effect l n s
  | mapParsepUint slot => exact .finish (parsePrimInto_effect (.mapParsepUint slot) trivial .uint slot s)
  | mapParsepI16 slot => exact .finish (parsePrimInto_effect (.mapParsepI16 slot) trivial .i16 slot s)
  | mapParsepI32 slot => exact .finish (parsePrimInto_effect (.mapParsepI32 slot) trivial .i32 slot s)
  | mapParsepI64 slot => exact .finish (parsePrimInto_effect (.mapParsepI64 slot) trivial .i64 slot s)
  | mapParsepF32 slot => exact .finish (parsePrimInto_effect (.mapParsepF32 slot) trivial .f32 slot s)
  | mapParsepF64 slot => exact .finish (parsePrimInto_effect (.mapParsepF64 slot) trivial .f64 slot s)
  | mapPrintpUint n slot => exact .finish (printPrimFrom_effect _ .uint n slot s)
  | mapPrintpI16 n slot => exact .finish (printPrimFrom_effect _ .i16 n slot s)
  | mapPrintpI32 n slot => exact .finish (printPrimFrom_effect _ .i32 n slot s)
  | mapPrintpI64 n slot => exact .finish (printPrimFrom_effect _ .i64 n slot s)
  | mapPrintpF32 n slot => exact .finish (printPrimFrom_effect _ .f32 n slot s)
  | mapPrintpF64 n slot => exact .finish (printPrimFrom_effect _ .f64 n slot s)
  | mapTrd slot => exact .finish .nothing
  | mapTwr slot =>
    refine .finish ?_
    split
    · exact .tgt _ trivial
    · exact .nothing
  | regSet => exact .finish (regSet_effect .regSet trivial s s.din)
  | regGet => exact .finish (by rw [regGet_st]; exact .nothing)
  | regDisp => exact .finish (regDispatch_effect .regDisp trivial rfl s s.din)
  | rfRd r => exact .finish .nothing
  | rfWr r =>
    refine .finish ?_
    split
    · exact .rf r _ rfl
    · exact .nothing
  | wbAdd =>
    refine .finish ?_
    split
    · split
      · exact .nothing
      · rename_i hroom
        exact .bind _ rfl hroom
    · exact .nothing
  | wbClr => exact .finish (.unbind rfl)

/-- What a step can do: nothing with no command at the port, else an output and, for a legal word, an effect of its command
on the state whose port has given that command up. -/
theorem step_cases {s t : State} (h : step s = .next t) :
    t = s ∨ ∃ port din u r a d, t = record u r a d ∧
      (u = { s with port := port, din := din } ∨ ∃ i, Effect i { s with port := port, din := din } u) := by
  rcases Option.eq_none_or_eq_some s.fault with hf | ⟨f, hf⟩
  · cases hp : s.port with
    | nil =>
      rw [step_idle hf hp] at h
      cases h
      exact .inl rfl
    | cons c rest =>
      cases hd : decode c.cw with
      | error e =>
        rw [step_illegal hf hp hd] at h
        cases h
        exact .inr ⟨_, _, _, _, _, _, rfl, .inl rfl⟩
      | ok i =>
        rw [step_decoded hf hp hd] at h
        obtain ⟨u, r, a, d, hu, he⟩ := exec_hasEffect i { s with port := rest, din := c.din }
        rw [hu] at h
        cases h
        exact .inr ⟨_, _, _, _, _, _, rfl, .inr ⟨i, he⟩⟩
  · rw [step_halted hf] at h
    cases h

/-! ## The invariant -/

/-- Q.INIT's checks give a queue of the shape of 10_state R42. -/
theorem initQueue_shape {bytes isz : Nat} {bs : U16} (x : QState) (h : initSizesOk bytes isz bs.toNat = true) :
    RingShape bytes (initQueue x isz bs.toNat) := by
  simp only [initSizesOk, decide_eq_true_eq] at h
  obtain ⟨hisz, -, hle, hbytes⟩ := h
  have hbs := bs.isLt
  have hdiv : 1 ≤ bs.toNat / isz := (Nat.one_le_div_iff (by omega)).2 hle
  have hdle : bs.toNat / isz ≤ bs.toNat := Nat.div_le_self _ _
  have hmul : bs.toNat / isz * isz ≤ bs.toNat := Nat.div_mul_le_self _ _
  have iszNat : (initQueue x isz bs.toNat).isz.toNat = isz := Nat.mod_eq_of_lt (by omega)
  have maxcNat : (initQueue x isz bs.toNat).maxc.toNat = bs.toNat / isz := Nat.mod_eq_of_lt (by omega)
  refine ⟨by omega, by omega, ?_, Nat.zero_le _, ?_, ?_, (Nat.zero_mod _).symm⟩
  · rw [iszNat, maxcNat]
    omega
  · show 0 < _
    omega
  · show 0 < _
    omega

/-- A queue with no checker and no custom data owes the invariant its RAM and its shape alone. -/
theorem queueInv_of_bare {p : Params} {bytes : Nat} {x : QState} (hwf : Memory.wf x.ram) (hin : ∀ c ∈ x.ram, c.1 < bytes)
    (hshape : x.cfg = true → RingShape bytes x) (htorn : x.cfg = false → TornDown x) (hchk : x.chk = 0#8)
    (hcd : x.cd = none) : QueueInv p bytes x where
  ramCanonical := hwf
  ramInside := hin
  shape := hshape
  tornDown := htorn
  frameOnBytes := fun h => absurd (hchk.symm.trans h) (by decide)
  checkerKnown := fun h => absurd (hchk ▸ h) (by decide)
  customDataFits := by rw [hcd]; rfl

/-- Every write of a queue keeps the queue invariant. -/
theorem QueueWrite.inv {p : Params} {bytes : Nat} {x y : QState} (h : QueueInv p bytes x) (hw : QueueWrite p bytes x y) :
    QueueInv p bytes y := by
  cases hw with
  | init isz bs hsizes =>
    exact queueInv_of_bare h.ramCanonical h.ramInside (fun _ => initQueue_shape x hsizes)
      (fun hc => Bool.noConfusion hc) rfl rfl
  | push item hc hlen => exact h.push hc hlen
  | drop n hn => exact h.drop hn
  | setChecker id hc hknown hframe =>
    exact { h with
            tornDown := fun hn => Bool.noConfusion (hc.symm.trans hn)
            frameOnBytes := hframe
            checkerKnown := hknown }
  | clear hc =>
    obtain ⟨hisz, hmaxc, hroom, -, -, -, -⟩ := h.shape hc
    exact { h with
            shape := fun _ => ⟨hisz, hmaxc, hroom, Nat.zero_le _, hmaxc, hmaxc, (Nat.zero_mod _).symm⟩
            tornDown := fun hn => Bool.noConfusion (hc.symm.trans hn) }
  | setCustomData d hc hlen =>
    refine { h with
             tornDown := fun hn => Bool.noConfusion (hc.symm.trans hn)
             customDataFits := ?_ }
    by_cases hd : d = []
    · simp [hd]
    · have := List.length_pos_iff.2 hd
      simp [hd]
      omega
  | deinit =>
    exact queueInv_of_bare h.ramCanonical h.ramInside (fun hc => Bool.noConfusion hc)
      (fun _ => ⟨rfl, rfl, rfl, rfl, rfl⟩) rfl rfl
  | send d hu => exact h.pushBytes hu d

/-- RFWrite keeps the bounds of RF. -/
theorem rfWrite_inside {m : Memory} (h : ∀ c ∈ m, c.1 < rfBytes) (r v : U16) : ∀ c ∈ rfWrite m r v, c.1 < rfBytes := by
  intro c hc
  have hr := r.isLt
  unfold rfBytes
  rcases mem_memWrite hc with hc | ⟨rfl, -⟩
  · rcases mem_memWrite hc with hc | ⟨rfl, -⟩
    · exact h c hc
    · simp only
      omega
  · simp only
    omega

/-- The receive side keeps the invariant. -/
theorem Received.inv {s t : State} (hi : StateInv s) (h : Received s t) : StateInv t := by
  induction h with
  | start => exact hi
  | removed _ hn ih => exact hn.inv ih
  | handled payload _ ih => exact invokeHandler_inv ih payload

/-- Every effect of a command keeps the invariant. -/
theorem Effect.inv {i : Instr} {s t : State} (hi : StateInv s) (h : Effect i s t) : StateInv t := by
  induction h with
  | nothing => exact hi
  | queue q x _ hx => exact hi.withQueue (hx.inv (hi.queue q))
  | crcAcc | crcEn | hdl | tgt => exact hi.of_fields rfl rfl rfl rfl rfl
  | rf r v => exact { hi with rfCanonical := rfWrite_wf hi.rfCanonical r v, rfInside := rfWrite_inside hi.rfInside r v }
  | bind w _ hroom =>
    have hle := hi.bindingsFit
    exact { hi with bindingsFit := by simp only [List.length_append, List.length_singleton]; omega }
  | unbind => exact { hi with bindingsFit := Nat.zero_le _ }
  | store e a d =>
    exact { hi with rfCanonical := rfStore_wf hi.rfCanonical a d, rfInside := rfStore_inside hi.rfInside a d }
  | received _ hr => exact hr.inv hi
  | faulted f _ _ ih => exact ih.of_fields rfl rfl rfl rfl rfl

/-- Settles O19: a step is no change, an output, or an effect of a command with an output, and each keeps the invariant. -/
theorem everyStepKeepsTheInvariant : Obligations.EveryStepKeepsTheInvariant := by
  unfold Obligations.EveryStepKeepsTheInvariant
  intro s t hi h
  rcases step_cases h with rfl | ⟨port, din, u, r, a, d, rfl, hu⟩
  · exact hi
  · have hstart : StateInv { s with port := port, din := din } := hi.of_fields rfl rfl rfl rfl rfl
    have hinv : StateInv u := by
      rcases hu with rfl | ⟨i, he⟩
      · exact hstart
      · exact he.inv hstart
    exact hinv.of_fields rfl rfl rfl rfl rfl

/-! ## Who writes which field -/

/-- What command `i` leaves as it is from `s` to `t`: a field of `s` that `i` is no writer of. -/
structure Frame (i : Instr) (s t : State) : Prop where
  /-- No command writes PARAMS (20_memory R73). -/
  params : t.params = s.params
  crcAcc : ¬WritesCrcAcc i → t.crcAcc = s.crcAcc
  /-- CRC_EN is written by CDC.SETCRC, and through CRC_CFG by a register write (44_address_registry R238). -/
  crcEn : (∀ e, i ≠ .cdcSetcrc e) → (¬RunsRegisterWrite i ∨ s.params.crcCfg = none) → t.crcEn = s.crcEn
  hdl : (∀ id, i ≠ .cdcSethdl id) → t.hdl = s.hdl
  rf : ¬RunsRegisterWrite i → (∀ r, i ≠ .rfWr r) → t.rf = s.rf
  wb : i ≠ .wbAdd → i ≠ .wbClr → t.wb = s.wb
  tgt : ¬WritesTgt i → t.tgt = s.tgt
  evt : ¬RunsRegisterWrite i → t.evt = s.evt
  fault : ¬CanFault i → t.fault = s.fault
  queue : ∀ q, ¬WritesQueue q i → t.queue q = s.queue q

theorem Frame.refl (i : Instr) (s : State) : Frame i s s where
  params := rfl
  crcAcc _ := rfl
  crcEn _ _ := rfl
  hdl _ := rfl
  rf _ _ := rfl
  wb _ _ := rfl
  tgt _ := rfl
  evt _ := rfl
  fault _ := rfl
  queue _ _ := rfl

theorem Frame.trans {i : Instr} {s t u : State} (h : Frame i s t) (k : Frame i t u) : Frame i s u where
  params := k.params.trans h.params
  crcAcc hn := (k.crcAcc hn).trans (h.crcAcc hn)
  crcEn hn hc := (k.crcEn hn (by rw [h.params]; exact hc)).trans (h.crcEn hn hc)
  hdl hn := (k.hdl hn).trans (h.hdl hn)
  rf hn hr := (k.rf hn hr).trans (h.rf hn hr)
  wb hn hr := (k.wb hn hr).trans (h.wb hn hr)
  tgt hn := (k.tgt hn).trans (h.tgt hn)
  evt hn := (k.evt hn).trans (h.evt hn)
  fault hn := (k.fault hn).trans (h.fault hn)
  queue q hn := (k.queue q hn).trans (h.queue q hn)

/-- A writer of queue q that writes that queue alone. -/
theorem Frame.withQueue {i : Instr} {q : QueueId} (hw : WritesQueue q i) (s : State) (x : QState) :
    Frame i s (s.withQueue q x) where
  params := withQueue_params s q x
  crcAcc _ := withQueue_crcAcc s q x
  crcEn _ _ := withQueue_crcEn s q x
  hdl _ := withQueue_hdl s q x
  rf _ _ := withQueue_rf s q x
  wb _ _ := withQueue_wb s q x
  tgt _ := withQueue_tgt s q x
  evt _ := withQueue_evt s q x
  fault _ := withQueue_fault s q x
  queue q' hn := queue_withQueue_of_ne s q x q' fun he => hn (he ▸ hw)

/-- The handler writes as the register dispatcher does: RF, CRC_EN, EVT and TXQ. -/
theorem Frame.handled {i : Instr} (hr : RunsRegisterWrite i) (hw : WritesQueue .tx i) (s : State) (p : Bytes) :
    Frame i s (invokeHandler s p) := by
  obtain ⟨rf, en, es, x, h, -, hen, -⟩ := invokeHandler_cases s p
  rw [h]
  refine { Frame.withQueue hw s x with
           rf := fun hn => absurd hr hn
           evt := fun hn => absurd hr hn
           crcEn := fun _ hc => hen (hc.resolve_left (not_not_intro hr)) }

/-- What the receive side leaves as it is. -/
theorem Received.frame {i : Instr} {s t : State} (hi : i = .cdcRecv ∨ i = .cdcPoll) (h : Received s t) :
    Frame i s t := by
  have hr : RunsRegisterWrite i := by rcases hi with rfl | rfl <;> trivial
  have hw : ∀ q, WritesQueue q i := by rcases hi with rfl | rfl <;> exact fun _ => trivial
  induction h with
  | start => exact .refl i s
  | removed _ hn ih =>
    rw [hn.eq]
    exact ih.trans (.withQueue (hw .rx) _ _)
  | handled payload _ ih => exact ih.trans (.handled hr (hw .tx) _ payload)

/-- Every effect of a command leaves the fields it does not write. -/
theorem Effect.frame {i : Instr} {s t : State} (h : Effect i s t) : Frame i s t := by
  induction h with
  | nothing => exact .refl i s
  | queue q x hw => exact .withQueue hw s x
  | crcAcc c hw => exact { Frame.refl i s with crcAcc := fun hn => absurd hw hn }
  | crcEn en hi => exact { Frame.refl i s with crcEn := fun hn => absurd hi (hn en) }
  | hdl id hi => exact { Frame.refl i s with hdl := fun hn => absurd hi (hn id) }
  | tgt t hw => exact { Frame.refl i s with tgt := fun hn => absurd hw hn }
  | rf r v hi => exact { Frame.refl i s with rf := fun _ hn => absurd hi (hn r) }
  | bind w hi => exact { Frame.refl i s with wb := fun hn => absurd hi hn }
  | unbind hi => exact { Frame.refl i s with wb := fun _ hn => absurd hi hn }
  | store e a d hr =>
    exact { Frame.refl i s with
            rf := fun hn => absurd hr hn
            evt := fun hn => absurd hr hn
            crcEn := fun _ hc => crcEnAfter_none (hc.resolve_left (not_not_intro hr)) _ _ a d }
  | received hi hr => exact hr.frame hi
  | faulted f hc _ ih => exact { ih with fault := fun hn => absurd hc hn }

/-- Settles O10: the effect of a command leaves the fields it does not write, and recording its output writes OUTS alone. -/
theorem eachFieldHasOnlyItsWriters : Obligations.EachFieldHasOnlyItsWriters := by
  unfold Obligations.EachFieldHasOnlyItsWriters
  intro i s t h
  obtain ⟨u, r, a, d, hu, he⟩ := exec_hasEffect i s
  obtain rfl : record u r a d = t := Host.Outcome.next.inj (hu.symm.trans h)
  have fr := he.frame
  exact ⟨fr.crcAcc, fr.crcEn, fr.hdl, fr.rf, fr.wb, fr.tgt, fr.evt, fr.fault,
    fun q hn => (record_queue u r a d q).trans (fr.queue q hn)⟩

end Sys2Proof.Proofs.StateEffect
end

section
/-! PROOFS. The family of spec/10_state.md, part three: the start of a run (R62), its values and the invariant there. -/

namespace Sys2Proof.Proofs.StateStart

open Sys2Proof Sys2Proof.Machine

/-- R276: a queue of a PARAMS in range has 1..65535 bytes. -/
theorem queueBytes_range {p : Params} (h : paramsOk p = true) (q : QueueId) :
    1 ≤ queueBytes p q ∧ queueBytes p q < 2 ^ 16 := by
  have hq : queueParamsOk p = true := by
    simp only [paramsOk, Bool.and_eq_true] at h
    tauto
  simp only [queueParamsOk, decide_eq_true_eq] at hq
  cases q <;> simp only [queueBytes] <;> omega

/-- R276: a run under a PARAMS in range starts in the reset state under it. -/
theorem startState_of_paramsOk {p : Params} (h : paramsOk p = true) : startState p = State.postInit p := if_pos h

/-- R62: MAXC is the queue's byte count. -/
theorem postInit_maxc {bytes : Nat} (h : bytes < 2 ^ 16) (chk : Byte) : (QState.postInit bytes chk).maxc.toNat = bytes :=
  Nat.mod_eq_of_lt h

/-- A queue after reset meets the invariant, with no checker or with FRAME. -/
theorem postInit_queueInv {p : Params} {bytes : Nat} {chk : Byte} (hpos : 1 ≤ bytes) (hlt : bytes < 2 ^ 16)
    (hchk : chk.toNat < 2) : QueueInv p bytes (QState.postInit bytes chk) where
  ramCanonical := wf_nil
  ramInside _ hc := absurd hc List.not_mem_nil
  shape _ := by
    have hmaxc := postInit_maxc hlt chk
    refine ⟨le_refl 1, by omega, ?_, Nat.zero_le _, by rw [hmaxc]; exact hpos, by rw [hmaxc]; exact hpos,
      (Nat.zero_mod _).symm⟩
    rw [hmaxc]
    exact (Nat.mul_one bytes).le
  tornDown h := Bool.noConfusion h
  frameOnBytes _ := rfl
  checkerKnown h := absurd hchk (Nat.not_lt.2 h)
  customDataFits := rfl

/-- The reset state under a PARAMS in range meets the invariant. -/
theorem postInit_stateInv {p : Params} (h : paramsOk p = true) : StateInv (State.postInit p) where
  paramsValid := h
  rxq := postInit_queueInv (queueBytes_range h .rx).1 (queueBytes_range h .rx).2 (by decide)
  txq := postInit_queueInv (queueBytes_range h .tx).1 (queueBytes_range h .tx).2 (by decide)
  rfCanonical := wf_nil
  rfInside _ hc := absurd hc List.not_mem_nil
  bindingsFit := Nat.zero_le _

/-- Settles O18. -/
theorem everyStartMeetsTheInvariant : Obligations.EveryStartMeetsTheInvariant := by
  unfold Obligations.EveryStartMeetsTheInvariant
  intro p h
  rw [startState_of_paramsOk h]
  exact ⟨postInit_stateInv h, rfl⟩

/-- The default PARAMS is in range. -/
theorem default_paramsOk : paramsOk Params.default = true := by decide

/-- Settles O14: both queues are `QState.postInit`, whose MAXC fits 16 bits for a PARAMS in range; every other field reads its
reset value off `State.postInit`. -/
theorem resetLeavesTheListedValues : Obligations.ResetLeavesTheListedValues := by
  unfold Obligations.ResetLeavesTheListedValues
  intro p h
  have hstart := startState_of_paramsOk h
  refine ⟨State.postInit p, hstart, fun q => ?_, rfl, rfl, rfl, rfl, rfl, fun _ => rfl, rfl, tgtRead_freshTarget, rfl, rfl,
    fun hp => congrArg State.postInit hp⟩
  have hmaxc := fun chk => postInit_maxc (queueBytes_range h q).2 chk
  cases q with
  | rx => exact ⟨rfl, rfl, hmaxc 1#8, rfl, rfl, rfl, fun _ => rfl, rfl⟩
  | tx => exact ⟨rfl, rfl, hmaxc 0#8, rfl, rfl, rfl, fun _ => rfl, rfl⟩

/-- Settles O17: the reset state is the start under the default PARAMS. -/
theorem resetMeetsTheInvariant : Obligations.ResetMeetsTheInvariant := by
  unfold Obligations.ResetMeetsTheInvariant
  exact ⟨postInit_stateInv default_paramsOk, rfl⟩

end Sys2Proof.Proofs.StateStart
end

section
/-! PROOFS. The family of spec/20_memory.md: how a step runs a command (R79, R83), what every command leaves alone and gives
out (R73), and the commands that only read (R80). -/

namespace Sys2Proof.Proofs.Commands

open Sys2Proof Sys2Proof.Machine Sys2Proof.Proofs.StateEffect

/-! ## The step -/

/-- Settles O6: with FAULT none the step looks at the port, and the word of its oldest command decodes. -/
theorem stepRunsTheDecodedCommand : Obligations.StepRunsTheDecodedCommand := by
  unfold Obligations.StepRunsTheDecodedCommand
  intro s c rest i hrun hport hdecode
  exact step_decoded hrun hport hdecode

/-- Settles O8, by induction on the length of the run: an idle step answers the state that it starts in. -/
theorem idleMachineKeepsItsState : Obligations.IdleMachineKeepsItsState := by
  unfold Obligations.IdleMachineKeepsItsState
  intro s n hrun hport
  have hidle : step s = .next s := step_idle hrun hport
  refine ⟨hidle, ?_⟩
  induction n with
  | zero => exact runFor_zero s
  | succ n ih => rw [runFor_next hidle, ih]

/-! ## The log and the port -/

/-- From `s` to `t` the port, DIN and OUTS stay (log 1, 3), and EVT only grows, at its end (10_state R58). -/
structure Appends (s t : State) : Prop where
  port : t.port = s.port
  din : t.din = s.din
  outs : t.outs = s.outs
  evt : s.evt <+: t.evt

theorem Appends.refl (s : State) : Appends s s := ⟨rfl, rfl, rfl, [], List.append_nil _⟩

theorem Appends.trans {s t u : State} (h : Appends s t) (k : Appends t u) : Appends s u :=
  ⟨k.port.trans h.port, k.din.trans h.din, k.outs.trans h.outs, h.evt.trans k.evt⟩

theorem Appends.withQueue (s : State) (q : QueueId) (x : QState) : Appends s (s.withQueue q x) where
  port := withQueue_port s q x
  din := withQueue_din s q x
  outs := withQueue_outs s q x
  evt := by rw [withQueue_evt]

/-- A handler appends its events (42_frame_codec R181). -/
theorem Appends.invokeHandler (s : State) (payload : Bytes) : Appends s (invokeHandler s payload) := by
  obtain ⟨rf, en, es, x, h, -⟩ := invokeHandler_cases s payload
  rw [h]
  exact ⟨rfl, rfl, rfl, _, rfl⟩

/-- The receive side: its removals touch RXQ alone, its handlers append. -/
theorem Appends.ofReceived {s t : State} (h : Received s t) : Appends s t := by
  induction h with
  | start => exact .refl s
  | removed _ hn ih =>
    rw [hn.eq]
    exact ih.trans (.withQueue _ .rx _)
  | handled payload _ ih => exact ih.trans (.invokeHandler _ payload)

/-- A stored write appends the events of its entry's handler; every other effect leaves EVT or is the receive side's. -/
theorem Appends.ofEffect {i : Instr} {s t : State} (h : Effect i s t) : Appends s t := by
  induction h with
  | nothing => exact .refl s
  | queue q x => exact .withQueue s q x
  | crcAcc | crcEn | hdl | tgt | rf | bind | unbind => exact { Appends.refl s with }
  | store e a d => exact ⟨rfl, rfl, rfl, _, rfl⟩
  | received _ hr => exact .ofReceived hr
  | faulted f _ _ ih => exact ⟨ih.port, ih.din, ih.outs, ih.evt⟩

/-- Settles O9: every command takes a next state by one of its effects and records one output, and an effect only appends to
EVT and writes none of PARAMS, port, DIN and OUTS. -/
theorem everyCommandGivesOneOutput : Obligations.EveryCommandGivesOneOutput := by
  unfold Obligations.EveryCommandGivesOneOutput
  intro i s
  obtain ⟨u, r, a, d, hexec, heffect⟩ := exec_hasEffect i s
  obtain ⟨hport, hdin, houts, es, hevt⟩ := Appends.ofEffect heffect
  refine ⟨record u r a d, ⟨r, a, d⟩, es, hexec, ?_, hevt.symm, heffect.frame.params, hport, hdin⟩
  rw [record_outs, houts]

/-! ## The reading commands -/

/-- Command `i` writes no field, in any of the ways that an effect writes one; a model fault is no such write. -/
structure WritesNothing (i : Instr) : Prop where
  crcAcc : ¬WritesCrcAcc i
  tgt : ¬WritesTgt i
  register : ¬RunsRegisterWrite i
  queue : ∀ q, ¬WritesQueue q i
  crcEn : ∀ e, i ≠ .cdcSetcrc e
  hdl : ∀ id, i ≠ .cdcSethdl id
  rf : ∀ r, i ≠ .rfWr r
  bind : i ≠ .wbAdd
  unbind : i ≠ .wbClr

/-- No command that R80 lists is among the writers of a field, read off the two lists command by command. -/
theorem writesNothing_of_readsOnly {i : Instr} (h : ReadsOnly i) : WritesNothing i where
  crcAcc hw := by cases i <;> trivial
  tgt hw := by cases i <;> trivial
  register hw := by cases i <;> trivial
  queue q hw := by cases i <;> trivial
  crcEn _ hi := by subst hi; exact h
  hdl _ hi := by subst hi; exact h
  rf _ hi := by subst hi; exact h
  bind hi := by subst hi; exact h
  unbind hi := by subst hi; exact h

/-- The receive side runs register writes. -/
theorem runsRegisterWrite_of_receives {i : Instr} (h : i = .cdcRecv ∨ i = .cdcPoll) : RunsRegisterWrite i := by
  rcases h with rfl | rfl <;> trivial

/-- A command that writes nothing changes nothing, unless it ends in a model fault (60_exceptions R275). -/
theorem eq_of_effect_of_writesNothing {i : Instr} {s u : State} (hi : WritesNothing i) (h : Effect i s u)
    (hrun : Running u) : u = s := by
  cases h with
  | nothing => rfl
  | queue q x hw => exact absurd hw (hi.queue q)
  | crcAcc c hw => exact absurd hw hi.crcAcc
  | crcEn en he => exact absurd he (hi.crcEn en)
  | hdl id he => exact absurd he (hi.hdl id)
  | tgt t hw => exact absurd hw hi.tgt
  | rf r v he => exact absurd he (hi.rf r)
  | bind w he => exact absurd he hi.bind
  | unbind he => exact absurd he hi.unbind
  | store e a d hw => exact absurd hw hi.register
  | received he => exact absurd (runsRegisterWrite_of_receives he) hi.register
  | faulted f => exact absurd hrun (Option.some_ne_none f)

/-- Settles O11: a reading command has no effect that writes a field, and a next state that runs has no fault, so all that is
left to it is its output. -/
theorem readingCommandsChangeNothing : Obligations.ReadingCommandsChangeNothing := by
  unfold Obligations.ReadingCommandsChangeNothing
  intro i s t hreads _ hexec hrun
  obtain ⟨u, r, a, d, hu, heffect⟩ := exec_hasEffect i s
  obtain rfl : record u r a d = t := Host.Outcome.next.inj (hu.symm.trans hexec)
  obtain rfl : u = s := eq_of_effect_of_writesNothing (writesNothing_of_readsOnly hreads) heffect hrun
  exact ⟨r, a, d, rfl⟩

end Sys2Proof.Proofs.Commands
end

section
/-! PROOFS. The family of spec/30_encoding.md: the decoder and the encoder are inverse to each other (R94, R98), and the
decoder accepts the words that R97 does not call illegal. -/

namespace Sys2Proof.Proofs.Encoding

open Sys2Proof Sys2Proof.Laws

/-! ## A word and its fields -/

theorem toNat_fieldOp (w : U32) : (fieldOp w).toNat = w.toNat / 2 ^ 24 := by
  have h := w.isLt
  rw [fieldOp, BitVec.extractLsb'_toNat, Nat.shiftRight_eq_div_pow]
  omega

theorem toNat_fieldU (w : U32) : (fieldU w).toNat = w.toNat / 2 ^ 20 % 2 ^ 4 := by
  rw [fieldU, BitVec.extractLsb'_toNat, Nat.shiftRight_eq_div_pow]

theorem toNat_fieldZ (w : U32) : (fieldZ w).toNat = w.toNat / 2 ^ 16 % 2 ^ 4 := by
  rw [fieldZ, BitVec.extractLsb'_toNat, Nat.shiftRight_eq_div_pow]

theorem toNat_fieldImm (w : U32) : (fieldImm w).toNat = w.toNat % 2 ^ 16 := by
  rw [fieldImm, BitVec.extractLsb'_toNat, Nat.shiftRight_zero]

/-- R90: a word with Z = 0 is the word of its other fields. -/
theorem wordOf_fields {w : U32} (hz : fieldZ w = 0#4) : wordOf (fieldOp w) (fieldU w) (fieldImm w) = w := by
  have hz' : w.toNat / 2 ^ 16 % 2 ^ 4 = 0 := by rw [← toNat_fieldZ, hz, BitVec.toNat_ofNat]
  apply BitVec.eq_of_toNat_eq
  rw [toNat_wordOf, toNat_fieldOp, toNat_fieldU, toNat_fieldImm]
  omega

/-- A word is known by its four fields. -/
theorem wordOf_eq {w : U32} {op : Byte} {u : BitVec 4} {imm : U16} (ho : (fieldOp w).toNat = op.toNat)
    (hz : fieldZ w = 0#4) (hu : fieldU w = u) (hi : fieldImm w = imm) : wordOf op u imm = w := by
  subst hu hi
  rw [← BitVec.eq_of_toNat_eq ho]
  exact wordOf_fields hz

/-- R92: IMM is its two bytes. -/
theorem fieldImm_eq_append (w : U32) : fieldImm w = immHigh w ++ immLow w :=
  (BitVec.extractLsb'_append_extractLsb'_eq_extractLsb' (x := w) (start₁ := 0) (len₁ := 8) rfl).symm

theorem append_byte_inj {n b n' b' : Byte} : n ++ b = n' ++ b' ↔ n = n' ∧ b = b' := by
  constructor
  · intro h
    have hhigh := congrArg (BitVec.extractLsb' 8 8) h
    have hlow := congrArg (BitVec.extractLsb' 0 8) h
    rw [BitVec.extractLsb'_append_eq_left, BitVec.extractLsb'_append_eq_left] at hhigh
    rw [BitVec.extractLsb'_append_eq_right, BitVec.extractLsb'_append_eq_right] at hlow
    exact ⟨hhigh, hlow⟩
  · rintro ⟨rfl, rfl⟩
    rfl

/-! ## The codes of the operands are injective -/

@[simp] theorem queueCode_inj {q r : QueueId} : queueCode q = queueCode r ↔ q = r := by
  cases q <;> cases r <;> decide

@[simp] theorem variantCode_inj {v x : CrcVariant} : variantCode v = variantCode x ↔ v = x := by
  cases v <;> cases x <;> decide

@[simp] theorem primCode_inj {k l : Prim} : primCode k = primCode l ↔ k = l := by
  cases k <;> cases l <;> decide

@[simp] theorem imm8_inj {b c : Byte} : imm8 b = imm8 c ↔ b = c := by
  simp [imm8, append_byte_inj]

/-! ## What each reader of the decoder accepts, in the encoder's codes -/

@[simp] theorem checkZ_eq_ok {w : U32} {k : Except Illegal Instr} {i : Instr} :
    checkZ w k = .ok i ↔ fieldZ w = 0#4 ∧ k = .ok i := by
  unfold checkZ
  split <;> simp [*]

@[simp] theorem checkU0_eq_ok {w : U32} {k : Except Illegal Instr} {i : Instr} :
    checkU0 w k = .ok i ↔ fieldU w = 0#4 ∧ k = .ok i := by
  unfold checkU0
  split <;> simp [*]

@[simp] theorem readQueue_eq_ok {w : U32} {k : QueueId → Except Illegal Instr} {i : Instr} :
    readQueue w k = .ok i ↔ ∃ q, fieldU w = queueCode q ∧ k q = .ok i := by
  constructor
  · unfold readQueue
    split
    next hu => exact fun h => ⟨.rx, hu, h⟩
    next =>
      split
      next hu => exact fun h => ⟨.tx, hu, h⟩
      next => exact nofun
  · rintro ⟨q, hu, h⟩
    cases q <;> simpa [readQueue, hu, queueCode] using h

@[simp] theorem readVariant_eq_ok {w : U32} {k : CrcVariant → Except Illegal Instr} {i : Instr} :
    readVariant w k = .ok i ↔ ∃ v, fieldU w = variantCode v ∧ k v = .ok i := by
  constructor
  · unfold readVariant
    split
    next hu => exact fun h => ⟨.plain, hu, h⟩
    next =>
      split
      next hu => exact fun h => ⟨.modbus, hu, h⟩
      next => exact nofun
  · rintro ⟨v, hu, h⟩
    cases v <;> simpa [readVariant, hu, variantCode] using h

@[simp] theorem readKind_eq_ok {w : U32} {k : Prim → Except Illegal Instr} {i : Instr} :
    readKind w k = .ok i ↔ ∃ p, fieldU w = primCode p ∧ k p = .ok i := by
  constructor
  · unfold readKind
    split
    next hu => exact fun h => ⟨.uint, BitVec.eq_of_toNat_eq hu, h⟩
    next hu => exact fun h => ⟨.i16, BitVec.eq_of_toNat_eq hu, h⟩
    next hu => exact fun h => ⟨.i32, BitVec.eq_of_toNat_eq hu, h⟩
    next hu => exact fun h => ⟨.i64, BitVec.eq_of_toNat_eq hu, h⟩
    next hu => exact fun h => ⟨.f32, BitVec.eq_of_toNat_eq hu, h⟩
    next hu => exact fun h => ⟨.f64, BitVec.eq_of_toNat_eq hu, h⟩
    next => exact nofun
  · rintro ⟨p, hu, h⟩
    cases p <;> simpa [readKind, hu, primCode] using h

@[simp] theorem checkImm0_eq_ok {w : U32} {i j : Instr} : checkImm0 w j = .ok i ↔ fieldImm w = 0#16 ∧ j = i := by
  unfold checkImm0
  split <;> simp [*]

@[simp] theorem readImm8_eq_ok {w : U32} {k : Byte → Instr} {i : Instr} :
    readImm8 w k = .ok i ↔ ∃ b, fieldImm w = imm8 b ∧ k b = i := by
  simp only [fieldImm_eq_append, imm8, append_byte_inj, and_assoc]
  unfold readImm8
  split <;> simp [*]

@[simp] theorem readImm1_eq_ok {w : U32} {k : Bool → Instr} {i : Instr} :
    readImm1 w k = .ok i ↔ ∃ e, fieldImm w = (if e then 1#16 else 0#16) ∧ k e = i := by
  constructor
  · unfold readImm1
    split
    next hi => exact fun h => ⟨false, hi, Except.ok.inj h⟩
    next =>
      split
      next hi => exact fun h => ⟨true, hi, Except.ok.inj h⟩
      next => exact nofun
  · rintro ⟨e, hi, rfl⟩
    cases e <;> simp [readImm1, hi]

/-! ## The round trips -/

theorem encode_parsepOf (k : Prim) (s : Byte) : encode (parsepOf k s) = wordOf 0x42#8 (primCode k) (imm8 s) := by
  cases k <;> rfl

theorem encode_printpOf (k : Prim) (n s : Byte) : encode (printpOf k n s) = wordOf 0x43#8 (primCode k) (n ++ s) := by
  cases k <;> rfl

/-- Settles O1. The readers of the command's row pass its word, and since the codes of the operands are injective they
read back the operands it was written from. -/
theorem decodeOfEncodeIsTheCommand : Obligations.DecodeOfEncodeIsTheCommand := by
  unfold Obligations.DecodeOfEncodeIsTheCommand
  intro i
  cases i with
  | cdcSetcrc e => cases e <;> rfl
  | mapPrintpUint n s | mapPrintpI16 n s | mapPrintpI32 n s | mapPrintpI64 n s | mapPrintpF32 n s | mapPrintpF64 n s =>
    simp [encode, decode, imm_pair, printpOf]
  | _ => simp [encode, decode, parsepOf]

/-- Settles O2. What the readers of a row of R94 accept fixes OP, Z, U and IMM, so the word is the one the encoder writes
from them. The cases are numbered as the rows stand in `decode`, and grouped by the columns U and IMM. -/
theorem encodeOfDecodeIsTheWord : Obligations.EncodeOfDecodeIsTheWord := by
  unfold Obligations.EncodeOfDecodeIsTheWord
  intro w i h
  unfold decode at h
  split at h
  all_goals
    simp only [checkZ_eq_ok, checkU0_eq_ok, readQueue_eq_ok, readVariant_eq_ok, readKind_eq_ok, checkImm0_eq_ok,
      readImm8_eq_ok, readImm1_eq_ok, Except.ok.injEq, reduceCtorEq] at h
  -- U = 0, IMM = 0
  case h_1 hop | h_14 hop | h_16 hop | h_17 hop | h_18 hop | h_19 hop | h_20 hop | h_23 hop | h_30 hop | h_31 hop |
      h_32 hop | h_35 hop | h_36 hop =>
    obtain ⟨hz, hu, hi, rfl⟩ := h
    exact wordOf_eq hop hz hu hi
  -- U = 0, an operand in the low bits of IMM
  case h_13 hop | h_21 hop | h_22 hop | h_28 hop | h_29 hop =>
    obtain ⟨hz, hu, b, hi, rfl⟩ := h
    exact wordOf_eq hop hz hu hi
  -- U = 0, IMM a register address
  case h_33 hop | h_34 hop =>
    obtain ⟨hz, hu, rfl⟩ := h
    exact wordOf_eq hop hz hu rfl
  -- U selects a queue or a variant, IMM = 0
  case h_3 hop | h_4 hop | h_5 hop | h_7 hop | h_8 hop | h_9 hop | h_10 hop | h_11 hop | h_12 hop | h_15 hop =>
    obtain ⟨hz, q, hu, hi, rfl⟩ := h
    exact wordOf_eq hop hz hu hi
  case h_2 hop =>
    obtain ⟨hz, q, hu, rfl⟩ := h
    exact wordOf_eq hop hz hu rfl
  case h_6 hop =>
    obtain ⟨hz, q, hu, b, hi, rfl⟩ := h
    exact wordOf_eq hop hz hu hi
  -- U is a list id
  case h_24 hop =>
    obtain ⟨hz, hi, rfl⟩ := h
    exact wordOf_eq hop hz rfl hi
  case h_25 hop =>
    obtain ⟨hz, rfl⟩ := h
    exact wordOf_eq hop hz rfl rfl
  -- U is a kind
  case h_26 hop =>
    obtain ⟨hz, k, hu, b, hi, rfl⟩ := h
    rw [encode_parsepOf]
    exact wordOf_eq hop hz hu hi
  case h_27 hop =>
    obtain ⟨hz, k, hu, rfl⟩ := h
    rw [encode_printpOf]
    exact wordOf_eq hop hz hu (fieldImm_eq_append w)

/-- Both round trips in one: a word decodes to a command if and only if it is the command's word. -/
theorem decode_eq_ok_iff {w : U32} {i : Instr} : decode w = .ok i ↔ encode i = w := by
  refine ⟨encodeOfDecodeIsTheWord w i, ?_⟩
  rintro rfl
  exact decodeOfEncodeIsTheCommand i

/-- Settles O4: each of the eight words is the word that the encoder writes for its command. -/
theorem wordsOfTheSpecDecode : Obligations.WordsOfTheSpecDecode := by
  unfold Obligations.WordsOfTheSpecDecode
  exact ⟨decode_eq_ok_iff.2 rfl, decode_eq_ok_iff.2 rfl, decode_eq_ok_iff.2 rfl, decode_eq_ok_iff.2 rfl,
    decode_eq_ok_iff.2 rfl, decode_eq_ok_iff.2 rfl, decode_eq_ok_iff.2 rfl, decode_eq_ok_iff.2 rfl⟩

/-! ## Every word of a row of R94 is the word of a command -/

/-- The codes `code` reach every value with property `p`. -/
def Reaches {α : Type} {n : Nat} (p : Nat → Prop) (code : α → BitVec n) : Prop :=
  ∀ v : BitVec n, p v.toNat → ∃ a, code a = v

/-- Every word that the row `r` admits is the word of a command. -/
def Covered (r : WordRow) : Prop :=
  ∀ u imm, r.u.admits u.toNat = true → imm.toNat < 2 ^ r.immBits →
    ∃ i, encode i = wordOf (BitVec.ofNat 8 r.op) u imm

/-- A row is covered by a family of commands whose codes reach all its values of U and of IMM. -/
theorem covered_of_family {r : WordRow} {α β : Type} {u : α → BitVec 4} {m : β → U16}
    (hu : Reaches (fun x => r.u.admits x = true) u) (hm : Reaches (· < 2 ^ r.immBits) m) (f : α → β → Instr)
    (hf : ∀ a b, encode (f a b) = wordOf (BitVec.ofNat 8 r.op) (u a) (m b)) : Covered r := by
  intro v imm hv himm
  obtain ⟨a, rfl⟩ := hu v hv
  obtain ⟨b, rfl⟩ := hm imm himm
  exact ⟨f a b, hf a b⟩

theorem reaches_fixed (k : Nat) : Reaches (fun x => (UColumn.fixed k).admits x = true)
    fun _ : Unit => BitVec.ofNat 4 k := by
  intro v hv
  have hk : v.toNat = k := by simpa [UColumn.admits] using hv
  exact ⟨(), by rw [← hk, BitVec.ofNat_toNat, BitVec.setWidth_eq]⟩

/-- The two values that a select admits. -/
theorem eq_of_select {v : BitVec 4} (hv : UColumn.select.admits v.toNat = true) : v = 0#4 ∨ v = 1#4 := by
  revert v
  decide

theorem reaches_queue : Reaches (fun x => UColumn.select.admits x = true) queueCode := by
  intro v hv
  rcases eq_of_select hv with rfl | rfl
  · exact ⟨.rx, rfl⟩
  · exact ⟨.tx, rfl⟩

theorem reaches_variant : Reaches (fun x => UColumn.select.admits x = true) variantCode := by
  intro v hv
  rcases eq_of_select hv with rfl | rfl
  · exact ⟨.plain, rfl⟩
  · exact ⟨.modbus, rfl⟩

theorem reaches_self {n : Nat} (p : Nat → Prop) : Reaches p (id : BitVec n → BitVec n) := fun v _ => ⟨v, rfl⟩

theorem reaches_zero : Reaches (· < 2 ^ 0) fun _ : Unit => 0#16 := by
  intro v hv
  exact ⟨(), BitVec.eq_of_toNat_eq (Nat.lt_one_iff.1 hv).symm⟩

theorem reaches_flag : Reaches (· < 2 ^ 1) fun e : Bool => if e then 1#16 else 0#16 := by
  intro v hv
  rcases Nat.le_one_iff_eq_zero_or_eq_one.1 (Nat.lt_succ_iff.1 hv) with h | h
  · exact ⟨false, BitVec.eq_of_toNat_eq h.symm⟩
  · exact ⟨true, BitVec.eq_of_toNat_eq h.symm⟩

theorem reaches_imm8 : Reaches (· < 2 ^ 8) imm8 := by
  intro v hv
  refine ⟨BitVec.ofNat 8 v.toNat, BitVec.eq_of_toNat_eq ?_⟩
  rw [toNat_imm8, BitVec.toNat_ofNat, Nat.mod_eq_of_lt hv]

theorem reaches_pair : Reaches (· < 2 ^ 16) fun b : Byte × Byte => b.1 ++ b.2 := by
  intro v _
  exact ⟨(v.extractLsb' 8 8, v.extractLsb' 0 8),
    (BitVec.extractLsb'_append_extractLsb'_eq_extractLsb' rfl).trans BitVec.extractLsb'_eq_self⟩

/-- R94, system and queue rows. -/
theorem queueRows_covered : ∀ r ∈ queueRows, Covered r := by
  simp only [queueRows, List.forall_mem_cons]
  exact ⟨
    covered_of_family (reaches_fixed 0) reaches_zero (fun _ _ => .nop) fun _ _ => rfl,
    covered_of_family reaches_queue (reaches_self _) .qInit fun _ _ => rfl,
    covered_of_family reaches_queue reaches_zero (fun q _ => .qPush q) fun _ _ => rfl,
    covered_of_family reaches_queue reaches_zero (fun q _ => .qPop q) fun _ _ => rfl,
    covered_of_family reaches_queue reaches_zero (fun q _ => .qPopv q) fun _ _ => rfl,
    covered_of_family reaches_queue reaches_imm8 .qSetchk fun _ _ => rfl,
    covered_of_family reaches_queue reaches_zero (fun q _ => .qEmpty q) fun _ _ => rfl,
    covered_of_family reaches_queue reaches_zero (fun q _ => .qCount q) fun _ _ => rfl,
    covered_of_family reaches_queue reaches_zero (fun q _ => .qClear q) fun _ _ => rfl,
    covered_of_family reaches_queue reaches_zero (fun q _ => .qSetcd q) fun _ _ => rfl,
    covered_of_family reaches_queue reaches_zero (fun q _ => .qDeinit q) fun _ _ => rfl,
    List.forall_mem_nil _⟩

/-- R94, CRC and codec rows. -/
theorem codecRows_covered : ∀ r ∈ codecRows, Covered r := by
  simp only [codecRows, List.forall_mem_cons]
  exact ⟨
    covered_of_family reaches_variant reaches_zero (fun v _ => .crcSeed v) fun _ _ => rfl,
    covered_of_family (reaches_fixed 0) reaches_imm8 (fun _ b => .crcUpd b) fun _ _ => rfl,
    covered_of_family (reaches_fixed 0) reaches_zero (fun _ _ => .crcUpdn) fun _ _ => rfl,
    covered_of_family reaches_variant reaches_zero (fun v _ => .crcCalc v) fun _ _ => rfl,
    covered_of_family (reaches_fixed 0) reaches_zero (fun _ _ => .crcRd) fun _ _ => rfl,
    covered_of_family (reaches_fixed 0) reaches_zero (fun _ _ => .cdcSend) fun _ _ => rfl,
    covered_of_family (reaches_fixed 0) reaches_zero (fun _ _ => .cdcSendp) fun _ _ => rfl,
    covered_of_family (reaches_fixed 0) reaches_zero (fun _ _ => .cdcRecv) fun _ _ => rfl,
    covered_of_family (reaches_fixed 0) reaches_zero (fun _ _ => .cdcPoll) fun _ _ => rfl,
    covered_of_family (reaches_fixed 0) reaches_flag (fun _ e => .cdcSetcrc e) fun _ _ => rfl,
    covered_of_family (reaches_fixed 0) reaches_imm8 (fun _ id => .cdcSethdl id) fun _ _ => rfl,
    covered_of_family (reaches_fixed 0) reaches_zero (fun _ _ => .cdcPhase) fun _ _ => rfl,
    List.forall_mem_nil _⟩

/-- R94, the row of MAP.PARSEP for a kind. -/
theorem parsepRow_covered (k : Prim) : Covered ⟨0x42, .fixed (primCode k).toNat, 8⟩ :=
  covered_of_family (reaches_fixed _) reaches_imm8 (fun _ s => parsepOf k s) fun _ s => by
    rw [encode_parsepOf, BitVec.ofNat_toNat, BitVec.setWidth_eq]

/-- R94, the row of MAP.PRINTP for a kind. -/
theorem printpRow_covered (k : Prim) : Covered ⟨0x43, .fixed (primCode k).toNat, 16⟩ :=
  covered_of_family (reaches_fixed _) reaches_pair (fun _ b => printpOf k b.1 b.2) fun _ b => by
    rw [encode_printpOf, BitVec.ofNat_toNat, BitVec.setWidth_eq]

/-- R94, mapper rows. -/
theorem mapperRows_covered : ∀ r ∈ mapperRows, Covered r := by
  simp only [mapperRows, List.forall_mem_cons]
  exact ⟨
    covered_of_family (reaches_self _) reaches_zero (fun l _ => .mapParse l) fun _ _ => rfl,
    covered_of_family (reaches_self _) (reaches_self _) .mapPrint fun _ _ => rfl,
    parsepRow_covered .uint, parsepRow_covered .i16, parsepRow_covered .i32, parsepRow_covered .i64,
    parsepRow_covered .f32, parsepRow_covered .f64,
    printpRow_covered .uint, printpRow_covered .i16, printpRow_covered .i32, printpRow_covered .i64,
    printpRow_covered .f32, printpRow_covered .f64,
    covered_of_family (reaches_fixed 0) reaches_imm8 (fun _ s => .mapTrd s) fun _ _ => rfl,
    covered_of_family (reaches_fixed 0) reaches_imm8 (fun _ s => .mapTwr s) fun _ _ => rfl,
    List.forall_mem_nil _⟩

/-- R94, registry rows. -/
theorem registryRows_covered : ∀ r ∈ registryRows, Covered r := by
  simp only [registryRows, List.forall_mem_cons]
  exact ⟨
    covered_of_family (reaches_fixed 0) reaches_zero (fun _ _ => .regSet) fun _ _ => rfl,
    covered_of_family (reaches_fixed 0) reaches_zero (fun _ _ => .regGet) fun _ _ => rfl,
    covered_of_family (reaches_fixed 0) reaches_zero (fun _ _ => .regDisp) fun _ _ => rfl,
    covered_of_family (reaches_fixed 0) (reaches_self _) (fun _ r => .rfRd r) fun _ _ => rfl,
    covered_of_family (reaches_fixed 0) (reaches_self _) (fun _ r => .rfWr r) fun _ _ => rfl,
    covered_of_family (reaches_fixed 0) reaches_zero (fun _ _ => .wbAdd) fun _ _ => rfl,
    covered_of_family (reaches_fixed 0) reaches_zero (fun _ _ => .wbClr) fun _ _ => rfl,
    List.forall_mem_nil _⟩

theorem wordRows_covered : ∀ r ∈ wordRows, Covered r := by
  simp only [wordRows, List.forall_mem_append]
  exact ⟨queueRows_covered, codecRows_covered, mapperRows_covered, registryRows_covered⟩

/-! ## The legal words -/

/-- All rows of one OP use the same bits of IMM. -/
theorem immBits_eq_of_op_eq : ∀ r ∈ wordRows, ∀ r' ∈ wordRows, r'.op = r.op → r'.immBits = r.immBits := by
  decide

/-- R97: the fields of a legal word, by the row of R94 that admits them. -/
theorem row_of_legalWord {w : U32} (h : legalWord w = true) :
    fieldZ w = 0#4 ∧ ∃ r ∈ wordRows, r.op = (fieldOp w).toNat ∧ r.u.admits (fieldU w).toNat = true ∧
      (fieldImm w).toNat < 2 ^ r.immBits := by
  simp only [legalWord, zClear, uAdmitted, immAdmitted, Bool.and_eq_true, List.any_eq_true, beq_iff_eq,
    decide_eq_true_eq] at h
  obtain ⟨⟨⟨-, hz⟩, r, hr, hop, hu⟩, r', hr', hop', himm⟩ := h
  refine ⟨BitVec.eq_of_toNat_eq ((toNat_fieldZ w).trans hz), r, hr, hop.trans (toNat_fieldOp w).symm, ?_, ?_⟩
  · rwa [toNat_fieldU]
  · rwa [toNat_fieldImm, ← immBits_eq_of_op_eq r hr r' hr' (hop'.trans hop.symm)]

/-- Every legal word is the word of a command. -/
theorem encodes_of_legalWord {w : U32} (h : legalWord w = true) : ∃ i, encode i = w := by
  obtain ⟨hz, r, hr, hop, hu, himm⟩ := row_of_legalWord h
  obtain ⟨i, hi⟩ := wordRows_covered r hr _ _ hu himm
  refine ⟨i, ?_⟩
  rw [hi, hop, BitVec.ofNat_toNat, BitVec.setWidth_eq, wordOf_fields hz]

/-- The word of every command is legal: the family `EncodeLegal`, gathered. -/
theorem legalWord_encode (i : Instr) : legalWord (encode i) = true := by
  cases i
  exacts [EncodeLegal.nop, EncodeLegal.qInit _ _, EncodeLegal.qPush _, EncodeLegal.qPop _, EncodeLegal.qPopv _,
    EncodeLegal.qSetchk _ _, EncodeLegal.qEmpty _, EncodeLegal.qCount _, EncodeLegal.qClear _, EncodeLegal.qSetcd _,
    EncodeLegal.qDeinit _, EncodeLegal.crcSeed _, EncodeLegal.crcUpd _, EncodeLegal.crcUpdn, EncodeLegal.crcCalc _,
    EncodeLegal.crcRd, EncodeLegal.cdcSend, EncodeLegal.cdcSendp, EncodeLegal.cdcRecv, EncodeLegal.cdcPoll,
    EncodeLegal.cdcSetcrc _, EncodeLegal.cdcSethdl _, EncodeLegal.cdcPhase, EncodeLegal.mapParse _,
    EncodeLegal.mapPrint _ _, EncodeLegal.mapParsepUint _, EncodeLegal.mapParsepI16 _, EncodeLegal.mapParsepI32 _,
    EncodeLegal.mapParsepI64 _, EncodeLegal.mapParsepF32 _, EncodeLegal.mapParsepF64 _,
    EncodeLegal.mapPrintpUint _ _, EncodeLegal.mapPrintpI16 _ _, EncodeLegal.mapPrintpI32 _ _,
    EncodeLegal.mapPrintpI64 _ _, EncodeLegal.mapPrintpF32 _ _, EncodeLegal.mapPrintpF64 _ _, EncodeLegal.mapTrd _,
    EncodeLegal.mapTwr _, EncodeLegal.regSet, EncodeLegal.regGet, EncodeLegal.regDisp, EncodeLegal.rfRd _,
    EncodeLegal.rfWr _, EncodeLegal.wbAdd, EncodeLegal.wbClr]

/-- Settles O3: the words that decode are the words of the commands, and so are the legal ones. -/
theorem decodeAcceptsExactlyTheLegalWords : Obligations.DecodeAcceptsExactlyTheLegalWords := by
  unfold Obligations.DecodeAcceptsExactlyTheLegalWords
  intro w
  simp only [decode_eq_ok_iff]
  constructor
  · rintro ⟨i, rfl⟩
    exact legalWord_encode i
  · exact encodes_of_legalWord

end Sys2Proof.Proofs.Encoding
end

section
/-! PROOFS. The family of spec/40_ring_queue.md, part one: what each queue command but Q.POPV answers (R120 to R132). -/

namespace Sys2Proof.Proofs.QueueCommands

open Sys2Proof Sys2Proof.Machine

/-! ## The preamble (R120) -/

section preamble
variable {s : State} {q : QueueId} {k : QState → Reply}

theorem finish_onQueue_of_unconfigured (h : (s.queue q).cfg = false) :
    finish (onQueue s q k) = .next (record s .fail 0#32 []) := by
  rcases onQueue_cases s q k with ⟨-, hk⟩ | ⟨hc, -⟩
  · rw [hk, finish_answer]
  · exact Bool.noConfusion (h.symm.trans hc)

theorem finish_onQueue_of_configured {x : QState} (hx : s.queue q = x) (hc : x.cfg = true) :
    finish (onQueue s q k) = finish (k x) := by
  subst hx
  rcases onQueue_cases s q k with ⟨hn, -⟩ | ⟨-, hk⟩
  · exact Bool.noConfusion (hc.symm.trans hn)
  · rw [hk]

/-- Q.POPV makes the test of the preamble itself. -/
theorem popValid_of_unconfigured (h : (s.queue q).cfg = false) : popValid q s = .returned (answer s .fail 0#32 []) := by
  rw [popValid, if_neg (by rw [h]; exact Bool.false_ne_true), answerFail_eq]

end preamble

/-- Settles O21: eight of the nine commands run behind the shared preamble, and Q.POPV, the third, makes its test itself. -/
theorem unconfiguredQueueFails : Obligations.UnconfiguredQueueFails := by
  unfold Obligations.UnconfiguredQueueFails
  intro s q id i hi hcfg
  simp only [List.mem_cons, List.not_mem_nil, or_false] at hi
  rcases hi with rfl | rfl | rfl | rfl | rfl | rfl | rfl | rfl | rfl
  case inr.inr.inl => exact congrArg settle (popValid_of_unconfigured hcfg)
  all_goals exact finish_onQueue_of_unconfigured hcfg

/-! ## The contents, empty or not -/

theorem view_eq_nil_iff (x : QState) : view x = [] ↔ x.cnt = 0#16 := by
  rw [← List.length_eq_zero_iff, view_length]
  exact ⟨fun h => BitVec.eq_of_toNat_eq h, fun h => by rw [h]; rfl⟩

/-- The element at TAIL is the first of the view. -/
theorem elemAt_tail_of_view_cons {bytes : Nat} {x : QState} (h : RingShape bytes x) {e : Bytes} {l : List Bytes}
    (hv : view x = e :: l) : elemAt x x.tail.toNat = e := by
  obtain ⟨-, -, -, -, -, htail, -⟩ := h
  have hhead : viewAt x 0 = e := by
    rw [← view_getElem x 0 (by rw [hv]; exact Nat.zero_lt_succ _)]
    simp only [hv, List.getElem_cons_zero]
  rwa [viewAt, Nat.add_zero, Nat.mod_eq_of_lt htail] at hhead

/-! ## Q.INIT (R123) -/

theorem unBE_pair (hi lo : Byte) : unBE [hi, lo] = hi.toNat * 256 + lo.toNat := by
  simp [unBE_cons]

theorem answers_qInit_of_sizesOk {s : State} {q : QueueId} {bs : U16} (hlen : s.din.length = 2)
    (h : initSizesOk (queueBytes s.params q) (unBE s.din) bs.toNat = true) :
    Answers (.qInit q bs) s (s.withQueue q (initQueue (s.queue q) (unBE s.din) bs.toNat)) .ok
      ((initQueue (s.queue q) (unBE s.din) bs.toNat).maxc.setWidth 32) [] := by
  show finish _ = _
  rw [if_pos hlen, if_pos h, finish_answer]

theorem answers_qInit_of_refused {s : State} {q : QueueId} {bs : U16}
    (h : s.din.length = 2 → ¬ initSizesOk (queueBytes s.params q) (unBE s.din) bs.toNat = true) :
    Answers (.qInit q bs) s s .fail 0#32 [] := by
  show finish _ = _
  split
  · rename_i hlen
    rw [if_neg (h hlen)]
    rfl
  · rfl

section fresh
variable (x : QState) {isz : Nat} {bs : U16}

theorem initQueue_isz_toNat (h : isz ≤ bs.toNat) : (initQueue x isz bs.toNat).isz.toNat = isz :=
  Nat.mod_eq_of_lt (lt_of_le_of_lt h bs.isLt)

theorem initQueue_maxc_toNat : (initQueue x isz bs.toNat).maxc.toNat = bs.toNat / isz :=
  Nat.mod_eq_of_lt (lt_of_le_of_lt (Nat.div_le_self _ _) bs.isLt)

/-- AUX shows MAXC, which 32 bits hold. -/
theorem initQueue_maxc_setWidth :
    (initQueue x isz bs.toNat).maxc.setWidth 32 = BitVec.ofNat 32 (bs.toNat / isz) := by
  apply BitVec.eq_of_toNat_eq
  rw [BitVec.toNat_setWidth, BitVec.toNat_ofNat, initQueue_maxc_toNat]

end fresh

/-- Settles O22: the sizes pass Q.INIT's checks in the first clause and fail one of them in the other two. -/
theorem qInitBuildsAFreshQueue : Obligations.QInitBuildsAFreshQueue := by
  unfold Obligations.QInitBuildsAFreshQueue
  intro s q bs
  refine ⟨fun hi lo hdin hisz hbs hle hroom => ?_, fun hi lo hdin hbad => ?_, fun hlen => ?_⟩
  · have hval : unBE s.din = hi.toNat * 256 + lo.toNat := by rw [hdin, unBE_pair]
    have hsizes : initSizesOk (queueBytes s.params q) (unBE s.din) bs.toNat = true := by
      rw [hval]
      exact decide_eq_true ⟨hisz, hbs, hle, hroom⟩
    have hanswer := answers_qInit_of_sizesOk (by rw [hdin]; rfl) hsizes
    rw [hval, initQueue_maxc_setWidth] at hanswer
    exact ⟨_, hanswer, rfl, initQueue_isz_toNat _ hle, initQueue_maxc_toNat _, rfl, rfl, rfl, rfl, rfl, rfl⟩
  · refine answers_qInit_of_refused fun _ => ?_
    rw [hdin, unBE_pair, initSizesOk, decide_eq_true_eq]
    omega
  · exact answers_qInit_of_refused fun h => absurd h hlen

/-! ## Q.PUSH (R124) -/

theorem auxOfBool_pushEvicts (x : QState) :
    auxOfBool (pushEvicts x) = if x.cnt = x.maxc then 1#32 else 0#32 := by
  simp only [auxOfBool, pushEvicts, beq_iff_eq]

/-- Settles O23: `pushElem` field by field; its view is that of `view_pushElem`, which a full queue reads with one element
dropped. -/
theorem qPushAppendsTheItem : Obligations.QPushAppendsTheItem := by
  unfold Obligations.QPushAppendsTheItem
  intro s q x hx hinv hcfg
  have hshape : RingShape _ x := hinv.shape hcfg
  have ⟨_, hmaxc, _⟩ := hshape
  refine ⟨fun hlen => ⟨pushElem x s.din, ?_, pushElem_setup x s.din, ?_, fun hfull => ?_, fun hroom => ?_, fun a => ?_⟩,
    fun hlen => ?_⟩
  · refine (finish_onQueue_of_configured hx hcfg).trans ?_
    rw [if_pos hlen, finish_answer, auxOfBool_pushEvicts]
  · rw [pushElem_head, toNat_advBy hmaxc]
  · have hpos : view x ≠ [] := by
      rw [Ne, view_eq_nil_iff, hfull]
      intro h0
      rw [h0] at hmaxc
      exact absurd hmaxc (by decide)
    refine ⟨?_, ?_, ?_⟩
    · rw [pushElem_tail, if_pos hfull, toNat_advBy hmaxc]
    · apply BitVec.eq_of_toNat_eq
      rw [pushElem_cnt hshape, if_pos hfull]
    · rw [view_pushElem hshape hinv.ramCanonical hlen, if_pos hfull, List.drop_one,
        List.tail_append_of_ne_nil hpos]
  · refine ⟨?_, ?_, ?_⟩
    · rw [pushElem_tail, if_neg hroom]
    · rw [pushElem_cnt hshape, if_neg hroom]
    · rw [view_pushElem hshape hinv.ramCanonical hlen, if_neg hroom, List.drop_zero]
  · rw [pushElem_ram, memRead_memWriteBytes hinv.ramCanonical, hlen]
  · refine (finish_onQueue_of_configured hx hcfg).trans ?_
    rw [if_neg hlen]
    rfl

/-! ## Q.POP (R125) -/

/-- Settles O24: on a queue with elements the removal is `dropElems x 1`, and DOUT is the element at TAIL. -/
theorem qPopTakesTheOldest : Obligations.QPopTakesTheOldest := by
  unfold Obligations.QPopTakesTheOldest
  intro s q x hx hinv hcfg
  have hshape : RingShape _ x := hinv.shape hcfg
  have ⟨_, hmaxc, _⟩ := hshape
  refine ⟨fun hempty => ?_, fun e l hview => ?_⟩
  · refine (finish_onQueue_of_configured hx hcfg).trans ?_
    rw [if_pos ((view_eq_nil_iff x).1 hempty), finish_answer]
  · have hcnt : x.cnt ≠ 0#16 := fun h0 => by
      rw [(view_eq_nil_iff x).2 h0] at hview
      cases hview
    have hone : 1 ≤ x.cnt.toNat := by
      rw [← view_length, hview]
      exact Nat.le_add_left 1 l.length
    refine ⟨dropElems x 1, ?_, ?_, dropElems_setup x 1, rfl, rfl, toNat_advBy hmaxc _ _, ?_⟩
    · refine (finish_onQueue_of_configured hx hcfg).trans ?_
      rw [if_neg hcnt, finish_answer, elemAt_tail_of_view_cons hshape hview]
    · rw [view_dropElems hshape hone, hview, List.drop_one, List.tail_cons]
    · rw [dropElems_cnt hone]
      omega

/-! ## Q.SETCHK and Q.SETCD (R127, R131) -/

theorem checkerDefined_iff (p : Params) (id : Byte) :
    checkerDefined p id = true ↔ ∃ d ∈ p.checkers, d.id = id.toNat := by
  simp only [checkerDefined, List.any_eq_true, beq_iff_eq]

/-- Settles O26: each clause is one branch of its command behind the preamble. -/
theorem qSetchkAndQSetcdSetTheirField : Obligations.QSetchkAndQSetcdSetTheirField := by
  unfold Obligations.QSetchkAndQSetcdSetTheirField
  intro s q x hx hcfg
  refine ⟨fun id => ⟨fun hbad => ?_, fun hknown hbytes => ?_⟩, fun hlong => ?_, fun hnil => ?_, fun hne hfits => ?_⟩ <;>
    refine (finish_onQueue_of_configured hx hcfg).trans ?_
  · rw [← checkerDefined_iff, Bool.not_eq_true] at hbad
    rcases hbad with hunknown | hwide
    · rw [if_pos hunknown]
      rfl
    · rw [if_pos hwide, ite_self]
      rfl
  · rw [← checkerDefined_iff] at hknown
    rw [if_neg fun h => Bool.noConfusion (h.2.symm.trans (hknown h.1)), if_neg fun h => h.2 (hbytes h.1), finish_answer]
  · rw [if_pos hlong]
    rfl
  · rw [if_neg (by rw [hnil]; exact Nat.not_lt_zero _), if_pos hnil, finish_answer]
  · rw [if_neg (Nat.not_lt.2 hfits), if_neg hne, finish_answer]

/-! ## Q.EMPTY and Q.COUNT (R128, R129) -/

/-- Settles O27: CNT is 0 where the view is empty, and is the view's length. -/
theorem qEmptyAndQCountReport : Obligations.QEmptyAndQCountReport := by
  unfold Obligations.QEmptyAndQCountReport
  intro s q hcfg
  refine ⟨?_, _, finish_onQueue_of_configured rfl hcfg, ?_⟩
  · refine (finish_onQueue_of_configured rfl hcfg).trans ?_
    simp only [finish_answer, auxOfBool, beq_iff_eq, view_eq_nil_iff]
  · have hlt := (s.queue q).cnt.isLt
    rw [answer_aux, view_length, BitVec.toNat_setWidth]
    omega

/-! ## Q.CLEAR and Q.DEINIT (R130, R132) -/

/-- Settles O28: both commands write CNT = 0, and a queue with CNT = 0 shows no element. -/
theorem qClearAndQDeinitEmptyTheQueue : Obligations.QClearAndQDeinitEmptyTheQueue := by
  unfold Obligations.QClearAndQDeinitEmptyTheQueue
  intro s q x hx hcfg
  exact ⟨⟨_, finish_onQueue_of_configured hx hcfg, (view_eq_nil_iff _).2 rfl, ⟨rfl, rfl, rfl, rfl, rfl⟩, rfl, rfl, rfl, rfl⟩,
    ⟨_, finish_onQueue_of_configured hx hcfg, (view_eq_nil_iff _).2 rfl, rfl, rfl, rfl, rfl, rfl, rfl, rfl, rfl, rfl⟩⟩

end Sys2Proof.Proofs.QueueCommands
end

section
/-! PROOFS. The family of spec/40_ring_queue.md, part two: Q.POPV on the ring is the reassembly on the list of its elements
(R122, R126), and the elements of a queue leave it oldest first (R134). -/

namespace Sys2Proof.Proofs.QueueOrder

open Sys2Proof Sys2Proof.Machine Sys2Proof.Proofs.StateEffect Sys2Proof.Proofs.QueueCommands

/-! ## Q.POPV's tests on a configured queue -/

section tests
variable {q : QueueId} {s : State} (hcfg : (s.queue q).cfg = true)
include hcfg

theorem popValid_of_no_checker (hchk : (s.queue q).chk = 0#8) : popValid q s = .returned (answer s .fail 0#32 []) := by
  rw [popValid, if_pos hcfg, if_pos hchk, answerFail_eq]

theorem popValid_of_view_nil (hchk : (s.queue q).chk ≠ 0#8) (hv : view (s.queue q) = []) :
    popValid q s = .returned (answer s .inv 0#32 []) := by
  rw [popValid, if_pos hcfg, if_neg hchk, if_pos ((view_eq_nil_iff _).1 hv)]

theorem popValid_eq_popvLoop (hchk : (s.queue q).chk ≠ 0#8) (hv : view (s.queue q) ≠ []) :
    popValid q s = popvLoop q (s.queue q).cnt.toNat 0 s := by
  rw [popValid, if_pos hcfg, if_neg hchk, if_neg (mt (view_eq_nil_iff _).2 hv)]

end tests

/-! ## Q.POPV and the reassembly on lists -/

/-- The checker of a queue sees the list of its elements and nothing else of the ring. -/
theorem runChecker_eq_checkList (s : State) (x : QState) :
    runChecker s.params s.crcEn x = checkList s x (view x) := rfl

/-- A removal changes the list that the checker sees, and not the checker. -/
theorem checkList_dropElems (s : State) (q : QueueId) (x : QState) (n : Nat) :
    checkList (s.withQueue q (dropElems x n)) (dropElems x n) = checkList s x := by
  funext l
  simp only [checkList, withQueue_params, withQueue_crcEn]
  rfl

/-- An ending of Q.POPV on queue q of `s` is the ending of the reassembly on the list of its elements: elements leave the
queue from the oldest end until it holds what is left of the list, nothing else changes, and the outputs are the same. -/
def EndsAs (q : QueueId) (s : State) : CmdEnd → ListEnd → Prop
  | .returned r, .returned rest res aux out =>
    (∃ n, Removed q s r.st n) ∧ view (r.st.queue q) = rest ∧ r.res = res ∧ r.aux = BitVec.ofNat 32 aux ∧ r.dout = out
  | .faulted t f, .faulted rest => (∃ n, Removed q s t n) ∧ view (t.queue q) = rest ∧ f = .checkerContract
  | _, _ => False

/-- One dropped element and then an ending of the rest. -/
theorem EndsAs.drop {q : QueueId} {s : State} {e : CmdEnd} {l : ListEnd} (hc : 1 ≤ (s.queue q).cnt.toNat)
    (h : EndsAs q (s.withQueue q (dropElems (s.queue q) 1)) e l) : EndsAs q s e l := by
  cases e <;> cases l
  case returned.returned =>
    obtain ⟨⟨n, hn⟩, hrest⟩ := h
    exact ⟨⟨_, hn.step (le_refl 1) hc⟩, hrest⟩
  case faulted.faulted =>
    obtain ⟨⟨n, hn⟩, hrest⟩ := h
    exact ⟨⟨_, hn.step (le_refl 1) hc⟩, hrest⟩
  all_goals exact h

/-- The loop of Q.POPV simulates the reassembly, turn by turn. -/
theorem popvLoop_endsAs_reassemble {bytes : Nat} (q : QueueId) (turns dropped : Nat) (s : State)
    (hs : RingShape bytes (s.queue q)) (ht : turns ≤ (s.queue q).cnt.toNat) (hd : dropped + turns < 2 ^ 32) :
    EndsAs q s (popvLoop q turns dropped s)
      (reassemble (checkList s (s.queue q)) turns dropped (view (s.queue q))) := by
  induction turns generalizing dropped s with
  | zero => exact ⟨⟨0, .zero q s⟩, rfl, rfl, auxOfCount_small hd, rfl⟩
  | succ turns ih =>
    have hc : 1 ≤ (s.queue q).cnt.toNat := by omega
    rw [popvLoop, reassemble, runChecker_eq_checkList]
    cases checkList s (s.queue q) (view (s.queue q)) with
    | badRead => exact ⟨⟨0, .zero q s⟩, rfl, rfl⟩
    | inv => exact ⟨⟨0, .zero q s⟩, rfl, rfl, auxOfCount_small (by omega), rfl⟩
    | fail =>
      have hrest := ih (dropped + 1) (s.withQueue q (dropElems (s.queue q) 1))
        (by rw [queue_withQueue]; exact dropElems_shape hs hc)
        (by rw [queue_withQueue, dropElems_cnt hc]; omega) (by omega)
      rw [queue_withQueue, checkList_dropElems, view_dropElems hs hc, List.drop_one] at hrest
      exact hrest.drop hc
    | ok n =>
      dsimp only
      rw [view_length]
      split
      · exact ⟨⟨0, .zero q s⟩, rfl, rfl⟩
      · have hcnt := (s.queue q).cnt.isLt
        refine ⟨⟨n, by omega, .inr ⟨by omega, rfl⟩⟩, ?_, rfl, auxOfCount_small (by omega), rfl⟩
        rw [answer_st, queue_withQueue, view_dropElems hs (by omega)]

/-- TAIL moves on by the elements removed. -/
theorem tail_toNat_of_removed {bytes : Nat} {q : QueueId} {s t : State} {n : Nat} (hs : RingShape bytes (s.queue q))
    (h : Removed q s t n) :
    (t.queue q).tail.toNat =
      ((s.queue q).tail.toNat + ((s.queue q).cnt.toNat - (t.queue q).cnt.toNat)) % (s.queue q).maxc.toNat := by
  obtain ⟨-, hmaxc, -, -, -, htail, -⟩ := hs
  obtain ⟨hn, ⟨-, rfl⟩ | ⟨-, rfl⟩⟩ := h
  · rw [Nat.sub_self, Nat.add_zero, Nat.mod_eq_of_lt htail]
  · rw [queue_withQueue, dropElems_cnt hn, Nat.sub_sub_self hn]
    exact toNat_advBy hmaxc _ _

/-- Settles O25. With a checker and elements Q.POPV is its loop, which simulates the reassembly; what the loop removes fixes
the fields of the queue. -/
theorem qPopvIsReassemblyOfTheContents : Obligations.QPopvIsReassemblyOfTheContents := by
  unfold Obligations.QPopvIsReassemblyOfTheContents
  rintro s q x rfl hinv hcfg
  have hshape : RingShape _ (s.queue q) := hinv.shape hcfg
  refine ⟨fun hchk => ?_, fun hchk hempty => ?_, fun hchk hne => ?_⟩
  · exact congrArg settle (popValid_of_no_checker hcfg hchk)
  · exact congrArg settle (popValid_of_view_nil hcfg hchk hempty)
  · have hexec : exec (.qPopv q) s = settle (popvLoop q (s.queue q).cnt.toNat 0 s) :=
      congrArg settle (popValid_eq_popvLoop hcfg hchk hne)
    have hcnt := (s.queue q).cnt.isLt
    have hends := popvLoop_endsAs_reassemble q _ 0 s hshape (le_refl _) (by omega)
    rw [view_length]
    simp only [Answers, hexec]
    revert hends
    cases popvLoop q (s.queue q).cnt.toNat 0 s with
    | returned r =>
      cases reassemble (checkList s (s.queue q)) (s.queue q).cnt.toNat 0 (view (s.queue q)) with
      | returned rest res aux out =>
        rintro ⟨⟨n, hn⟩, hrest, rfl, haux, rfl⟩
        obtain ⟨hsetup, hram, hhead⟩ := hn.setup
        refine ⟨r.st.queue q, hsetup, hram, hhead, tail_toNat_of_removed hshape hn, ?_, hrest⟩
        rw [← hn.eq, ← haux, settle_returned, finish_eq]
      | faulted rest => exact False.elim
    | faulted t f =>
      cases reassemble (checkList s (s.queue q)) (s.queue q).cnt.toNat 0 (view (s.queue q)) with
      | returned rest res aux out => exact False.elim
      | faulted rest =>
        rintro ⟨⟨n, hn⟩, hrest, rfl⟩
        obtain ⟨hsetup, hram, hhead⟩ := hn.setup
        refine ⟨t.queue q, hsetup, hram, hhead, tail_toNat_of_removed hshape hn, ?_, hrest⟩
        rw [← hn.eq]
        rfl

/-! ## Elements leave oldest first -/

/-- `y` holds what `x` held without some number of the oldest elements. -/
def LosesOldest (x y : QState) : Prop := ∃ k ≤ (view x).length, view y = (view x).drop k

theorem LosesOldest.of_view_eq {x y : QState} (h : view y = view x) : LosesOldest x y := ⟨0, Nat.zero_le _, h⟩

theorem LosesOldest.trans {x y z : QState} (h : LosesOldest x y) (k : LosesOldest y z) : LosesOldest x z := by
  obtain ⟨a, ha, hy⟩ := h
  obtain ⟨b, hb, hz⟩ := k
  rw [hy, List.length_drop] at hb
  exact ⟨a + b, by omega, by rw [hz, hy, List.drop_drop]⟩

/-- Removed elements are the oldest; an unconfigured queue has none to remove. -/
theorem losesOldest_of_removed {p : Params} {bytes n : Nat} {q : QueueId} {s t : State} (hi : QueueInv p bytes (s.queue q))
    (h : Removed q s t n) : LosesOldest (s.queue q) (t.queue q) := by
  cases hc : (s.queue q).cfg with
  | true => exact ⟨n, by rw [view_length]; exact h.1, (h.view (hi.shape hc)).2⟩
  | false =>
    obtain ⟨-, -, hcnt, -, -⟩ := hi.tornDown hc
    have hleft := h.cnt
    refine .of_view_eq ?_
    rw [(view_eq_nil_iff _).2 hcnt, view_eq_nil_iff]
    rw [hcnt] at hleft
    exact BitVec.eq_of_toNat_eq (Nat.eq_zero_of_add_eq_zero_right hleft)

/-- The receive side only removes from RXQ: the handler does not touch it (42_frame_codec R181). -/
theorem losesOldest_of_received {s t : State} (hi : StateInv s) (h : Received s t) : LosesOldest s.rxq t.rxq := by
  induction h with
  | start => exact .of_view_eq rfl
  | removed ht hn ih => exact ih.trans (losesOldest_of_removed ((ht.inv hi).queue .rx) hn)
  | @handled t payload _ ih => rwa [(invokeHandler_frame t payload).1]

/-- The commands that can write queue q and neither push nor reset it. -/
inductive OnlyRemoves (q : QueueId) : Instr → Prop
  | pop : OnlyRemoves q (.qPop q)
  | popv : OnlyRemoves q (.qPopv q)
  | setChecker (id : Byte) : OnlyRemoves q (.qSetchk q id)
  | setCustomData : OnlyRemoves q (.qSetcd q)
  | recv : q = .rx → OnlyRemoves q .cdcRecv
  | poll : q = .rx → OnlyRemoves q .cdcPoll

/-- The writers of queue q are those and the ones that push or reset, read off the two lists command by command. -/
theorem onlyRemoves_of_writesQueue {i : Instr} {q : QueueId} (hw : WritesQueue q i) (hn : ¬AddsOrResets q i) :
    OnlyRemoves q i := by
  have hrx : q ≠ .tx → q = .rx := by cases q <;> simp
  cases i with
  | qPop p => obtain rfl : p = q := hw; exact .pop
  | qPopv p => obtain rfl : p = q := hw; exact .popv
  | qSetchk p id => obtain rfl : p = q := hw; exact .setChecker id
  | qSetcd p => obtain rfl : p = q := hw; exact .setCustomData
  | cdcRecv => exact .recv (hrx hn)
  | cdcPoll => exact .poll (hrx hn)
  | _ => exact absurd hw hn

/-- The state that a command's ending leaves, but for FAULT and the outputs. -/
def endState : CmdEnd → State
  | .returned r => r.st
  | .faulted t _ => t

/-- Setting FAULT and recording the outputs leave the queues. -/
theorem queue_of_settle {e : CmdEnd} {t : State} (h : settle e = .next t) (q : QueueId) :
    t.queue q = (endState e).queue q := by
  cases e <;> cases h <;> cases q <;> rfl

/-- A command behind the queue preamble loses oldest elements where it does so on a configured queue. -/
theorem LosesOldest.of_onQueue {s t : State} {q : QueueId} {k : QState → Reply} (h : finish (onQueue s q k) = .next t)
    (hk : (s.queue q).cfg = true → LosesOldest (s.queue q) ((k (s.queue q)).st.queue q)) :
    LosesOldest (s.queue q) (t.queue q) := by
  rw [queue_of_settle (e := .returned _) h q]
  rcases onQueue_cases s q k with ⟨-, hr⟩ | ⟨hc, hr⟩ <;> simp only [endState, hr]
  · exact .of_view_eq rfl
  · exact hk hc

theorem popValid_losesOldest {s : State} (q : QueueId) (hi : StateInv s) :
    LosesOldest (s.queue q) ((endState (popValid q s)).queue q) := by
  obtain ⟨turns, h⟩ := popValid_spec q s
  revert h
  cases popValid q s with
  | returned r => rintro ⟨n, hn, -⟩; exact losesOldest_of_removed (hi.queue q) hn
  | faulted t f => rintro ⟨-, n, hn⟩; exact losesOldest_of_removed (hi.queue q) hn

theorem losesOldest_of_endReceived {s : State} {e : CmdEnd} (hi : StateInv s) (h : EndReceived s e) :
    LosesOldest s.rxq (endState e).rxq := by
  cases e <;> exact losesOldest_of_received hi h

theorem OnlyRemoves.losesOldest {i : Instr} {s t : State} {q : QueueId} (hr : OnlyRemoves q i) (hi : StateInv s)
    (h : exec i s = .next t) : LosesOldest (s.queue q) (t.queue q) := by
  cases hr with
  | pop =>
    refine .of_onQueue h fun hc => ?_
    split
    · exact .of_view_eq rfl
    · rename_i hcnt
      have hone : 1 ≤ (s.queue q).cnt.toNat := Nat.one_le_iff_ne_zero.2 fun h0 => hcnt (BitVec.eq_of_toNat_eq h0)
      rw [answer_st, queue_withQueue]
      exact ⟨1, by rwa [view_length], view_dropElems ((hi.queue q).shape hc) hone⟩
  | popv =>
    rw [queue_of_settle h q]
    exact popValid_losesOldest q hi
  | setChecker id =>
    refine .of_onQueue h fun _ => .of_view_eq ?_
    split
    · rfl
    · split
      · rfl
      · rw [answer_st, queue_withQueue]
        rfl
  | setCustomData =>
    refine .of_onQueue h fun _ => .of_view_eq ?_
    split
    · rfl
    · rw [answer_st, queue_withQueue]
      rfl
  | recv hq =>
    subst hq
    rw [queue_of_settle h .rx]
    exact losesOldest_of_endReceived hi (receive_received .start)
  | poll hq =>
    subst hq
    rw [queue_of_settle h .rx]
    exact losesOldest_of_endReceived hi (pollLoop_received _ 0 .start)

/-- Settles O29: a command that does not write the queue leaves it (O10), and a writer that neither pushes nor resets only
removes from the oldest end. -/
theorem elementsLeaveOldestFirst : Obligations.ElementsLeaveOldestFirst := by
  unfold Obligations.ElementsLeaveOldestFirst
  intro i s t q hi hexec hn
  show LosesOldest (s.queue q) (t.queue q)
  by_cases hw : WritesQueue q i
  · exact (onlyRemoves_of_writesQueue hw hn).losesOldest hi hexec
  · obtain ⟨-, -, -, -, -, -, -, -, hqueue⟩ := eachFieldHasOnlyItsWriters i s t hexec
    exact .of_view_eq (by rw [hqueue q hw])

end Sys2Proof.Proofs.QueueOrder
end

section
/-! PROOFS. The family of spec/41_crc16.md: the CRC function (R150 to R152, R159, R160), the five commands (R154 to R158), and a
CRC computed over several commands at the port (R159). -/

namespace Sys2Proof.Proofs.Crc

open Sys2Proof Sys2Proof.Machine Sys2Proof.Proofs.Encoding

/-! ## The bit-serial step -/

theorem crcStep_of_bit_clear {c : U16} (h : c.getLsbD 0 = false) : crcStep c = c >>> 1 := by
  rw [crcStep, h]
  rfl

/-- A step shifts the register and adds 0xA001 times the bit shifted out. -/
theorem crcStep_eq (c : U16) : crcStep c = (c >>> 1) ^^^ (if c.getLsbD 0 then 0xA001#16 else 0#16) := by
  unfold crcStep
  split
  · rfl
  · rw [BitVec.xor_zero]

/-- The step is linear over XOR: 0xA001 enters twice, and drops out, where both operands shift a one out. -/
theorem crcStep_xor (x y : U16) : crcStep (x ^^^ y) = crcStep x ^^^ crcStep y := by
  have hfeed : (if (x ^^^ y).getLsbD 0 then 0xA001#16 else 0#16) =
      (if x.getLsbD 0 then 0xA001#16 else 0#16) ^^^ (if y.getLsbD 0 then 0xA001#16 else 0#16) := by
    rw [BitVec.getLsbD_xor]
    cases x.getLsbD 0 <;> cases y.getLsbD 0 <;> rfl
  rw [crcStep_eq, crcStep_eq x, crcStep_eq y, BitVec.ushiftRight_xor_distrib, hfeed]
  ac_rfl

theorem crcSteps_xor (n : Nat) (x y : U16) : crcSteps n (x ^^^ y) = crcSteps n x ^^^ crcSteps n y := by
  induction n generalizing x y with
  | zero => rfl
  | succ n ih => simp only [crcSteps, crcStep_xor, ih]

/-- While only zeros are shifted out, the steps are a plain shift. -/
theorem crcSteps_of_low_bits_clear (n : Nat) (c : U16) (h : ∀ i < n, c.getLsbD i = false) : crcSteps n c = c >>> n := by
  induction n generalizing c with
  | zero => rfl
  | succ n ih =>
    have hshifted : ∀ i < n, (c >>> 1).getLsbD i = false := fun i hi => by
      rw [BitVec.getLsbD_ushiftRight]
      exact h _ (by omega)
    rw [crcSteps, crcStep_of_bit_clear (h 0 n.succ_pos), ih _ hshifted, ← BitVec.shiftRight_add,
      Nat.add_comm]

/-- Bit by bit: the accumulator with a byte added in is its high byte, and its low byte with the byte added in. -/
theorem xor_byte_eq_high_xor_low (c : U16) (b : Byte) :
    c ^^^ b.setWidth 16 = ((c >>> 8) <<< 8) ^^^ (c.setWidth 8 ^^^ b).setWidth 16 := by
  ext i hi
  by_cases hlow : i < 8
  · simp [hlow, hi]
  · simp [hlow, hi, Nat.le_of_not_lt hlow]

/-- Settles O30. By linearity the eight steps act on the two bytes of the accumulator apart: they shift the high byte down,
and on the low byte they are the table's entry. -/
theorem crcUpdateIsBitSerial : Obligations.CrcUpdateIsBitSerial := by
  unfold Obligations.CrcUpdateIsBitSerial
  intro c b
  have hhigh : crcSteps 8 ((c >>> 8) <<< 8) = c >>> 8 := by
    rw [crcSteps_of_low_bits_clear 8 _ fun i hi => by simp [hi]]
    ext i hi
    simpa using BitVec.lt_of_getLsbD
  calc crcUpdate c b = crcSteps 8 ((c >>> 8) <<< 8) ^^^ crcSteps 8 ((c.setWidth 8 ^^^ b).setWidth 16) := by
        rw [hhigh]; rfl
    _ = crcSteps 8 (c ^^^ b.setWidth 16) := by rw [← crcSteps_xor, ← xor_byte_eq_high_xor_low]

/-! ## The table (R160) -/

/-- The 64 entries of the table from `a` on. -/
def tableFrom (a : Nat) : List U16 := (List.range' a 64).map fun i => crcTable (BitVec.ofNat 8 i)

theorem table_eq_rows : (List.range 256).map (fun i => crcTable (BitVec.ofNat 8 i)) =
    tableFrom 0 ++ (tableFrom 64 ++ (tableFrom 128 ++ tableFrom 192)) := by
  have hrange : List.range' 0 64 ++ (List.range' 64 64 ++ (List.range' 128 64 ++ List.range' 192 64)) =
      List.range 256 := by
    rw [List.range'_append_1, List.range'_append_1, List.range'_append_1, List.range_eq_range']
  simp only [← hrange, List.map_append, tableFrom]

theorem tableFrom_0 : tableFrom 0 = tableRows0 := by decide
theorem tableFrom_64 : tableFrom 64 = tableRows1 := by decide
theorem tableFrom_128 : tableFrom 128 = tableRows2 := by decide
theorem tableFrom_192 : tableFrom 192 = tableRows3 := by decide

/-- Settles O31: 64 entries at a time, each computed. -/
theorem crcTableIsTheListedOne : Obligations.CrcTableIsTheListedOne := by
  unfold Obligations.CrcTableIsTheListedOne
  rw [table_eq_rows, tableFrom_0, tableFrom_64, tableFrom_128, tableFrom_192]

/-! ## The five commands (R154 to R158) -/

section commands
variable (s : State)

theorem answers_crcSeed (v : CrcVariant) :
    Answers (.crcSeed v) s { s with crcAcc := crcSeedOf v } .ok ((crcSeedOf v).setWidth 32) [] :=
  finish_answer ..

theorem answers_crcUpd (b : Byte) :
    Answers (.crcUpd b) s { s with crcAcc := crcUpdate s.crcAcc b } .ok ((crcUpdate s.crcAcc b).setWidth 32) [] :=
  finish_answer ..

theorem answers_crcUpdn :
    Answers .crcUpdn s { s with crcAcc := crcOf s.crcAcc s.din } .ok ((crcOf s.crcAcc s.din).setWidth 32) [] :=
  finish_answer ..

theorem answers_crcCalc (v : CrcVariant) :
    Answers (.crcCalc v) s s .ok ((crcOf (crcSeedOf v) s.din).setWidth 32) [] :=
  finish_answer ..

theorem answers_crcRd : Answers .crcRd s s .ok (s.crcAcc.setWidth 32) [] :=
  finish_answer ..

end commands

/-- Settles O33: the answers of the five commands, at both seeds. -/
theorem crcCommandsAnswerTheCrc : Obligations.CrcCommandsAnswerTheCrc := by
  unfold Obligations.CrcCommandsAnswerTheCrc
  intro s b
  exact ⟨answers_crcSeed s .plain, answers_crcSeed s .modbus, answers_crcUpd s b, answers_crcUpdn s,
    answers_crcCalc s .plain, answers_crcCalc s .modbus, answers_crcRd s⟩

/-! ## A CRC in pieces (R159) -/

theorem crcOf_append (seed : U16) (d e : Bytes) : crcOf seed (d ++ e) = crcOf (crcOf seed d) e :=
  List.foldl_append

/-- The step goes from `s` to `t`, which goes on with the commands `rest` and has `c` in CRC_ACC. -/
def StepsTo (s t : State) (rest : List Command) (c : U16) : Prop :=
  step s = .next t ∧ Running t ∧ t.port = rest ∧ t.crcAcc = c

/-- A command at the port that only sets CRC_ACC. -/
theorem stepsTo_of_answers {s : State} {i : Instr} {d : Bytes} {rest : List Command} {c : U16} {a : U32}
    (hrun : Running s) (hport : s.port = ⟨encode i, d⟩ :: rest)
    (h : Answers i { s with port := rest, din := d } { s with port := rest, din := d, crcAcc := c } .ok a []) :
    ∃ t, StepsTo s t rest c :=
  ⟨_, (step_decoded hrun hport (decodeOfEncodeIsTheCommand i)).trans h, hrun, rfl, rfl⟩

/-- A piece at the port is folded into CRC_ACC. -/
theorem stepsTo_of_piece {s : State} {p : Piece} {rest : List Command} (hrun : Running s)
    (hport : s.port = p.command :: rest) : ∃ t, StepsTo s t rest (crcOf s.crcAcc p.data) := by
  cases p with
  | byte b => exact stepsTo_of_answers hrun hport (answers_crcUpd _ b)
  | bytes d => exact stepsTo_of_answers hrun hport (answers_crcUpdn _)

/-- A run over pieces folds the bytes of all of them into CRC_ACC. -/
theorem runFor_pieces (ps : List Piece) {s : State} (hrun : Running s) (hport : s.port = ps.map Piece.command) :
    ∃ t, runFor ps.length s = .next t ∧ t.crcAcc = crcOf s.crcAcc (ps.flatMap Piece.data) := by
  induction ps generalizing s with
  | nil => exact ⟨s, runFor_zero s, rfl⟩
  | cons p ps ih =>
    obtain ⟨u, hstep, hrunu, hportu, haccu⟩ := stepsTo_of_piece hrun hport
    obtain ⟨t, hruns, hacc⟩ := ih hrunu hportu
    refine ⟨t, (runFor_next hstep _).trans hruns, ?_⟩
    rw [hacc, haccu, List.flatMap_cons, crcOf_append]

/-- Settles O32. The CRC is a left fold; CRC.SEED starts the run at the seed and the pieces fold their bytes in, so CRC_ACC
ends at what CRC.CALC answers over all of them. -/
theorem crcOfAnySplitIsTheCrcOfTheWhole : Obligations.CrcOfAnySplitIsTheCrcOfTheWhole := by
  unfold Obligations.CrcOfAnySplitIsTheCrcOfTheWhole
  refine ⟨fun seed d e => (crcOf_append seed d e).symm, fun s v ps hrun hport => ?_⟩
  obtain ⟨u, hstep, hrunu, hportu, haccu⟩ := stepsTo_of_answers hrun hport (answers_crcSeed _ v)
  obtain ⟨t, hruns, hacc⟩ := runFor_pieces ps hrunu hportu
  rw [haccu] at hacc
  refine ⟨t, (runFor_next hstep _).trans hruns, hacc, ?_⟩
  rw [hacc]
  exact answers_crcCalc _ v

end Sys2Proof.Proofs.Crc
end

section
/-! PROOFS. The family of spec/42_frame_codec.md, part one: the configuration commands (R178, R179) and sending into TXQ (R174,
R175). -/

namespace Sys2Proof.Proofs.CodecSend

open Sys2Proof Sys2Proof.Machine

/-- Settles O40: each command writes its operand into its field. -/
theorem cdcSetcrcAndCdcSethdlSetTheirField : Obligations.CdcSetcrcAndCdcSethdlSetTheirField := by
  unfold Obligations.CdcSetcrcAndCdcSethdlSetTheirField
  intro s e id
  exact ⟨finish_answer .., finish_answer ..⟩

/-! ## A queue the codec can use (60_exceptions R272) -/

theorem usable_iff (x : QState) : usable x = true ↔ x.cfg = true ∧ x.isz = 1#16 := by
  rw [usable, Bool.and_eq_true, beq_iff_eq]

theorem not_usable_iff (x : QState) : usable x = false ↔ x.cfg = false ∨ x.isz ≠ 1#16 := by
  rw [usable, Bool.and_eq_false_iff, beq_eq_false_iff_ne]

/-! ## What pushed bytes leave of the queue -/

/-- HEAD moves on by one place a byte. -/
theorem pushBytes_head {x : QState} (hm : 1 ≤ x.maxc.toNat) (hhead : x.head.toNat < x.maxc.toNat) (d : Bytes) :
    (pushBytes x d).head.toNat = (x.head.toNat + d.length) % x.maxc.toNat := by
  induction d generalizing x with
  | nil => exact (Nat.mod_eq_of_lt hhead).symm
  | cons b d ih =>
    obtain ⟨-, -, hmaxc, -, -⟩ := pushElem_setup x [b]
    have hnext : (pushElem x [b]).head.toNat = (x.head.toNat + 1) % x.maxc.toNat := by
      rw [pushElem_head, toNat_advBy hm]
    rw [pushBytes, ih (by rwa [hmaxc]) (by rw [hmaxc, hnext]; exact Nat.mod_lt _ hm), hmaxc, hnext, Nat.mod_add_mod,
      Nat.add_assoc, Nat.add_comm 1, List.length_cons]

/-- RAM changes at the pushed elements alone: one byte each, from HEAD on around the ring. -/
theorem memRead_pushBytes {x : QState} (hm : 1 ≤ x.maxc.toNat) (hhead : x.head.toNat < x.maxc.toNat)
    (hw : Memory.wf x.ram) (hisz : x.isz = 1#16) {a : Nat} (d : Bytes)
    (ha : ∀ j < d.length, a ≠ (x.head.toNat + j) % x.maxc.toNat) :
    memRead (pushBytes x d).ram a = memRead x.ram a := by
  induction d generalizing x with
  | nil => rfl
  | cons b d ih =>
    obtain ⟨-, hisz', hmaxc, -, -⟩ := pushElem_setup x [b]
    have hnext : (pushElem x [b]).head.toNat = (x.head.toNat + 1) % x.maxc.toNat := by
      rw [pushElem_head, toNat_advBy hm]
    have hfirst : a ≠ x.head.toNat := by
      have h0 := ha 0 (Nat.succ_pos _)
      rwa [Nat.add_zero, Nat.mod_eq_of_lt hhead] at h0
    have hram : (pushElem x [b]).ram = memWriteBytes x.ram x.head.toNat [b] := by
      rw [pushElem_ram, hisz]
      exact congrArg (memWriteBytes x.ram · [b]) (Nat.mul_one _)
    have hrest : ∀ j < d.length, a ≠ ((pushElem x [b]).head.toNat + j) % (pushElem x [b]).maxc.toNat := fun j hj => by
      have hj1 := ha (1 + j) (by rw [List.length_cons]; omega)
      rwa [hmaxc, hnext, Nat.mod_add_mod, Nat.add_assoc]
    rw [pushBytes, ih (by rwa [hmaxc]) (by rw [hmaxc, hnext]; exact Nat.mod_lt _ hm)
      (by rw [hram]; exact memWriteBytes_wf hw _ _) (hisz'.trans hisz) hrest, hram, memRead_memWriteBytes hw,
      if_neg (by rw [List.length_singleton]; omega)]

/-- The bytes pushed into a queue that meets its invariant, in the words of the statements. -/
theorem pushedBytes_pushBytes {p : Params} {bytes : Nat} {x : QState} (hi : QueueInv p bytes x) (hcfg : x.cfg = true)
    (hisz : x.isz = 1#16) (d : Bytes) : PushedBytes x (pushBytes x d) d := by
  have hshape := hi.shape hcfg
  obtain ⟨-, hm, -, -, hhead, -, -⟩ := hi.shape hcfg
  obtain ⟨⟨-, -, -, -, -, htail, hring⟩, -, -, hsetup, hview⟩ :=
    pushBytes_spec hshape hi.ramCanonical hi.ramInside hisz d
  have hmaxc : (pushBytes x d).maxc = x.maxc := hsetup.2.2.1
  rw [hmaxc] at htail hring
  refine ⟨hsetup, ?_, pushBytes_head hm hhead d, hring, htail,
    fun a ha => memRead_pushBytes hm hhead hi.ramCanonical hisz d ha⟩
  rw [hview, newest, unitElems, List.length_append, List.length_map, view_length]

theorem auxOfCount_toNat {n : Nat} (h : n < 2 ^ 32) : (auxOfCount n).toNat = n := by
  rw [auxOfCount_small h, BitVec.toNat_ofNat, Nat.mod_eq_of_lt h]

/-! ## CDC.SEND and CDC.SENDP -/

/-- Settles O34: the two ways CDC.SEND can end, by whether TXQ is usable. -/
theorem cdcSendPushesTheBytes : Obligations.CdcSendPushesTheBytes := by
  unfold Obligations.CdcSendPushesTheBytes
  intro s hi
  have hexec : exec .cdcSend s = finish (sendBytes s s.din) := rfl
  refine ⟨fun hcfg hisz => ⟨pushBytes s.txq s.din, auxOfCount s.din.length, ?_, pushedBytes_pushBytes hi hcfg hisz _,
    auxOfCount_toNat⟩, fun hbad => ?_⟩
  · rw [Answers, hexec, sendBytes, if_pos ((usable_iff _).2 ⟨hcfg, hisz⟩), finish_answer]
  · rw [Answers, hexec, sendBytes, (not_usable_iff _).2 hbad]
    rfl

/-- Both readings of the bound on the length field (R171). -/
theorem two_pow_eight_mul (n : Nat) : 2 ^ (8 * n) = 256 ^ n := by
  rw [pow_mul]
  norm_num

/-- `pack` with the CRC's length and bytes named (R171). -/
theorem pack_eq {p : Params} {en : Bool} {d crc : Bytes} {c : Nat} (hc : crcLen en = c)
    (hcrc : (if en then crcWire d else []) = crc) :
    pack p en d = if d.length + c < 2 ^ (8 * p.lenW) then some (p.hdr ++ be p.lenW (d.length + c) ++ d ++ crc) else none := by
  subst hc hcrc
  rw [pack, two_pow_eight_mul]

/-- Settles O35: CDC.SENDP pushes what `pack` gives, and fails where that is nothing or TXQ is not usable. -/
theorem cdcSendpPushesTheFrame : Obligations.CdcSendpPushesTheFrame := by
  unfold Obligations.CdcSendpPushesTheFrame
  intro s c crc hi hoff hon
  have hexec : exec .cdcSendp s = finish (sendPacket s s.din) := rfl
  obtain ⟨hc, hcrc⟩ : crcLen s.crcEn = c ∧ (if s.crcEn then crcWire s.din else []) = crc := by
    cases hen : s.crcEn with
    | false => obtain ⟨rfl, rfl⟩ := hoff hen; exact ⟨rfl, rfl⟩
    | true => obtain ⟨rfl, rfl⟩ := hon hen; exact ⟨rfl, rfl⟩
  have hpack := pack_eq (p := s.params) hc hcrc
  have hframe : (s.params.hdr ++ be s.params.lenW (s.din.length + c) ++ s.din ++ crc).length =
      s.params.hdr.length + s.params.lenW + s.din.length + c := by
    have hlen : crc.length = c := by
      subst hc hcrc
      cases s.crcEn <;> rfl
    simp only [List.length_append, be_length, hlen]
  refine ⟨fun hcfg hisz hfits => ⟨_, _, ?_, pushedBytes_pushBytes hi hcfg hisz _, auxOfCount_toNat⟩, fun hbad => ?_⟩
  · rw [if_pos hfits] at hpack
    rw [Answers, hexec, sendPacket, if_pos ((usable_iff _).2 ⟨hcfg, hisz⟩), hpack, ← hframe]
    exact finish_answer ..
  · rw [← or_assoc, ← not_usable_iff] at hbad
    have hnone : usable s.txq = false ∨ pack s.params s.crcEn s.din = none :=
      hbad.imp_right fun hlarge => by rw [hpack, if_neg (Nat.not_lt.2 hlarge)]
    rw [Answers, hexec]
    rcases sendPacket_cases s s.din with ⟨-, h⟩ | ⟨f, hu, hf, -⟩
    · rw [h, finish_answer]
    · rw [hu, hf] at hnone
      rcases hnone with h | h <;> cases h

end Sys2Proof.Proofs.CodecSend
end

section
/-! PROOFS. The family of spec/42_frame_codec.md, part two: the FRAME checker and the receive phase on a byte string (R172,
R180), `pack` against the checker and `strip` (R171, R173), and a corrupted payload (R183). -/

namespace Sys2Proof.Proofs.CodecFrame

open Sys2Proof Sys2Proof.Machine Sys2Proof.Proofs.Crc Sys2Proof.Proofs.CodecSend

/-! ## The header -/

/-- The header comparison looks at the bytes that the header and the view have in common first. -/
theorem headerVerdict_eq (h v : Bytes) :
    headerVerdict h v = if v.take h.length = h.take v.length then
      if v.length < h.length then some .inv else none else some .fail := by
  induction h generalizing v with
  | nil => cases v <;> rfl
  | cons x h ih =>
    cases v with
    | nil => rfl
    | cons y v =>
      simp only [headerVerdict, ih, List.length_cons, List.take_succ_cons, List.cons.injEq, Nat.add_lt_add_iff_right]
      by_cases hxy : y = x
      · simp only [hxy, if_true, true_and]
      · simp only [hxy, if_false, false_and]

theorem headerVerdict_append (h v : Bytes) : headerVerdict h (h ++ v) = none := by
  rw [headerVerdict_eq, if_pos (by simp), if_neg (by simp)]

/-! ## The preamble -/

section preamble
variable {p : Params} {len : Bytes} (hlen : len.length = p.lenW) (rest : Bytes)
include hlen

theorem declaredLen_append : declaredLen p (p.hdr ++ len ++ rest) = unBE len := by
  rw [declaredLen, slice_append p.hdr len rest rfl (by rw [hlen, preambleLen])]

theorem declaredTotal_append : declaredTotal p (p.hdr ++ len ++ rest) = p.hdr.length + p.lenW + unBE len := by
  rw [declaredTotal, declaredLen_append hlen, preambleLen]

theorem preamble_append_length : (p.hdr ++ len ++ rest).length = preambleLen p + rest.length := by
  rw [List.length_append, List.length_append, hlen, preambleLen]

/-- The checker behind a whole preamble: steps 2 to 4 of R172. -/
theorem frameCheck_append (en : Bool) :
    frameCheck p en (p.hdr ++ len ++ rest) =
      if rest.length < unBE len then .inv
      else if en && !crcMatches p (p.hdr ++ len ++ rest) then .fail else .ok (p.hdr.length + p.lenW + unBE len) := by
  have hheader : headerVerdict p.hdr (p.hdr ++ len ++ rest) = none := by
    rw [List.append_assoc, headerVerdict_append]
  have hshort : (p.hdr ++ len ++ rest).length < declaredTotal p (p.hdr ++ len ++ rest) ↔ rest.length < unBE len := by
    rw [preamble_append_length hlen, declaredTotal_append hlen, preambleLen, Nat.add_lt_add_iff_left]
  have hpreamble : ¬(p.hdr ++ len ++ rest).length < preambleLen p := by
    rw [preamble_append_length hlen]
    exact Nat.not_lt.2 (Nat.le_add_right _ _)
  rw [frameCheck, hheader]
  dsimp only
  rw [if_neg hpreamble]
  simp only [hshort]
  rw [declaredTotal_append hlen]

end preamble

/-! ## The CRC of a declared frame (R172, step 4) -/

theorem byteAt_append_cons (s t : Bytes) (b : Byte) {a : Nat} (ha : a = s.length) : byteAt (s ++ b :: t) a = b := by
  subst ha
  simp [byteAt]

/-- The two CRC bytes are compared with the payload's CRC as one word, low byte first (C1). -/
theorem crcMatches_append {p : Params} {len payload more : Bytes} {lo hi : Byte} (hlen : len.length = p.lenW)
    (hdecl : unBE len = payload.length + 2) :
    crcMatches p (p.hdr ++ len ++ (payload ++ [lo, hi] ++ more)) = decide (crcOf 0xFFFF#16 payload = hi ++ lo) := by
  have hpre : preambleLen p = (p.hdr ++ len).length := by rw [List.length_append, hlen, preambleLen]
  have hlenField := declaredLen_append hlen (payload ++ [lo, hi] ++ more)
  generalize hv : p.hdr ++ len ++ (payload ++ [lo, hi] ++ more) = v at hlenField ⊢
  have htotal : declaredTotal p v = (p.hdr ++ len ++ payload).length + 2 := by
    rw [declaredTotal, hlenField, hdecl, hpre, List.length_append (bs := payload), Nat.add_assoc]
  have hpayload : slice v (preambleLen p) ((p.hdr ++ len ++ payload).length + 2 - 2) = payload := by
    rw [← hv, List.append_assoc payload, ← List.append_assoc _ payload]
    exact slice_append _ _ _ hpre List.length_append
  have hlo : byteAt v ((p.hdr ++ len ++ payload).length + 2 - 2) = lo := by
    rw [← hv, show p.hdr ++ len ++ (payload ++ [lo, hi] ++ more) = (p.hdr ++ len ++ payload) ++ lo :: ([hi] ++ more) by simp]
    exact byteAt_append_cons _ _ _ (Nat.add_sub_cancel _ _)
  have hhi : byteAt v ((p.hdr ++ len ++ payload).length + 2 - 1) = hi := by
    rw [← hv, show p.hdr ++ len ++ (payload ++ [lo, hi] ++ more) = (p.hdr ++ len ++ payload ++ [lo]) ++ hi :: more by simp]
    exact byteAt_append_cons _ _ _ (by rw [List.length_append (bs := [lo])]; rfl)
  have hword : (crcModbus payload).toNat = lo.toNat + 256 * hi.toNat ↔ crcOf 0xFFFF#16 payload = hi ++ lo := by
    rw [← BitVec.toNat_inj, toNat_pair, Nat.add_comm, Nat.mul_comm]
    rfl
  have htwo : 2 ≤ payload.length + 2 := Nat.le_add_left _ _
  rw [Bool.eq_iff_iff]
  simp only [crcMatches, htotal, hpayload, hlo, hhi, hlenField, hdecl, Bool.and_eq_true, decide_eq_true_eq, beq_iff_eq, hword,
    htwo, true_and]

/-- A declared length too small for the CRC fails it. -/
theorem crcMatches_of_declaredLen_lt {p : Params} {v : Bytes} (h : declaredLen p v < 2) : crcMatches p v = false := by
  rw [crcMatches, decide_eq_false (Nat.not_le.2 h), Bool.false_and]

/-- The checker on a whole frame with its CRC, right or wrong, and whatever follows. -/
theorem frameCheck_crc {p : Params} {len payload more : Bytes} {lo hi : Byte} (hlen : len.length = p.lenW)
    (hdecl : unBE len = payload.length + 2) :
    frameCheck p true (p.hdr ++ len ++ (payload ++ [lo, hi] ++ more)) =
      if crcOf 0xFFFF#16 payload = hi ++ lo then .ok (p.hdr.length + p.lenW + unBE len) else .fail := by
  have hwhole : ¬(payload ++ [lo, hi] ++ more).length < unBE len := by
    simp only [hdecl, List.length_append, List.length_cons, List.length_nil]
    omega
  rw [frameCheck_append hlen, if_neg hwhole, crcMatches_append hlen hdecl]
  by_cases hcrc : crcOf 0xFFFF#16 payload = hi ++ lo <;> simp [hcrc]

/-! ## The checker's steps -/

/-- Settles O36: the header comparison, then the preamble, then the declared frame with its CRC. -/
theorem frameCheckerFollowsItsSteps : Obligations.FrameCheckerFollowsItsSteps := by
  unfold Obligations.FrameCheckerFollowsItsSteps
  intro p en v
  refine ⟨fun hdiff => ?_, fun hshort hpre => ?_, ?_, fun hle hpre hshort => ?_⟩
  · rw [frameCheck, headerVerdict_eq, if_neg hdiff]
  · have hsame : v.take p.hdr.length = p.hdr.take v.length := by
      rw [← hpre, List.take_of_length_le (Nat.le_of_lt hshort)]
    rw [frameCheck, headerVerdict_eq, if_pos hsame, if_pos hshort]
  · rintro len rest rfl hlen
    refine ⟨fun hshort => ?_, fun hwhole hoff => ?_, fun hwhole hon hsmall => ?_,
      fun payload lo hi more hrest hdecl hon => ?_⟩
    · rw [frameCheck_append hlen, if_pos hshort]
    · rw [frameCheck_append hlen, if_neg (Nat.not_lt.2 hwhole), hoff]
      rfl
    · rw [frameCheck_append hlen, if_neg (Nat.not_lt.2 hwhole), hon,
        crcMatches_of_declaredLen_lt (by rwa [declaredLen_append hlen])]
      rfl
    · subst hrest hon
      exact frameCheck_crc hlen hdecl
  · have hsame : v.take p.hdr.length = p.hdr.take v.length := by rw [hpre, List.take_of_length_le hle]
    rw [frameCheck, headerVerdict_eq, if_pos hsame, if_neg (Nat.not_lt.2 hle)]
    exact if_pos hshort

/-! ## CDC.PHASE (R180) -/

theorem viewBytes_of_unitElems {x : QState} {v : Bytes} (h : view x = unitElems v) : viewBytes x = v := by
  rw [viewBytes, h, unitElems, List.map_map]
  exact List.map_id v

/-- CDC.PHASE on a usable RXQ answers the phase of its bytes. -/
theorem answers_cdcPhase {s : State} {v : Bytes} {a : U32} (hcfg : s.rxq.cfg = true) (hisz : s.rxq.isz = 1#16)
    (hv : view s.rxq = unitElems v) (ha : phaseOf s.params v = a) : Answers .cdcPhase s s .ok a [] := by
  show finish _ = _
  rw [if_pos ((usable_iff _).2 ⟨hcfg, hisz⟩), viewBytes_of_unitElems hv, ha, finish_answer]

/-- Settles O41: the four branches of `phaseOf`. -/
theorem cdcPhaseReadsTheReceiveSide : Obligations.CdcPhaseReadsTheReceiveSide := by
  unfold Obligations.CdcPhaseReadsTheReceiveSide
  intro s
  refine ⟨fun hbad => ?_, fun v hcfg hisz hv => ⟨fun hno => ?_, fun hpre hshort => ?_, fun len rest hsplit hlen => ?_⟩⟩
  · show finish _ = _
    rw [(not_usable_iff _).2 hbad]
    rfl
  · refine answers_cdcPhase hcfg hisz hv ?_
    have hdiff : v.take s.params.hdr.length ≠ s.params.hdr := fun h => hno ⟨_, h ▸ List.take_append_drop _ v⟩
    rw [phaseOf, if_pos hdiff]
    rfl
  · refine answers_cdcPhase hcfg hisz hv ?_
    have hheader : v.take s.params.hdr.length = s.params.hdr := by
      obtain ⟨w, rfl⟩ := hpre
      exact List.take_left
    rw [phaseOf, if_neg (not_not.2 hheader)]
    exact if_pos hshort
  · subst hsplit
    refine answers_cdcPhase hcfg hisz hv ?_
    have hheader : (s.params.hdr ++ len ++ rest).take s.params.hdr.length = s.params.hdr := by
      rw [List.append_assoc, List.take_left]
    rw [phaseOf, if_neg (not_not.2 hheader), preamble_append_length hlen,
      if_neg (Nat.not_lt.2 (Nat.le_add_right _ _)), declaredTotal_append hlen, preambleLen]
    simp only [Nat.add_lt_add_iff_left]
    rfl

/-! ## Packed frames (R171, R173) -/

theorem high_append_low (c : U16) : c.extractLsb' 8 8 ++ c.extractLsb' 0 8 = c := by
  apply BitVec.eq_of_toNat_eq
  have := c.isLt
  simp only [toNat_pair, BitVec.extractLsb'_toNat, Nat.shiftRight_eq_div_pow]
  omega

/-- The length field of a packed frame reads back as what was written, where that fits. -/
theorem unBE_be_of_lt {n v : Nat} (h : v < 256 ^ n) : unBE (be n v) = v := by
  rw [unBE_be, Nat.mod_eq_of_lt h]

/-- What `pack` gives, and that the length fits. -/
theorem pack_eq_some {p : Params} {en : Bool} {payload f : Bytes} (h : pack p en payload = some f) :
    payload.length + crcLen en < 256 ^ p.lenW ∧
      f = p.hdr ++ be p.lenW (payload.length + crcLen en) ++ (payload ++ if en then crcWire payload else []) := by
  unfold pack at h
  split at h
  · rename_i hfits
    exact ⟨hfits, by rw [← Option.some.inj h, List.append_assoc]⟩
  · cases h

theorem pack_length {p : Params} {en : Bool} {payload f : Bytes} (h : pack p en payload = some f) :
    f.length = p.hdr.length + p.lenW + (payload.length + crcLen en) := by
  obtain ⟨-, rfl⟩ := pack_eq_some h
  cases en <;> simp [crcLen, crcWire, Nat.add_assoc]

/-- The checker on a frame whose CRC bytes are those of a payload `sent`, itself or another. -/
theorem frameCheck_crcWire {p : Params} {payload : Bytes} (hfits : payload.length + 2 < 256 ^ p.lenW) (sent : Bytes) :
    frameCheck p true (p.hdr ++ be p.lenW (payload.length + 2) ++ (payload ++ crcWire sent)) =
      if crcModbus payload = crcModbus sent then .ok (p.hdr.length + p.lenW + (payload.length + 2)) else .fail := by
  have hdecl := unBE_be_of_lt hfits
  have hcheck := frameCheck_crc (more := []) (lo := (crcModbus sent).extractLsb' 0 8)
    (hi := (crcModbus sent).extractLsb' 8 8) (be_length _ _) hdecl
  rwa [high_append_low, List.append_nil, hdecl] at hcheck

/-- The checker accepts a packed frame whole. -/
theorem frameCheck_pack {p : Params} {en : Bool} {payload f : Bytes} (h : pack p en payload = some f) :
    frameCheck p en f = .ok f.length := by
  rw [pack_length h]
  obtain ⟨hfits, rfl⟩ := pack_eq_some h
  cases en with
  | false =>
    rw [frameCheck_append (be_length _ _), unBE_be_of_lt hfits, if_neg (by simp [crcLen])]
    rfl
  | true => exact (frameCheck_crcWire hfits payload).trans (if_pos rfl)

/-- `strip` gives the payload of a packed frame back. -/
theorem strip_pack {p : Params} {en : Bool} {payload f : Bytes} (h : pack p en payload = some f) :
    strip p en f = payload := by
  have hlen := pack_length h
  obtain ⟨-, rfl⟩ := pack_eq_some h
  rw [strip, hlen, ← List.append_assoc]
  refine slice_append _ _ _ ?_ ?_
  · rw [List.length_append, be_length, preambleLen]
  · rw [List.length_append, be_length]
    omega

/-! ## The CRC tells payloads apart that differ in one byte (R183) -/

/-- A step loses nothing: the bit shifted out comes back as the top bit of 0xA001. -/
theorem crcStep_eq_zero {c : U16} (h : crcStep c = 0#16) : c = 0#16 := by
  have hlt := c.isLt
  have hshift : (c >>> 1).toNat = c.toNat / 2 := by rw [BitVec.toNat_ushiftRight, Nat.shiftRight_eq_div_pow, Nat.pow_one]
  unfold crcStep at h
  split at h
  · have hbad : c >>> 1 = 0xA001#16 := BitVec.xor_eq_zero_iff.1 h
    have := congrArg BitVec.toNat hbad
    rw [hshift, BitVec.toNat_ofNat] at this
    omega
  · rename_i hbit
    have hhalf := congrArg BitVec.toNat h
    rw [hshift, BitVec.toNat_ofNat] at hhalf
    have heven : c.toNat % 2 = 0 := by
      rw [BitVec.getLsbD, Nat.testBit_zero, decide_eq_true_eq] at hbit
      omega
    exact BitVec.eq_of_toNat_eq (by rw [BitVec.toNat_ofNat]; omega)

theorem crcStep_injective : Function.Injective crcStep := fun x y h => by
  have hzero : crcStep (x ^^^ y) = 0#16 := by rw [crcStep_xor, h, BitVec.xor_self]
  exact BitVec.xor_eq_zero_iff.1 (crcStep_eq_zero hzero)

theorem crcSteps_injective (n : Nat) : Function.Injective (crcSteps n) := by
  induction n with
  | zero => exact fun _ _ h => h
  | succ n ih => exact fun _ _ h => crcStep_injective (ih h)

/-- One update is injective in the accumulator. -/
theorem crcUpdate_left_injective (b : Byte) : Function.Injective (crcUpdate · b) := fun c c' h => by
  simp only [crcUpdateIsBitSerial c b, crcUpdateIsBitSerial c' b] at h
  exact (BitVec.xor_left_inj _).1 (crcSteps_injective 8 h)

/-- One update is injective in the byte. -/
theorem crcUpdate_right_injective (c : U16) : Function.Injective (crcUpdate c) := fun b b' h => by
  rw [crcUpdateIsBitSerial, crcUpdateIsBitSerial] at h
  have hwide := congrArg BitVec.toNat ((BitVec.xor_right_inj _).1 (crcSteps_injective 8 h))
  simp only [BitVec.toNat_setWidth] at hwide
  apply BitVec.eq_of_toNat_eq
  omega

theorem crcOf_left_injective (d : Bytes) : Function.Injective (crcOf · d) := by
  induction d with
  | nil => exact fun _ _ h => h
  | cons b d ih => exact fun _ _ h => crcUpdate_left_injective b (ih h)

/-- Byte strings that differ in one byte have different CRCs. -/
theorem crcOf_ne_of_byte_ne (seed : U16) (d e : Bytes) {b b' : Byte} (h : b ≠ b') :
    crcOf seed (d ++ b :: e) ≠ crcOf seed (d ++ b' :: e) := by
  rw [crcOf_append, crcOf_append]
  exact fun heq => h (crcUpdate_right_injective _ (crcOf_left_injective e heq))

/-- A FAIL verdict makes Q.POPV's loop drop one byte and go on (40_ring_queue R126). -/
theorem popvLoop_of_frameCheck_fail {s : State} {v : Bytes} (hchk : s.rxq.chk = 1#8) (hv : view s.rxq = unitElems v)
    (hfail : frameCheck s.params s.crcEn v = .fail) (turns dropped : Nat) :
    popvLoop .rx (turns + 1) dropped s = popvLoop .rx turns (dropped + 1) { s with rxq := dropElems s.rxq 1 } := by
  have hrun : runChecker s.params s.crcEn (s.queue .rx) = .fail := by
    rw [queue_rx, runChecker, if_pos hchk, viewBytes_of_unitElems hv, hfail]
  rw [popvLoop, hrun]
  rfl

/-- Settles O43: the CRC on the wire is that of the right payload, which the wrong one does not have. -/
theorem oneWrongPayloadByteFailsTheFrame : Obligations.OneWrongPayloadByteFailsTheFrame := by
  unfold Obligations.OneWrongPayloadByteFailsTheFrame
  intro s p1 p2 b b' f f' hne hen hpack hf'
  obtain ⟨hfits, -⟩ := pack_eq_some hpack
  have hfail : frameCheck s.params true f' = .fail := by
    have hlen : (p1 ++ b :: p2).length = (p1 ++ b' :: p2).length := by
      rw [List.length_append, List.length_append, List.length_cons, List.length_cons]
    rw [hlen] at hfits hf'
    rw [hf', List.append_assoc, frameCheck_crcWire hfits]
    exact if_neg (crcOf_ne_of_byte_ne _ p1 p2 hne.symm)
  exact ⟨frameCheck_pack hpack, hfail, fun hchk hv => popvLoop_of_frameCheck_fail hchk hv (by rw [hen, hfail])⟩

end Sys2Proof.Proofs.CodecFrame
end

section
/-! PROOFS. The family of spec/42_frame_codec.md, part three: CDC.RECV (R176, R181, R182) and CDC.POLL (R177). -/

namespace Sys2Proof.Proofs.CodecReceive

open Sys2Proof Sys2Proof.Machine Sys2Proof.Proofs.StateEffect Sys2Proof.Proofs.Commands Sys2Proof.Proofs.QueueCommands
open Sys2Proof.Proofs.QueueOrder Sys2Proof.Proofs.CodecSend Sys2Proof.Proofs.CodecFrame

/-! ## CDC.RECV, by the way Q.POPV ends (R176) -/

section receive
variable {s : State}

theorem receive_of_unusable (h : usable s.rxq = false) : receive s = .returned (answer s .fail 0#32 []) := by
  rw [receive, h]
  rfl

variable (hu : usable s.rxq = true)
include hu

theorem receive_of_pop_faulted {t : State} {f : ModelFault} (h : popValid .rx s = .faulted t f) :
    receive s = .faulted t f := by
  rw [receive, if_pos hu, h]

theorem receive_of_pop_ok {r : Reply} (h : popValid .rx s = .returned r) (hr : r.res = .ok) :
    receive s = .returned
      (answer (invokeHandler r.st (delivered r.st r.dout)) .ok r.aux (delivered r.st r.dout)) := by
  rw [receive, if_pos hu, h]
  exact if_pos hr

theorem receive_of_pop_not_ok {r : Reply} (h : popValid .rx s = .returned r) (hr : r.res ≠ .ok) :
    receive s = .returned (answer r.st r.res r.aux []) := by
  rw [receive, if_pos hu, h]
  exact if_neg hr

end receive

/-! ## Delivery and the handler (R173, R181) -/

/-- A removal changes nothing that the delivery reads. -/
theorem delivered_of_removed {s t : State} {n : Nat} (h : Removed .rx s t n) (out : Bytes) :
    delivered t out = if s.params.validOnly = true ∧ s.rxq.chk = 1#8
      then slice out (s.params.hdr.length + s.params.lenW) (out.length - if s.crcEn then 2 else 0) else out := by
  obtain ⟨-, ⟨-, rfl⟩ | ⟨-, rfl⟩⟩ := h <;> rfl

theorem invokeHandler_of_none {s : State} (h : s.hdl = 0#8) (p : Bytes) : invokeHandler s p = s := if_pos h

theorem invokeHandler_of_external {s : State} (h : 2 ≤ s.hdl.toNat) (p : Bytes) :
    invokeHandler s p = { s with evt := s.evt ++ [.handlerCall s.hdl p] } := by
  have h0 : s.hdl ≠ 0#8 := fun e => by rw [e] at h; exact absurd h (by decide)
  have h1 : s.hdl ≠ 1#8 := fun e => by rw [e] at h; exact absurd h (by decide)
  rw [invokeHandler, if_neg h0, if_neg h1]
  rfl

/-- The register dispatcher as a handler is REG.DISP with the payload as DIN, but for DIN and the outputs. -/
theorem invokeHandler_of_dispatcher {s : State} (h : s.hdl = 1#8) (p : Bytes) :
    ∃ u, exec .regDisp { s with din := p } = .next u ∧ invokeHandler s p = { u with din := s.din, outs := s.outs } := by
  have hdisp : invokeHandler s p = (regDispatch s p).st := by
    rw [invokeHandler, if_neg (by rw [h]; decide), if_pos h]
  obtain ⟨-, -, -, -, -, -, -, -, hdin, houts⟩ := invokeHandler_frame s p
  rw [hdisp] at hdin houts ⊢
  have hkept : (regDispatch s p).st = { (regDispatch s p).st with din := s.din, outs := s.outs } := by rw [← hdin, ← houts]
  have hsame : (regDispatch { s with din := p } p).st = { (regDispatch s p).st with din := p } :=
    congrArg Reply.st (regDispatch_din s p p)
  exact ⟨_, rfl, hkept.trans (congrArg (fun u : State => { u with din := s.din, outs := s.outs }) hsame.symm)⟩

/-! ## CDC.RECV and the reassembly of RXQ's elements -/

section ends
variable {s : State} {y : QState} {res : Res} {aux : U32} {out : Bytes} (hu : usable s.rxq = true)
include hu

theorem answers_cdcRecv_of_pop_faulted (hpop : popValid .rx s = .faulted { s with rxq := y } .checkerContract) :
    Answers .cdcRecv s { s with rxq := y, fault := some .checkerContract } .fail 1#32 [] :=
  congrArg settle (receive_of_pop_faulted hu hpop)

theorem answers_cdcRecv_of_pop_not_ok (hpop : popValid .rx s = .returned (answer { s with rxq := y } res aux out))
    (hres : res ≠ .ok) : Answers .cdcRecv s { s with rxq := y } res aux [] :=
  congrArg settle (receive_of_pop_not_ok hu hpop hres)

/-- A popped string: the handler runs once on what is delivered of it, by each value of HDL. -/
theorem answers_cdcRecv_of_pop_ok {p : Bytes}
    (hpop : popValid .rx s = .returned (answer { s with rxq := y } .ok aux out))
    (hp : delivered { s with rxq := y } out = p) :
    (s.hdl = 0#8 → Answers .cdcRecv s { s with rxq := y } .ok aux p) ∧
      (2 ≤ s.hdl.toNat → Answers .cdcRecv s { s with rxq := y, evt := s.evt ++ [.handlerCall s.hdl p] } .ok aux p) ∧
      (s.hdl = 1#8 → ∃ u, exec .regDisp { s with rxq := y, din := p } = .next u ∧
        Answers .cdcRecv s { u with din := s.din, outs := s.outs } .ok aux p) := by
  have hanswers : Answers .cdcRecv s (invokeHandler { s with rxq := y } p) .ok aux p := by
    show settle (receive s) = _
    rw [receive_of_pop_ok hu hpop rfl]
    simp only [answer_st, answer_aux, answer_dout, hp]
    rfl
  refine ⟨fun h => ?_, fun h => ?_, fun h => ?_⟩
  · rwa [invokeHandler_of_none (s := { s with rxq := y }) h] at hanswers
  · rwa [invokeHandler_of_external (s := { s with rxq := y }) h] at hanswers
  · obtain ⟨u, hexec, hst⟩ := invokeHandler_of_dispatcher (s := { s with rxq := y }) h p
    rw [hst] at hanswers
    exact ⟨u, hexec, hanswers⟩

end ends

/-- Q.POPV on RXQ, as CDC.RECV runs it, ends as the reassembly of the list of RXQ's elements does (O25). -/
theorem popValid_endsAs_reassemble {s : State} {bytes : Nat} (hshape : RingShape bytes s.rxq) (hcfg : s.rxq.cfg = true)
    (hchk : s.rxq.chk ≠ 0#8) (hne : view s.rxq ≠ []) :
    EndsAs .rx s (popValid .rx s) (reassemble (checkList s s.rxq) (view s.rxq).length 0 (view s.rxq)) := by
  have hcnt := s.rxq.cnt.isLt
  rw [popValid_eq_popvLoop (q := .rx) hcfg hchk hne, view_length]
  exact popvLoop_endsAs_reassemble .rx _ 0 s hshape (le_refl _) (by rw [queue_rx]; omega)

/-- What a reply must be to end as a returned reassembly. -/
theorem eq_answer_of_endsAs {s : State} {r : Reply} {rest : List Bytes} {res : Res} {aux : Nat} {out : Bytes}
    (h : EndsAs .rx s (.returned r) (.returned rest res aux out)) :
    r = answer { s with rxq := r.st.rxq } res (BitVec.ofNat 32 aux) out := by
  obtain ⟨⟨n, hn⟩, -, hres, haux, hout⟩ := h
  have hst : r.st = { s with rxq := r.st.rxq } := hn.eq
  rw [← hst, ← hres, ← haux, ← hout]
  rfl

/-- Settles O37: the ending of the reassembly decides the ending of Q.POPV on RXQ, and CDC.RECV goes on from there. -/
theorem cdcRecvReassemblesThenHandles : Obligations.CdcRecvReassemblesThenHandles := by
  unfold Obligations.CdcRecvReassemblesThenHandles
  intro s hi
  refine ⟨fun hbad => ?_, fun hcfg hisz hchk hempty => ?_, fun hcfg hisz hchk hne => ?_⟩
  · rw [← or_assoc, ← not_usable_iff] at hbad
    cases hu : usable s.rxq with
    | false => exact congrArg settle (receive_of_unusable hu)
    | true =>
      have hchk := hbad.resolve_left (by rw [hu]; exact Bool.noConfusion)
      have hpop := popValid_of_no_checker (q := .rx) ((usable_iff _).1 hu).1 hchk
      exact answers_cdcRecv_of_pop_not_ok hu hpop Res.noConfusion
  · have hpop := popValid_of_view_nil (q := .rx) hcfg hchk hempty
    exact answers_cdcRecv_of_pop_not_ok ((usable_iff _).2 ⟨hcfg, hisz⟩) hpop Res.noConfusion
  · have hu := (usable_iff _).2 ⟨hcfg, hisz⟩
    have hshape := hi.shape hcfg
    have hends := popValid_endsAs_reassemble hshape hcfg hchk hne
    cases hp : popValid .rx s with
    | faulted t f =>
      rw [hp] at hends
      revert hends
      cases reassemble (checkList s s.rxq) (view s.rxq).length 0 (view s.rxq) with
      | returned rest res aux out => exact False.elim
      | faulted rest =>
        rintro ⟨⟨n, hn⟩, hrest, rfl⟩
        obtain ⟨hsetup, hram, hhead⟩ := hn.setup
        have hpop : popValid .rx s = .faulted { s with rxq := t.rxq } .checkerContract :=
          hp.trans (congrArg (CmdEnd.faulted · _) hn.eq)
        exact ⟨t.rxq, hsetup, hram, hhead, tail_toNat_of_removed hshape hn, answers_cdcRecv_of_pop_faulted hu hpop, hrest⟩
    | returned r =>
      rw [hp] at hends
      revert hends
      cases reassemble (checkList s s.rxq) (view s.rxq).length 0 (view s.rxq) with
      | faulted rest => exact False.elim
      | returned rest res aux out =>
        intro hends
        have hpop := hp.trans (congrArg CmdEnd.returned (eq_answer_of_endsAs hends))
        obtain ⟨⟨n, hn⟩, hrest, -⟩ := hends
        obtain ⟨hsetup, hram, hhead⟩ := hn.setup
        have hst : r.st = { s with rxq := r.st.rxq } := hn.eq
        refine ⟨r.st.rxq, hsetup, hram, hhead, tail_toNat_of_removed hshape hn, ?_⟩
        cases res with
        | ok => exact ⟨hrest, _, rfl, answers_cdcRecv_of_pop_ok hu hpop (by rw [← hst]; exact delivered_of_removed hn out)⟩
        | fail => exact ⟨answers_cdcRecv_of_pop_not_ok hu hpop Res.noConfusion, hrest⟩
        | inv => exact ⟨answers_cdcRecv_of_pop_not_ok hu hpop Res.noConfusion, hrest⟩

/-! ## The round trip (R182) -/

/-- The reassembly of a list that the checker accepts whole. -/
theorem reassemble_of_ok_length {check : List Bytes → CheckerAnswer} {l : List Bytes} (hne : l ≠ [])
    (h : check l = .ok l.length) : reassemble check l.length 0 l = .returned [] .ok l.length l.flatten := by
  obtain ⟨e, m, rfl⟩ := List.exists_cons_of_ne_nil hne
  have hgood : ¬((e :: m).length = 0 ∨ (e :: m).length < (e :: m).length) := by simp
  rw [List.length_cons] at h hgood ⊢
  rw [reassemble, h]
  simp only
  rw [List.length_cons, if_neg hgood, ← List.length_cons, List.drop_length, List.take_length]

theorem flatten_unitElems (d : Bytes) : (unitElems d).flatten = d := by
  rw [unitElems, ← List.flatMap_def, List.flatMap_singleton']

/-- FRAME on one-byte elements sees their bytes. -/
theorem checkList_unitElems {s : State} {x : QState} (hchk : x.chk = 1#8) (d : Bytes) :
    checkList s x (unitElems d) = frameCheck s.params s.crcEn d := by
  rw [checkList, if_pos hchk, unitElems, List.map_map]
  exact congrArg _ (List.map_id d)

/-- Settles O42: FRAME accepts the packed frame whole, so the reassembly takes all of RXQ at once, and `strip` undoes `pack`. -/
theorem recvOfAPackedFrameIsThePayload : Obligations.RecvOfAPackedFrameIsThePayload := by
  unfold Obligations.RecvOfAPackedFrameIsThePayload
  intro s payload f hi hcfg hisz hchk hvalid hhdl hhdr hpack hview
  have hlen : (unitElems f).length = f.length := List.length_map _
  have hne : unitElems f ≠ [] := by
    rw [← List.length_pos_iff, hlen, pack_length hpack]
    omega
  have hwhole := reassemble_of_ok_length (check := checkList s s.rxq) hne
    (by rw [checkList_unitElems hchk, frameCheck_pack hpack, hlen])
  obtain ⟨-, -, hrecv⟩ := cdcRecvReassemblesThenHandles s hi
  obtain ⟨y, hsetup, hram, -, -, hend⟩ := hrecv hcfg hisz (by rw [hchk]; decide) (by rwa [hview])
  rw [hview, hwhole, flatten_unitElems, hlen] at hend
  obtain ⟨hempty, p, hp, hnone, -, -⟩ := hend
  have hpayload : p = payload := by
    rw [hp, if_pos ⟨hvalid, hchk⟩]
    exact strip_pack hpack
  subst hpayload
  exact ⟨y, hnone hhdl, hempty, hsetup, hram⟩

/-! ## CDC.POLL (R177) -/

/-- The receive side leaves PARAMS, FAULT and RXQ's setup. -/
theorem Received.leaves {s t : State} (h : Received s t) :
    t.params = s.params ∧ t.fault = s.fault ∧ SameSetup s.rxq t.rxq := by
  induction h with
  | start => exact ⟨rfl, rfl, .rfl' _⟩
  | @removed t u n _ hn ih =>
    obtain ⟨hparams, hfault, hsetup⟩ := ih
    have hst := hn.eq
    refine ⟨?_, ?_, hsetup.trans hn.setup.1⟩ <;> rw [hst]
    · exact hparams
    · exact hfault
  | @handled t payload _ ih =>
    obtain ⟨hrxq, hparams, -, -, -, -, hfault, -⟩ := invokeHandler_frame t payload
    rwa [hrxq, hparams, hfault]

/-- CDC.POLL delivers nothing of its own. -/
theorem pollLoop_dout_nil {fuel frames : Nat} {s : State} {r : Reply} (h : pollLoop fuel frames s = .returned r) :
    r.dout = [] := by
  induction fuel generalizing frames s with
  | zero => cases h; rfl
  | succ fuel ih =>
    rw [pollLoop] at h
    split at h
    · cases h
    · split at h
      · exact ih h
      · cases h; rfl

/-- An ending of CDC.POLL with one frame more in AUX. -/
def countFrame : CmdEnd → CmdEnd
  | .returned r => .returned { r with aux := r.aux + 1#32 }
  | .faulted t f => .faulted t f

theorem auxOfCount_succ {n : Nat} (h : n + 1 < 2 ^ 32) : auxOfCount (n + 1) = auxOfCount n + 1#32 := by
  rw [auxOfCount_small h, auxOfCount_small (Nat.lt_of_succ_lt h), BitVec.ofNat_add]

/-- A frame counted at the start is counted at the end: a frame takes an element, so AUX cannot overflow. -/
theorem pollLoop_succ_frames {fuel frames : Nat} {s : State} (h : frames + s.rxq.cnt.toNat + 1 < 2 ^ 32) :
    pollLoop fuel (frames + 1) s = countFrame (pollLoop fuel frames s) := by
  have hcount : auxOfCount (frames + 1) = auxOfCount frames + 1#32 := auxOfCount_succ (by omega)
  induction fuel generalizing frames s with
  | zero => rw [pollLoop, pollLoop, hcount]; rfl
  | succ fuel ih =>
    rw [pollLoop, pollLoop]
    cases hr : receive s with
    | faulted t f => rfl
    | returned r =>
      dsimp only
      split
      · rename_i hok
        have hcnt := receive_ok_cnt hr hok
        exact ih (by omega) (auxOfCount_succ (by omega))
      · rw [hcount]
        rfl

/-! One turn of CDC.POLL, by the way its CDC.RECV ends. -/

theorem poll_of_faulted {s t : State} {f : ModelFault} (h : receive s = .faulted t f) : poll s = .faulted t f := by
  rw [poll, pollLoop, h]

theorem poll_of_not_ok {s : State} {r : Reply} (h : receive s = .returned r) (hr : r.res ≠ .ok) :
    poll s = .returned (answer r.st r.res 0#32 []) := by
  rw [poll, pollLoop, h]
  exact if_neg hr

theorem poll_of_ok {s : State} {r : Reply} (h : receive s = .returned r) (hr : r.res = .ok) :
    poll s = countFrame (poll r.st) := by
  have hcnt := receive_ok_cnt h hr
  have hlt := s.rxq.cnt.isLt
  calc poll s = pollLoop s.rxq.cnt.toNat 1 r.st := by
        rw [poll, pollLoop, h]
        exact if_pos hr
    _ = pollLoop (r.st.rxq.cnt.toNat + 1) 1 r.st := pollLoop_fuel hcnt (Nat.lt_succ_self _)
    _ = countFrame (poll r.st) := pollLoop_succ_frames (by omega)

/-- Behind a delivered frame the poll is the poll of the state that the frame leaves, with one frame more in AUX. -/
theorem cdcPoll_of_recv_ok {s : State} {r : Reply} (hr : receive s = .returned r) (hok : r.res = .ok)
    (hrun : Running r.st) : ∃ u o, exec .cdcPoll r.st = .next u ∧ u.outs = r.st.outs ++ [o] ∧
      (u.fault ≠ none → exec .cdcPoll s = .next u) ∧
      (u.fault = none → o.dout = [] ∧ Answers .cdcPoll s { u with outs := r.st.outs } o.res (o.aux + 1#32) []) := by
  have hpoll := poll_of_ok hr hok
  have hrest : EndReceived r.st (poll r.st) := pollLoop_received _ 0 .start
  cases hp : poll r.st with
  | faulted t f =>
    rw [hp] at hrest hpoll
    exact ⟨_, _, congrArg settle hp, congrArg (· ++ _) (Appends.ofReceived hrest).outs, fun _ => congrArg settle hpoll,
      fun h => absurd h (Option.some_ne_none f)⟩
  | returned r' =>
    rw [hp] at hrest hpoll
    have houts : r'.st.outs = r.st.outs := (Appends.ofReceived hrest).outs
    have hrun' : Running r'.st := (Received.leaves hrest).2.1.trans hrun
    have hdout : r'.dout = [] := pollLoop_dout_nil hp
    refine ⟨_, ⟨r'.res, r'.aux, r'.dout⟩, congrArg settle hp, congrArg (· ++ _) houts, fun h => absurd hrun' h,
      fun _ => ⟨hdout, ?_⟩⟩
    rw [← houts, ← hdout]
    exact congrArg settle hpoll

theorem outs_restored {t u : State} {r : Res} {a : U32} {d : Bytes} (ht : t = record u r a d) :
    { t with outs := u.outs } = u := by
  subst ht
  rfl

/-- Settles O38: one turn of the poll is CDC.RECV, and the rest is the poll of the state it leaves, with one frame more. -/
theorem cdcPollIsRepeatedRecv : Obligations.CdcPollIsRepeatedRecv := by
  unfold Obligations.CdcPollIsRepeatedRecv
  intro s hrun
  have hrecv := receive_received (.start : Received s s)
  cases hr : receive s with
  | faulted t f =>
    rw [hr] at hrecv
    exact ⟨_, _, congrArg settle hr, congrArg (· ++ _) (Appends.ofReceived hrecv).outs,
      fun _ => congrArg settle (poll_of_faulted hr), fun h => absurd h (Option.some_ne_none f),
      fun h => absurd h (Option.some_ne_none f)⟩
  | returned r =>
    rw [hr] at hrecv
    have houts : r.st.outs = s.outs := (Appends.ofReceived hrecv).outs
    have hrun' : Running r.st := (Received.leaves hrecv).2.1.trans hrun
    refine ⟨_, ⟨r.res, r.aux, r.dout⟩, congrArg settle hr, congrArg (· ++ _) houts, fun h => absurd hrun' h,
      fun _ hne => ?_, fun _ hok => ?_⟩ <;> rw [← houts]
    · exact congrArg settle (poll_of_not_ok hr hne)
    · rw [outs_restored rfl]
      exact cdcPoll_of_recv_ok hr hok hrun'

/-! ## CDC.POLL under the FRAME checker -/

/-- RXQ can be received from, under FRAME. -/
structure FrameReady (s : State) : Prop where
  header : 1 ≤ s.params.hdr.length
  usable : usable s.rxq = true
  checker : s.rxq.chk = 1#8

theorem FrameReady.received {s t : State} (h : FrameReady s) (hr : Received s t) : FrameReady t := by
  obtain ⟨hparams, -, hcfg, hisz, -, hchk, -⟩ := Received.leaves hr
  obtain ⟨hheader, hu, hchecker⟩ := h
  exact ⟨by rwa [hparams], by rwa [usable_iff, hcfg, hisz, ← usable_iff], hchk.trans hchecker⟩

/-- FRAME breaks no contract, so Q.POPV's loop returns. -/
theorem popvLoop_returned_of_frame {s : State} (h : FrameReady s) (turns dropped : Nat) :
    ∃ r, popvLoop .rx turns dropped s = .returned r := by
  induction turns generalizing dropped s with
  | zero => exact ⟨_, rfl⟩
  | succ turns ih =>
    have hrun : runChecker s.params s.crcEn (s.queue .rx) = frameCheck s.params s.crcEn (viewBytes s.rxq) :=
      if_pos h.checker
    rw [popvLoop, hrun]
    rcases frameCheck_cases s.params s.crcEn (viewBytes s.rxq) with hv | hv | ⟨hv, -, hpre, hin⟩ <;> rw [hv] <;> dsimp only
    · exact ⟨_, rfl⟩
    · exact ih (s := s.withQueue .rx (dropElems s.rxq 1)) ⟨h.header, h.usable, h.checker⟩ _
    · have hlen : (viewBytes s.rxq).length = s.rxq.cnt.toNat := by rw [viewBytes, List.length_map, view_length]
      have hheader := h.header
      rw [if_neg]
      · exact ⟨_, rfl⟩
      · rw [queue_rx]
        unfold preambleLen at hpre
        omega

/-- Under FRAME CDC.RECV returns, and FAIL comes only when every byte has been dropped. -/
theorem receive_returned_of_frame {s : State} (h : FrameReady s) :
    ∃ r, receive s = .returned r ∧ (r.res = .fail → view r.st.rxq = []) := by
  obtain ⟨hcfg, -⟩ := (usable_iff _).1 h.usable
  obtain ⟨r, hpop, hfail⟩ : ∃ r, popValid .rx s = .returned r ∧ (r.res = .fail → view r.st.rxq = []) := by
    rcases popValid_cases .rx s with ⟨hbad, -⟩ | ⟨-, -, -, hinv⟩ | ⟨-, -, -, hloop⟩
    · rcases hbad with hbad | hbad
      · exact Bool.noConfusion (hbad.symm.trans hcfg)
      · exact absurd (h.checker.symm.trans hbad) (by decide)
    · exact ⟨_, hinv, Res.noConfusion⟩
    · obtain ⟨r, hr⟩ := popvLoop_returned_of_frame h s.rxq.cnt.toNat 0
      have hends := popvLoop_spec .rx s.rxq.cnt.toNat 0 s (le_refl _)
      rw [hr] at hends
      obtain ⟨n, hn, hres⟩ := hends
      refine ⟨r, hloop.trans hr, fun hf => ?_⟩
      rw [hf] at hres
      obtain ⟨-, -, hall, -⟩ := (hres.resolve_left fun e => Res.noConfusion e.1).resolve_left fun e => Res.noConfusion e.1
      have hleft := hn.cnt
      rw [view_eq_nil_iff]
      apply BitVec.eq_of_toNat_eq
      simp only [queue_rx] at hleft
      rw [BitVec.toNat_ofNat]
      omega
  by_cases hok : r.res = .ok
  · exact ⟨_, receive_of_pop_ok h.usable hpop hok, Res.noConfusion⟩
  · exact ⟨_, receive_of_pop_not_ok h.usable hpop hok, hfail⟩

/-- Under FRAME the poll returns INV, or FAIL with RXQ empty. -/
theorem pollLoop_returned_of_frame {s : State} (h : FrameReady s) (fuel frames : Nat) :
    ∃ r, pollLoop fuel frames s = .returned r ∧ (r.res = .inv ∨ r.res = .fail) ∧ (r.res = .fail → view r.st.rxq = []) := by
  induction fuel generalizing frames s with
  | zero => exact ⟨_, rfl, .inl rfl, Res.noConfusion⟩
  | succ fuel ih =>
    obtain ⟨r, hr, hfail⟩ := receive_returned_of_frame h
    have hrecv := receive_received (.start : Received s s)
    rw [hr] at hrecv
    rw [pollLoop, hr]
    dsimp only
    cases hres : r.res with
    | ok => exact ih (h.received hrecv) _
    | fail => exact ⟨_, rfl, .inr rfl, fun _ => hfail hres⟩
    | inv => exact ⟨_, rfl, .inl rfl, Res.noConfusion⟩

/-- Settles O39: FRAME breaks no contract, and what the receive side runs only takes the oldest elements of RXQ (O29). -/
theorem cdcPollEndsUnderTheFrameChecker : Obligations.CdcPollEndsUnderTheFrameChecker := by
  unfold Obligations.CdcPollEndsUnderTheFrameChecker
  intro s hi
  refine ⟨fun hcfg hisz hchk => ?_, fun hbad => ?_⟩
  · have hheader : 1 ≤ s.params.hdr.length := by
      have hparams := hi.paramsValid
      simp only [paramsOk, codecParamsOk, Bool.and_eq_true, decide_eq_true_eq] at hparams
      omega
    have hready : FrameReady s := ⟨hheader, (usable_iff _).2 ⟨hcfg, hisz⟩, hchk⟩
    obtain ⟨r, hr, hres, hfail⟩ := pollLoop_returned_of_frame hready (s.rxq.cnt.toNat + 1) 0
    have hrecv := pollLoop_received (s.rxq.cnt.toNat + 1) 0 (.start : Received s s)
    rw [hr] at hrecv
    obtain ⟨-, hfault, -⟩ := Received.leaves hrecv
    obtain ⟨k, -, hview⟩ := losesOldest_of_received hi hrecv
    refine ⟨r.st, r.res, r.aux, ?_, hfault, (Appends.ofReceived hrecv).outs, hres, hfail, k, hview⟩
    rw [← pollLoop_dout_nil hr]
    exact congrArg settle hr
  · exact congrArg settle (poll_of_not_ok (receive_of_unusable ((not_usable_iff _).2 hbad)) Res.noConfusion)

end Sys2Proof.Proofs.CodecReceive
end

section
/-! PROOFS. The family of spec/43_struct_mapper.md, part one: the primitive commands and the target access commands (R204 to
R219). -/

namespace Sys2Proof.Proofs.MapperSlots

open Sys2Proof Sys2Proof.Machine Sys2Proof.Proofs.CodecSend Sys2Proof.Proofs.CodecFrame

/-! ## The kinds (R201) -/

theorem primLenOk_iff (k : Prim) (n : Nat) : primLenOk k n = true ↔ match k with
    | .uint => 1 ≤ n ∧ n ≤ 8
    | .i16 => n = 2
    | .i32 | .f32 => n = 4
    | .i64 | .f64 => n = 8 := by
  cases k with
  | uint => exact decide_eq_true_iff
  | i16 | i32 | i64 | f32 | f64 => exact beq_iff_eq

/-- Up to eight bytes spell a value that fits a slot. -/
theorem toNat_ofNat_unBE {b : Bytes} (h : b.length ≤ 8) : (BitVec.ofNat 64 (unBE b)).toNat = unBE b := by
  have hfits : unBE b < 2 ^ 64 :=
    calc unBE b < 256 ^ b.length := unBE_lt b
      _ ≤ 256 ^ 8 := Nat.pow_le_pow_right (by decide) h
      _ = 2 ^ 64 := by decide
  rw [BitVec.toNat_ofNat, Nat.mod_eq_of_lt hfits]

/-- The slot value of a kind's bytes: signed for the signed kinds, unsigned for UINT and the float patterns. -/
theorem primValue_reading (k : Prim) {b : Bytes} (h : b.length ≤ 8) : match k with
    | .i16 => (primValue k b).toInt = signedBE 16 b
    | .i32 => (primValue k b).toInt = signedBE 32 b
    | .i64 => (primValue k b).toInt = signedBE 64 b
    | .uint | .f32 | .f64 => (primValue k b).toNat = unBE b := by
  cases k with
  | i16 | i32 => exact BitVec.toInt_signExtend_of_le (by decide)
  | i64 => rfl
  | uint | f32 | f64 => exact toNat_ofNat_unBE h

/-- The low bytes of a word, read at the width that they fill. -/
theorem ofNat_unBE_be (v : U64) {n w : Nat} (hw : w = 8 * n) : BitVec.ofNat w (unBE (be n v.toNat)) = v.setWidth w := by
  subst hw
  apply BitVec.eq_of_toNat_eq
  rw [unBE_be, ← two_pow_eight_mul, BitVec.toNat_ofNat, Nat.mod_mod, BitVec.toNat_setWidth]

/-- The value of the bytes that a slot prints (R219). -/
theorem primValue_be (v : U64) (k : Prim) (n : Nat) :
    primLenOk k n = true → primValue k (be n v.toNat) = match k with
      | .uint => BitVec.ofNat 64 (v.toNat % 2 ^ (8 * n))
      | .i16 => (v.setWidth 16).signExtend 64
      | .i32 => (v.setWidth 32).signExtend 64
      | .f32 => (v.setWidth 32).setWidth 64
      | .i64 | .f64 => v := by
  intro hok
  have hlen := (primLenOk_iff k n).1 hok
  cases k with
  | uint => exact congrArg (BitVec.ofNat 64) (by rw [unBE_be, two_pow_eight_mul])
  | i16 | i32 => exact congrArg (BitVec.signExtend 64) (ofNat_unBE_be v (by subst hlen; rfl))
  | i64 | f64 =>
    have hwidth := ofNat_unBE_be (n := n) v (w := 64) (by subst hlen; rfl)
    rwa [BitVec.setWidth_eq] at hwidth
  | f32 =>
    subst hlen
    apply BitVec.eq_of_toNat_eq
    rw [primValue, toNat_ofNat_unBE (by rw [be_length]; decide), unBE_be, BitVec.toNat_setWidth, BitVec.toNat_setWidth,
      Nat.mod_eq_of_lt (b := 2 ^ 64) (by omega)]
    rfl

/-! ## A written slot -/

theorem tgtRead_tgtWrite_slot (t : Target) (slot : Byte) (v : U64) :
    tgtRead (tgtWrite t slot.toNat v) slot.toNat = v := by
  rw [tgtRead_tgtWrite, if_pos ⟨rfl, slot.isLt⟩]

theorem tgtRead_tgtWrite_of_ne (t : Target) {i j : Nat} (v : U64) (h : j ≠ i) :
    tgtRead (tgtWrite t i v) j = tgtRead t j := by
  rw [tgtRead_tgtWrite, if_neg fun he => h he.1]

/-! ## The primitive commands -/

section primitive
variable {s : State} {k : Prim}

theorem exec_parsepOf (s : State) (k : Prim) (slot : Byte) :
    exec (parsepOf k slot) s = finish (parsePrimInto k slot s) := by
  cases k <;> rfl

theorem exec_printpOf (s : State) (k : Prim) (len slot : Byte) :
    exec (printpOf k len slot) s = finish (printPrimFrom k len slot s) := by
  cases k <;> rfl

theorem answers_parsep_of_badLength (h : primLenOk k s.din.length = false) (slot : Byte) :
    Answers (parsepOf k slot) s s .fail 0#32 [] := by
  rw [Answers, exec_parsepOf, parsePrimInto, parsePrim_eq, h]
  rfl

theorem answers_parsep (h : primLenOk k s.din.length = true) (slot : Byte) :
    Answers (parsepOf k slot) s { s with tgt := tgtWrite s.tgt slot.toNat (primValue k s.din) } .ok
      (BitVec.ofNat 32 s.din.length) [] := by
  obtain ⟨-, hle⟩ := primLenOk_bounds h
  rw [Answers, exec_parsepOf, parsePrimInto, parsePrim_eq, if_pos h, ← auxOfCount_small (by omega)]
  rfl

theorem answers_printp_of_badLength {len : Byte} (h : primLenOk k len.toNat = false) (slot : Byte) :
    Answers (printpOf k len slot) s s .fail 0#32 [] := by
  rw [Answers, exec_printpOf, printPrimFrom, printPrim_eq, h]
  rfl

theorem answers_printp {len : Byte} (h : primLenOk k len.toNat = true) (slot : Byte) :
    Answers (printpOf k len slot) s s .ok (len.setWidth 32) (be len.toNat (tgtRead s.tgt slot.toNat).toNat) := by
  rw [Answers, exec_printpOf, printPrimFrom, printPrim_eq, if_pos h]
  rfl

end primitive

/-- Settles O45: the slot takes the value of the bytes, read as the kind reads them. -/
theorem parsepStoresTheValueOfTheBytes : Obligations.ParsepStoresTheValueOfTheBytes := by
  unfold Obligations.ParsepStoresTheValueOfTheBytes
  rintro s slot _ k rfl
  refine ⟨fun hbad => answers_parsep_of_badLength hbad slot, fun hok => ?_, primLenOk_iff k _⟩
  refine ⟨_, answers_parsep hok slot, fun j hj => tgtRead_tgtWrite_of_ne _ _ hj, ?_⟩
  rw [tgtRead_tgtWrite_slot]
  exact primValue_reading k (primLenOk_bounds hok).2

/-- Settles O46: `be` gives the low bytes, which read back as the slot's value modulo their range. -/
theorem printpGivesTheLowBytesOfTheSlot : Obligations.PrintpGivesTheLowBytesOfTheSlot := by
  unfold Obligations.PrintpGivesTheLowBytesOfTheSlot
  rintro s len slot _ k rfl
  exact ⟨fun hbad => answers_printp_of_badLength hbad slot,
    fun hok => ⟨_, answers_printp hok slot, be_length _ _, unBE_be _ _⟩, primLenOk_iff k _⟩

/-- Settles O47: the parse reads the printed bytes, which are as many as it takes. -/
theorem printpThenParsepRoundTrips : Obligations.PrintpThenParsepRoundTrips := by
  unfold Obligations.PrintpThenParsepRoundTrips
  intro s len src dst k hok
  have hparse := answers_parsep (s := { s with din := be len.toNat (tgtRead s.tgt src.toNat).toNat }) (k := k)
    (by rwa [be_length]) dst
  rw [be_length, BitVec.ofNat_toNat] at hparse
  refine ⟨_, _, answers_printp hok src, hparse, ?_⟩
  rw [tgtRead_tgtWrite_slot]
  exact primValue_be _ k _ hok

/-! ## The target access commands -/

theorem answers_mapTrd (s : State) (slot : Byte) :
    Answers (.mapTrd slot) s s .ok ((tgtRead s.tgt slot.toNat).setWidth 32) (be 8 (tgtRead s.tgt slot.toNat).toNat) :=
  finish_answer ..

theorem exec_mapTwr (s : State) (slot : Byte) : exec (.mapTwr slot) s = finish (if s.din.length = 8 then
    answer { s with tgt := tgtWrite s.tgt slot.toNat (BitVec.ofNat 64 (unBE s.din)) } .ok 0#32 [] else answerFail s) := rfl

/-- Settles O48: eight bytes spell a slot's whole value, and `be 8` gives them back. -/
theorem twrThenTrdGivesTheBytes : Obligations.TwrThenTrdGivesTheBytes := by
  unfold Obligations.TwrThenTrdGivesTheBytes
  intro s slot
  refine ⟨fun hbad => ?_, fun h8 => ?_, _, answers_mapTrd s slot, be_length _ _, ?_⟩
  · rw [Answers, exec_mapTwr, if_neg hbad]
    rfl
  · have hvalue : (tgtRead (tgtWrite s.tgt slot.toNat (BitVec.ofNat 64 (unBE s.din))) slot.toNat).toNat = unBE s.din := by
      rw [tgtRead_tgtWrite_slot, toNat_ofNat_unBE h8.le]
    refine ⟨_, ?_, hvalue, fun j hj => tgtRead_tgtWrite_of_ne _ _ hj, fun u hu => ?_⟩
    · rw [Answers, exec_mapTwr, if_pos h8, finish_answer]
    · have hread := answers_mapTrd u slot
      have hbytes : be 8 (unBE s.din) = s.din := h8 ▸ be_unBE s.din
      rwa [hu, hvalue, hbytes] at hread
  · exact unBE_be_of_lt (tgtRead s.tgt slot.toNat).isLt

end Sys2Proof.Proofs.MapperSlots
end

section
/-! PROOFS. The family of spec/43_struct_mapper.md, part two: the two loops over an item list, MAP.PARSE and MAP.PRINT (R200
to R203, R216, R220). -/

namespace Sys2Proof.Proofs.MapperLists

open Sys2Proof Sys2Proof.Machine Sys2Proof.Proofs.MapperSlots

/-! ## Items by their index -/

section items
variable (its : List Item)

/-- Item i of a list; past its end, an item of no bytes. -/
def itemAt (i : Nat) : Item := its.getD i ⟨0#16, 0#8⟩

variable {its}

theorem itemAt_of_lt {i : Nat} (h : i < its.length) : itemAt its i = its[i] := List.getD_eq_getElem _ _ h

theorem drop_eq_itemAt_cons {n : Nat} (h : n < its.length) : its.drop n = itemAt its n :: its.drop (n + 1) := by
  rw [itemAt_of_lt h, List.drop_eq_getElem_cons h]

variable (its)

theorem lenSum_succ (i : Nat) : lenSum its (i + 1) = lenSum its i + (itemAt its i).len.toNat := by
  by_cases h : i < its.length
  · rw [lenSum, List.take_succ_eq_append_getElem h, List.map_append, List.sum_append, ← itemAt_of_lt h,
      List.map_singleton, List.sum_singleton, lenSum]
  · have hend : its.length ≤ i := Nat.le_of_not_lt h
    rw [lenSum, lenSum, List.take_of_length_le hend, List.take_of_length_le (Nat.le_succ_of_le hend), itemAt,
      List.getD_eq_default _ _ hend]
    rfl

theorem lenSum_mono : Monotone (lenSum its) :=
  monotone_nat_of_le_succ fun i => by rw [lenSum_succ]; exact Nat.le_add_right _ _

/-- A length has 16 bits, so the sum over a list of R276 fits AUX. -/
theorem lenSum_lt {n : Nat} (h : n ≤ 255) : lenSum its n < 2 ^ 32 := by
  have hsum : lenSum its n ≤ n * 65535 := by
    clear h
    induction n with
    | zero => exact Nat.zero_le _
    | succ n ih =>
      have := (itemAt its n).len.isLt
      rw [lenSum_succ]
      omega
  omega

variable (pre rest : List Item) (it : Item)

theorem itemAt_append_of_lt {i : Nat} (h : i < pre.length) : itemAt (pre ++ rest) i = pre[i] := by
  rw [itemAt_of_lt (by rw [List.length_append]; omega), List.getElem_append_left h]

theorem itemAt_append_length : itemAt (pre ++ it :: rest) pre.length = it := by
  rw [itemAt, List.getD_append_right _ _ _ _ le_rfl, Nat.sub_self, List.getD_cons_zero]

theorem lenSum_append_of_le {i : Nat} (h : i ≤ pre.length) : lenSum (pre ++ rest) i = lenSum pre i := by
  rw [lenSum, List.take_append_of_le_length h, lenSum]

end items

/-- The first index at which a condition fails, or the end. -/
theorem exists_first_failure (P : Nat → Prop) (m : Nat) :
    ∃ n ≤ m, (∀ i < n, P i) ∧ (n = m ∨ n < m ∧ ¬P n) := by
  induction m with
  | zero => exact ⟨0, le_rfl, fun i hi => absurd hi (Nat.not_lt_zero i), .inl rfl⟩
  | succ m ih =>
    obtain ⟨n, hle, hall, hstop⟩ := ih
    rcases hstop with rfl | ⟨hlt, hn⟩
    · by_cases hn : P n
      · exact ⟨n + 1, le_rfl, fun i hi => (Nat.lt_succ_iff_lt_or_eq.1 hi).elim (hall i) (· ▸ hn), .inl rfl⟩
      · exact ⟨n, Nat.le_succ n, hall, .inr ⟨Nat.lt_succ_self n, hn⟩⟩
    · exact ⟨n, Nat.le_succ_of_le hle, hall, .inr ⟨Nat.lt_succ_of_lt hlt, hn⟩⟩

/-! ## One item (R201, R216) -/

/-- What `parseItem` does is what the statements say of one item. -/
theorem itemParses_of_parseItem {p : Params} {it : Item} {i : Nat} {b : Bytes} {t t' : Target} {r : Res} (hi : i < 256)
    (h : parseItem p it.kind t i b = (r, t')) : ItemParses p it i b t r t' := by
  unfold ItemParses
  cases hcustom : customOf p it.kind with
  | some d => rwa [parseItem_custom hcustom] at h
  | none =>
    cases hprim : primOfCode it.kind with
    | none =>
      rw [parseItem_undefined hcustom hprim] at h
      exact (congrArg Prod.fst h).symm
    | some k =>
      dsimp only
      split
      · rename_i hlen
        rw [parseItem_builtin hcustom hprim hlen, Prod.mk.injEq] at h
        obtain ⟨rfl, rfl⟩ := h
        exact ⟨rfl, by rw [tgtRead_tgtWrite, if_pos ⟨rfl, hi⟩], fun j hj => tgtRead_tgtWrite_of_ne t _ hj⟩
      · rename_i hlen
        rw [parseItem_badLength hcustom hprim (Bool.eq_false_iff.2 hlen)] at h
        exact (congrArg Prod.fst h).symm

/-- What `printItem` does is what the statements say of one item. -/
theorem itemPrints_of_printItem {p : Params} {it : Item} {i : Nat} {t : Target} {r : Res} {b : Bytes}
    (h : printItem p it.kind t i it.len.toNat = (r, b)) : ItemPrints p t it i r b := by
  unfold ItemPrints
  cases hcustom : customOf p it.kind with
  | some d => rwa [printItem_custom hcustom] at h
  | none =>
    cases hprim : primOfCode it.kind with
    | none =>
      rw [printItem_undefined hcustom hprim] at h
      exact (congrArg Prod.fst h).symm
    | some k =>
      dsimp only
      split
      · rename_i hlen
        rw [printItem_builtin hcustom hprim hlen, Prod.mk.injEq] at h
        exact ⟨h.1.symm, h.2.symm⟩
      · rename_i hlen
        rw [printItem_badLength hcustom hprim (Bool.eq_false_iff.2 hlen)] at h
        exact (congrArg Prod.fst h).symm

/-- An item of a reserved or undefined kind, or of a length that its built-in kind does not take. -/
def BadItem (p : Params) (it : Item) : Prop :=
  customOf p it.kind = none ∧
    (primOfCode it.kind = none ∨ ∃ k, primOfCode it.kind = some k ∧ primLenOk k it.len.toNat = false)

theorem parseItem_bad {p : Params} {it : Item} (h : BadItem p it) {b : Bytes} (hb : b.length = it.len.toNat) (t : Target)
    (i : Nat) : parseItem p it.kind t i b = (.fail, t) := by
  obtain ⟨hcustom, hprim | ⟨k, hprim, hlen⟩⟩ := h
  · exact parseItem_undefined hcustom hprim t i b
  · exact parseItem_badLength hcustom hprim (by rwa [hb]) t i

theorem printItem_bad {p : Params} {it : Item} (h : BadItem p it) (t : Target) (i : Nat) :
    printItem p it.kind t i it.len.toNat = (.fail, []) := by
  obtain ⟨hcustom, hprim | ⟨k, hprim, hlen⟩⟩ := h
  · exact printItem_undefined hcustom hprim t i _
  · exact printItem_badLength hcustom hprim hlen t i

/-! ## The loop of MAP.PARSE (R202) -/

section parse
variable (p : Params) (buf : Bytes) (its : List Item)

/-- The bytes of item n in the buffer. -/
def bytesAt (n : Nat) : Bytes := slice buf (lenSum its n) (lenSum its (n + 1))

/-- What item n makes of its bytes, on a target. -/
def parseAt (t : Target) (n : Nat) : Res × Target := parseItem p (itemAt its n).kind t n (bytesAt buf its n)

/-- The target after the first n items. -/
def targetAfter (t : Target) : Nat → Target
  | 0 => t
  | n + 1 => (parseAt p buf its (targetAfter t n) n).2

/-- Item n fits the buffer and, on the target of the items before it, parses. -/
def Parses (t : Target) (n : Nat) : Prop :=
  lenSum its (n + 1) ≤ buf.length ∧ (parseAt p buf its (targetAfter p buf its t n) n).1 = .ok

variable {p buf its} {n : Nat} {t t' : Target}

theorem bytesAt_length (hfits : lenSum its (n + 1) ≤ buf.length) :
    (bytesAt buf its n).length = (itemAt its n).len.toNat := by
  rw [lenSum_succ] at hfits
  rw [bytesAt, slice_length, lenSum_succ]
  omega

theorem parseItems_of_short (hn : n < its.length) (hshort : buf.length < lenSum its (n + 1)) :
    parseItems p buf (its.drop n) n (lenSum its n) t = ⟨.fail, n, t⟩ := by
  rw [lenSum_succ] at hshort
  rw [drop_eq_itemAt_cons hn, parseItems, if_pos hshort]

theorem parseItems_of_ok (hn : n < its.length) (hfits : lenSum its (n + 1) ≤ buf.length)
    (hitem : parseAt p buf its t n = (.ok, t')) :
    parseItems p buf (its.drop n) n (lenSum its n) t =
      parseItems p buf (its.drop (n + 1)) (n + 1) (lenSum its (n + 1)) t' := by
  rw [parseAt, bytesAt] at hitem
  rw [lenSum_succ] at hfits hitem ⊢
  rw [drop_eq_itemAt_cons hn, parseItems, if_neg hfits.not_gt, hitem]

theorem parseItems_of_stop {r : Res} (hn : n < its.length) (hfits : lenSum its (n + 1) ≤ buf.length)
    (hitem : parseAt p buf its t n = (r, t')) (hr : r ≠ .ok) :
    parseItems p buf (its.drop n) n (lenSum its n) t = ⟨r, n, t⟩ := by
  rw [parseAt, bytesAt] at hitem
  rw [lenSum_succ] at hfits hitem
  rw [drop_eq_itemAt_cons hn, parseItems, if_neg hfits.not_gt, hitem]
  cases r with
  | ok => exact absurd rfl hr
  | fail | inv => rfl

/-- The loop comes to item n when the items before it parse. -/
theorem parseItems_eq_drop (hn : n ≤ its.length) (hall : ∀ i < n, Parses p buf its t i) :
    parseItems p buf its 0 0 t = parseItems p buf (its.drop n) n (lenSum its n) (targetAfter p buf its t n) := by
  induction n with
  | zero => rfl
  | succ n ih =>
    obtain ⟨hfits, hok⟩ := hall n (Nat.lt_succ_self n)
    rw [ih (by omega) fun i hi => hall i (by omega), parseItems_of_ok hn hfits (Prod.ext hok rfl)]
    rfl

end parse

theorem answers_mapParse {s : State} {l : BitVec 4} {its : List Item} (hits : itemsOf s.params l.toNat = its) {r : Res}
    {a : Nat} {t : Target} (h : parseItems s.params s.din its 0 0 s.tgt = ⟨r, a, t⟩) (ha : a < 2 ^ 32) :
    Answers (.mapParse l) s { s with tgt := t } r (BitVec.ofNat 32 a) [] := by
  subst hits
  rw [← auxOfCount_small ha, Answers]
  exact congrArg (fun e : ParseEnd => finish (answer { s with tgt := e.tgt } e.res (auxOfCount e.aux) [])) h

/-- Settles O49: up to the first item that does not parse, or the end, the loop runs; there it ends. -/
theorem mapParseFillsSlotsUpToTheBound : Obligations.MapParseFillsSlotsUpToTheBound := by
  unfold Obligations.MapParseFillsSlotsUpToTheBound
  intro s l its hits hbound
  obtain ⟨n, hn, hall, hstop⟩ := exists_first_failure (Parses s.params s.din its s.tgt) its.length
  have hloop := parseItems_eq_drop hn hall
  refine ⟨n, targetAfter s.params s.din its s.tgt, hn, rfl, fun i h hi => ?_, ?_⟩
  · obtain ⟨hfits, hok⟩ := hall i hi
    refine ⟨hfits, itemParses_of_parseItem (by omega) ?_⟩
    rw [← itemAt_of_lt h]
    exact Prod.ext hok rfl
  · rcases hstop with rfl | ⟨hlt, hnot⟩
    · refine .inl ⟨rfl, answers_mapParse hits (hloop.trans ?_) (lenSum_lt its hbound)⟩
      rw [List.drop_length, parseItems]
    · have hsmall : n < 2 ^ 32 := by omega
      by_cases hfits : lenSum its (n + 1) ≤ s.din.length
      · obtain ⟨r, t, hitem⟩ : ∃ r t, parseAt s.params s.din its (targetAfter s.params s.din its s.tgt n) n = (r, t) :=
          ⟨_, _, rfl⟩
        have hr : r ≠ .ok := fun hok => hnot ⟨hfits, by rw [hitem, hok]⟩
        refine .inr ⟨hlt, r, answers_mapParse hits (hloop.trans (parseItems_of_stop hlt hfits hitem hr)) hsmall,
          .inr ⟨hfits, hr, t, itemParses_of_parseItem (by omega) ?_⟩⟩
        rwa [← itemAt_of_lt hlt]
      · have hshort := Nat.lt_of_not_le hfits
        exact .inr ⟨hlt, .fail, answers_mapParse hits (hloop.trans (parseItems_of_short hlt hshort)) hsmall,
          .inl ⟨hshort, rfl⟩⟩

/-! ## The loop of MAP.PRINT (R203) -/

section print
variable (p : Params) (t : Target) (its : List Item)

/-- What item n prints. -/
def printAt (n : Nat) : Res × Bytes := printItem p (itemAt its n).kind t n (itemAt its n).len.toNat

/-- The bytes of the first n items, in order. -/
def printedBytes (n : Nat) : Bytes := (List.range n).flatMap fun i => (printAt p t its i).2

/-- The buffer of `size` bytes after the first n items: their bytes, then zeros. -/
def bufferAfter (size n : Nat) : Bytes := printedBytes p t its n ++ List.replicate (size - lenSum its n) 0#8

/-- Item n fits the buffer and prints as many bytes as its length. -/
def Prints (size n : Nat) : Prop :=
  lenSum its (n + 1) ≤ size ∧ (printAt p t its n).1 = .ok ∧ (printAt p t its n).2.length = (itemAt its n).len.toNat

variable {p t its} {size n : Nat}

theorem printedBytes_succ : printedBytes p t its (n + 1) = printedBytes p t its n ++ (printAt p t its n).2 := by
  simp [printedBytes, List.range_succ]

theorem printedBytes_length (hall : ∀ i < n, Prints p t its size i) : (printedBytes p t its n).length = lenSum its n := by
  induction n with
  | zero => rfl
  | succ n ih =>
    obtain ⟨-, -, hlen⟩ := hall n (Nat.lt_succ_self n)
    rw [printedBytes_succ, List.length_append, ih fun i hi => hall i (by omega), hlen, lenSum_succ]

theorem lenSum_le_of_prints (hall : ∀ i < n, Prints p t its size i) : lenSum its n ≤ size := by
  cases n with
  | zero => exact Nat.zero_le _
  | succ n => exact (hall n (Nat.lt_succ_self n)).1

theorem bufferAfter_length (hall : ∀ i < n, Prints p t its size i) : (bufferAfter p t its size n).length = size := by
  rw [bufferAfter, List.length_append, printedBytes_length hall, List.length_replicate]
  exact Nat.add_sub_of_le (lenSum_le_of_prints hall)

/-- Each printed item stands in the buffer at its place. -/
theorem slice_printedBytes (hall : ∀ i < n, Prints p t its size i) {i : Nat} (hi : i < n) (rest : Bytes) :
    slice (printedBytes p t its n ++ rest) (lenSum its i) (lenSum its (i + 1)) = (printAt p t its i).2 := by
  induction n generalizing rest with
  | zero => exact absurd hi (Nat.not_lt_zero i)
  | succ n ih =>
    have hbefore : ∀ j < n, Prints p t its size j := fun j hj => hall j (by omega)
    rw [printedBytes_succ]
    rcases Nat.lt_succ_iff_lt_or_eq.1 hi with hlt | rfl
    · rw [List.append_assoc, ih hbefore hlt]
    · obtain ⟨-, -, hlen⟩ := hall i hi
      have hstart := printedBytes_length hbefore
      exact slice_append _ _ _ hstart.symm (by rw [hstart, hlen, lenSum_succ])

/-- After the printed items the buffer is zero. -/
theorem byteAt_bufferAfter (hall : ∀ i < n, Prints p t its size i) {a : Nat} (ha : lenSum its n ≤ a) :
    byteAt (bufferAfter p t its size n) a = 0x00#8 := by
  rw [byteAt, bufferAfter, List.getD_append_right _ _ _ _ (by rwa [printedBytes_length hall]),
    List.getD_eq_getElem?_getD, List.getElem?_getD_replicate_default_eq]

theorem printItems_of_short {buf : Bytes} (hn : n < its.length) (hshort : buf.length < lenSum its (n + 1)) :
    printItems p t (its.drop n) n (lenSum its n) buf = .done .fail n buf := by
  rw [lenSum_succ] at hshort
  rw [drop_eq_itemAt_cons hn, printItems, if_pos hshort]

theorem printItems_of_ok {buf b : Bytes} (hn : n < its.length) (hfits : lenSum its (n + 1) ≤ buf.length)
    (hitem : printAt p t its n = (.ok, b)) :
    printItems p t (its.drop n) n (lenSum its n) buf =
      if b.length = (itemAt its n).len.toNat then
        printItems p t (its.drop (n + 1)) (n + 1) (lenSum its (n + 1)) (overwrite buf (lenSum its n) b)
      else .broken := by
  rw [printAt] at hitem
  rw [lenSum_succ] at hfits ⊢
  rw [drop_eq_itemAt_cons hn, printItems, if_neg hfits.not_gt, hitem]

theorem printItems_of_stop {buf b : Bytes} {r : Res} (hn : n < its.length) (hfits : lenSum its (n + 1) ≤ buf.length)
    (hitem : printAt p t its n = (r, b)) (hr : r ≠ .ok) :
    printItems p t (its.drop n) n (lenSum its n) buf = .done r n buf := by
  rw [printAt] at hitem
  rw [lenSum_succ] at hfits
  rw [drop_eq_itemAt_cons hn, printItems, if_neg hfits.not_gt, hitem]
  cases r with
  | ok => exact absurd rfl hr
  | fail | inv => rfl

/-- Printing over zeros appends. -/
theorem overwrite_zeros (d b : Bytes) (k : Nat) :
    overwrite (d ++ List.replicate k 0#8) d.length b = d ++ b ++ List.replicate (k - b.length) 0#8 := by
  rw [overwrite, List.take_left, List.drop_length_add_append, List.drop_replicate]

/-- The loop comes to item n when the items before it print. -/
theorem printItems_eq_drop (hn : n ≤ its.length) (hall : ∀ i < n, Prints p t its size i) :
    printItems p t its 0 0 (List.replicate size 0#8) =
      printItems p t (its.drop n) n (lenSum its n) (bufferAfter p t its size n) := by
  induction n with
  | zero => rfl
  | succ n ih =>
    have hbefore : ∀ i < n, Prints p t its size i := fun i hi => hall i (by omega)
    obtain ⟨hfits, hok, hlen⟩ := hall n (Nat.lt_succ_self n)
    have hbuffer : overwrite (bufferAfter p t its size n) (lenSum its n) (printAt p t its n).2 =
        bufferAfter p t its size (n + 1) := by
      rw [bufferAfter, ← printedBytes_length hbefore, overwrite_zeros, printedBytes_length hbefore, bufferAfter,
        printedBytes_succ, hlen, lenSum_succ, Nat.sub_sub]
    rw [ih (by omega) hbefore, printItems_of_ok hn (by rwa [bufferAfter_length hbefore]) (Prod.ext hok rfl), if_pos hlen,
      hbuffer]

end print

section answers
variable {s : State} {l : BitVec 4} {size : U16} {its : List Item}

theorem answers_mapPrint (hits : itemsOf s.params l.toNat = its) {r : Res} {a : Nat} {buf : Bytes}
    (h : printItems s.params s.tgt its 0 0 (List.replicate size.toNat 0#8) = .done r a buf) (ha : a < 2 ^ 32) :
    Answers (.mapPrint l size) s s r (BitVec.ofNat 32 a) buf := by
  subst hits
  rw [← auxOfCount_small ha, Answers, exec, execMapPrint, h, settle_returned, finish_answer]

theorem answers_mapPrint_of_broken (hits : itemsOf s.params l.toNat = its)
    (h : printItems s.params s.tgt its 0 0 (List.replicate size.toNat 0#8) = .broken) :
    Answers (.mapPrint l size) s { s with fault := some .customContract } .fail 2#32 [] := by
  subst hits
  rw [Answers, exec, execMapPrint, h, settle_faulted]
  rfl

end answers

/-- Settles O50: up to the first item that does not print, or the end, the loop runs; there it ends. -/
theorem mapPrintWritesItemsUpToTheBound : Obligations.MapPrintWritesItemsUpToTheBound := by
  unfold Obligations.MapPrintWritesItemsUpToTheBound
  intro s l size its hits hbound
  obtain ⟨n, hn, hall, hstop⟩ := exists_first_failure (Prints s.params s.tgt its size.toNat) its.length
  have hloop := printItems_eq_drop hn hall
  have hlength := bufferAfter_length hall
  refine ⟨n, bufferAfter s.params s.tgt its size.toNat n, hn, hlength, fun i h hi => ?_,
    fun a ha _ => byteAt_bufferAfter hall ha, ?_⟩
  · obtain ⟨hfits, hok, -⟩ := hall i hi
    refine ⟨hfits, itemPrints_of_printItem ?_⟩
    rw [bufferAfter, slice_printedBytes hall hi, ← itemAt_of_lt h]
    exact Prod.ext hok rfl
  · rcases hstop with rfl | ⟨hlt, hnot⟩
    · refine .inl ⟨rfl, answers_mapPrint hits (hloop.trans ?_) (lenSum_lt its hbound)⟩
      rw [List.drop_length, printItems]
    · have hsmall : n < 2 ^ 32 := by omega
      refine .inr ⟨hlt, ?_⟩
      by_cases hfits : lenSum its (n + 1) ≤ size.toNat
      · obtain ⟨r, b, hitem⟩ : ∃ r b, printAt s.params s.tgt its n = (r, b) := ⟨_, _, rfl⟩
        have hroom := hfits.trans_eq hlength.symm
        refine .inr ⟨hfits, r, b, itemPrints_of_printItem (by rwa [← itemAt_of_lt hlt]), ?_⟩
        by_cases hr : r = .ok
        · subst hr
          have hlen : b.length ≠ (itemAt its n).len.toNat := fun hlen => hnot ⟨hfits, by rw [hitem], by rw [hitem, hlen]⟩
          refine .inr ⟨rfl, by rwa [← itemAt_of_lt hlt], answers_mapPrint_of_broken hits (hloop.trans ?_)⟩
          rw [printItems_of_ok hlt hroom hitem, if_neg hlen]
        · exact .inl ⟨hr, answers_mapPrint hits (hloop.trans (printItems_of_stop hlt hroom hitem hr)) hsmall⟩
      · have hshort := Nat.lt_of_not_le hfits
        exact .inl ⟨hshort, answers_mapPrint hits
          (hloop.trans (printItems_of_short hlt (hlength.symm ▸ hshort))) hsmall⟩

/-! ## Good items before a bad one -/

section good
variable {p : Params} {its : List Item} {n : Nat}

/-- A good item that fits writes its slot with the value of its bytes. -/
theorem parseAt_good {buf : Bytes} (hgood : GoodItem p (itemAt its n)) (hfits : lenSum its (n + 1) ≤ buf.length)
    (t : Target) : ∃ k, primOfCode (itemAt its n).kind = some k ∧
      parseAt p buf its t n = (.ok, tgtWrite t n (primValue k (bytesAt buf its n))) := by
  obtain ⟨hcustom, k, hprim, hlen⟩ := hgood
  exact ⟨k, hprim, parseItem_builtin hcustom hprim (by rwa [bytesAt_length hfits]) t n⟩

theorem printAt_good (hgood : GoodItem p (itemAt its n)) (t : Target) :
    printAt p t its n = (.ok, be (itemAt its n).len.toNat (tgtRead t n).toNat) := by
  obtain ⟨hcustom, k, hprim, hlen⟩ := hgood
  exact printItem_builtin hcustom hprim hlen t n

theorem parses_good {buf : Bytes} (hgood : GoodItem p (itemAt its n)) (hfits : lenSum its (n + 1) ≤ buf.length)
    (t : Target) : Parses p buf its t n := by
  obtain ⟨k, -, hitem⟩ := parseAt_good hgood hfits (targetAfter p buf its t n)
  exact ⟨hfits, by rw [hitem]⟩

theorem prints_good {size : Nat} (hgood : GoodItem p (itemAt its n)) (hfits : lenSum its (n + 1) ≤ size) (t : Target) :
    Prints p t its size n := by
  rw [Prints, printAt_good hgood]
  exact ⟨hfits, rfl, be_length _ _⟩

/-- Good items leave their values in their slots. -/
theorem slotsFrom_targetAfter {buf : Bytes} (hn : n ≤ its.length) (hbound : n ≤ 256)
    (hgood : ∀ i < n, GoodItem p (itemAt its i)) (hfits : lenSum its n ≤ buf.length) (t : Target) :
    SlotsFrom its n buf t (targetAfter p buf its t n) := by
  induction n with
  | zero => exact ⟨fun i _ hi => absurd hi (Nat.not_lt_zero i), fun i _ => rfl⟩
  | succ n ih =>
    obtain ⟨hslots, hrest⟩ := ih (by omega) (by omega) (fun i hi => hgood i (by omega))
      ((lenSum_mono its (Nat.le_succ n)).trans hfits)
    obtain ⟨k, hprim, hitem⟩ := parseAt_good (hgood n (Nat.lt_succ_self n)) hfits (targetAfter p buf its t n)
    rw [SlotsFrom, targetAfter, hitem]
    refine ⟨fun i h hi => ?_, fun i hi => ?_⟩
    · rcases Nat.lt_succ_iff_lt_or_eq.1 hi with hlt | rfl
      · rw [tgtRead_tgtWrite_of_ne _ _ (Nat.ne_of_lt hlt)]
        exact hslots i h hlt
      · refine ⟨k, by rwa [← itemAt_of_lt h], ?_⟩
        rw [tgtRead_tgtWrite, if_pos ⟨rfl, by omega⟩, bytesAt]
    · rw [tgtRead_tgtWrite_of_ne _ _ (by omega)]
      exact hrest i (by omega)

/-- Good items leave their slots' low bytes in the buffer. -/
theorem printedFrom_bufferAfter {size : Nat} (hgood : ∀ i < n, GoodItem p (itemAt its i)) (hfits : lenSum its n ≤ size)
    (t : Target) : PrintedFrom its n t (bufferAfter p t its size n) := by
  have hall : ∀ i < n, Prints p t its size i := fun i hi =>
    prints_good (hgood i hi) ((lenSum_mono its hi).trans hfits) t
  refine ⟨fun i h hi => ?_, fun a ha _ => byteAt_bufferAfter hall ha⟩
  rw [bufferAfter, slice_printedBytes hall hi, printAt_good (hgood i hi), itemAt_of_lt h]

end good

section leading
variable {pre rest : List Item}

/-- The slots of the first items do not depend on the items after them. -/
theorem slotsFrom_of_append {buf : Bytes} {t t' : Target} (h : SlotsFrom (pre ++ rest) pre.length buf t t') :
    SlotsFrom pre pre.length buf t t' := by
  refine ⟨fun i hi _ => ?_, h.2⟩
  have hslot := h.1 i (by rw [List.length_append]; omega) hi
  rwa [List.getElem_append_left hi, lenSum_append_of_le _ _ hi.le, lenSum_append_of_le _ _ hi] at hslot

/-- The bytes of the first items do not depend on the items after them. -/
theorem printedFrom_of_append {t : Target} {buf : Bytes} (h : PrintedFrom (pre ++ rest) pre.length t buf) :
    PrintedFrom pre pre.length t buf := by
  obtain ⟨hitems, hzeros⟩ := h
  rw [lenSum_append_of_le _ _ le_rfl] at hzeros
  refine ⟨fun i hi _ => ?_, hzeros⟩
  have hitem := hitems i (by rw [List.length_append]; omega) hi
  rwa [List.getElem_append_left hi, lenSum_append_of_le _ _ hi.le, lenSum_append_of_le _ _ hi] at hitem

end leading

/-- Settles O51: the loops come through the good items to the bad one, which fits and fails. -/
theorem itemOfABadKindFails : Obligations.ItemOfABadKindFails := by
  unfold Obligations.ItemOfABadKindFails
  intro s l size pre it post hits hbound hpre hcustom hkind
  have hbad : BadItem s.params (itemAt (pre ++ it :: post) pre.length) := by
    rw [itemAt_append_length]
    exact ⟨hcustom, hkind⟩
  have hgood : ∀ i < pre.length, GoodItem s.params (itemAt (pre ++ it :: post) i) := fun i hi => by
    rw [itemAt_append_of_lt _ _ hi]
    exact hpre _ (List.getElem_mem hi)
  have hlt : pre.length < (pre ++ it :: post).length := by simp
  have hsmall : pre.length < 2 ^ 32 := by omega
  have hend : lenSum (pre ++ it :: post) (pre.length + 1) = lenSum pre pre.length + it.len.toNat := by
    rw [lenSum_succ, lenSum_append_of_le _ _ le_rfl, itemAt_append_length]
  have hbefore : ∀ {m}, lenSum (pre ++ it :: post) (pre.length + 1) ≤ m → ∀ i ≤ pre.length,
      lenSum (pre ++ it :: post) i ≤ m := fun hm i hi => (lenSum_mono _ (by omega)).trans hm
  rw [← hend]
  refine ⟨fun hfits => ⟨_, slotsFrom_of_append (slotsFrom_targetAfter hlt.le (by omega) hgood
    (hbefore hfits _ le_rfl) s.tgt), ?_⟩, fun hfits => ?_⟩
  · have hloop := parseItems_eq_drop hlt.le fun i hi => parses_good (hgood i hi) (hbefore hfits _ hi) s.tgt
    have hitem := parseItem_bad hbad (bytesAt_length hfits) (targetAfter s.params s.din (pre ++ it :: post) s.tgt pre.length)
      pre.length
    exact answers_mapParse hits (hloop.trans (parseItems_of_stop hlt hfits hitem Res.noConfusion)) hsmall
  · have hall := fun i hi => prints_good (hgood i hi) (hbefore hfits _ hi) s.tgt
    have hlength := bufferAfter_length hall
    refine ⟨_, hlength, printedFrom_of_append (printedFrom_bufferAfter hgood (hbefore hfits _ le_rfl) s.tgt), ?_⟩
    exact answers_mapPrint hits ((printItems_eq_drop hlt.le hall).trans (printItems_of_stop hlt
      (hfits.trans_eq hlength.symm) (printItem_bad hbad s.tgt pre.length) Res.noConfusion)) hsmall

end Sys2Proof.Proofs.MapperLists
end

section
/-! PROOFS. The family of spec/44_address_registry.md, part one: the lookup (R231 to R233), REG.SET with the CRC_CFG
hook and register indirection (R234 to R238, R247). -/

namespace Sys2Proof.Proofs.RegistryWrite

open Sys2Proof Sys2Proof.Machine Sys2Proof.Proofs.CodecSend

/-! ## The lookup, in the words of the statements (R233) -/

/-- An entry does not cover the addresses outside its range. -/
theorem not_entryCovers_iff (e : Entry) (a : U16) :
    entryCovers e a = false ↔ ¬(e.addr.toNat ≤ a.toNat ∧ a.toNat < e.addr.toNat + e.len) := by
  rw [← entryCovers_iff, Bool.not_eq_true]

theorem matchEntry_eq_some_iff {p : Params} {a : U16} {e : Entry} : matchEntry p a = some e ↔ Owns p a.toNat e := by
  simp only [matchEntry, List.find?_eq_some_iff_append, entryCovers_iff, Bool.not_eq_true', not_entryCovers_iff]
  exact ⟨fun ⟨hin, before, after, htable, hfirst⟩ => ⟨before, after, htable, hin, hfirst⟩,
    fun ⟨before, after, htable, hin, hfirst⟩ => ⟨hin, before, after, htable, hfirst⟩⟩

theorem matchEntry_eq_none_iff {p : Params} {a : U16} : matchEntry p a = none ↔ Unmatched p a.toNat := by
  simp only [matchEntry_none, not_entryCovers_iff, Unmatched]

/-- The register address of a request (30_encoding R104). -/
theorem half_eq_addrOf (hi lo : Byte) (d : Bytes) : half (hi :: lo :: d) 0 = addrOf hi lo := half_cons hi lo d

/-! ## REG.SET by its cases (R234) -/

section regSet
variable {s : State} {hi lo : Byte} {d : Bytes} {e : Entry}

theorem regSet_of_short (h : d.length < 2) : regSet s d = answer s .fail 0#32 [] := if_pos h

/-- A write with no data, to an unmatched address or to a read-only owner is not stored. -/
theorem regSet_of_not_stored (h : d = [] ∨ Unmatched s.params (addrOf hi lo).toNat ∨
      ∃ e, Owns s.params (addrOf hi lo).toNat e ∧ e.wr = false) :
    regSet s (hi :: lo :: d) = answer s .ok 0#32 [] := by
  rw [regSet, if_neg (by simp), half_eq_addrOf]
  cases hm : matchEntry s.params (addrOf hi lo) with
  | none => rfl
  | some e =>
    refine if_pos ?_
    rcases h with hnil | hun | ⟨f, hf, hro⟩
    · exact .inr hnil
    · exact nomatch (matchEntry_eq_none_iff.2 hun).symm.trans hm
    · rw [matchEntry_eq_some_iff.2 hf, Option.some.injEq] at hm
      exact .inl (hm ▸ hro)

/-- A write with data to a writable owner is stored. -/
theorem regSet_of_stored (ho : Owns s.params (addrOf hi lo).toNat e) (hwr : e.wr = true) (hd : d ≠ []) :
    regSet s (hi :: lo :: d) = answer (storeWrite s e (addrOf hi lo) d) .ok (auxOfCount d.length) [] := by
  have hstored : ¬(e.wr = false ∨ d = []) := by simp [hwr, hd]
  rw [regSet, if_neg (by simp), half_eq_addrOf, matchEntry_eq_some_iff.2 ho]
  exact if_neg hstored

theorem answers_regSet {u : State} {r : Res} {a : U32} {q x : Bytes} (hdin : s.din = q)
    (h : regSet s q = answer u r a x) : Answers .regSet s u r a x := by
  subst hdin
  exact congrArg finish h

end regSet

/-! ## The stored bytes (R230) -/

section stored
variable {m : Memory}

theorem storedAt_rfStore (h : Memory.wf m) (a : U16) (d : Bytes) : StoredAt a d m (rfStore m a d) :=
  fun x => memRead_rfStoreFrom h (2 * a.toNat) d x

/-- Two bytes or more at A replace register A. -/
theorem rfRead_rfStore_of_two (h : Memory.wf m) (a : U16) (vh vl : Byte) (more : Bytes) :
    rfRead (rfStore m a (vh :: vl :: more)) a = vh ++ vl := by
  have hstored := storedAt_rfStore h a (vh :: vl :: more)
  have ha := a.isLt
  rw [rfRead, hstored, if_pos ⟨le_rfl, by simp, by omega⟩, hstored,
    if_pos ⟨Nat.le_succ _, by rw [List.length_cons, List.length_cons]; omega, by omega⟩, Nat.sub_self,
    Nat.add_sub_cancel_left]
  rfl

/-- One byte at A replaces the high byte of register A. -/
theorem rfRead_rfStore_of_one (h : Memory.wf m) (a : U16) (vh : Byte) :
    rfRead (rfStore m a [vh]) a = vh ++ memRead m (2 * a.toNat + 1) := by
  have hstored := storedAt_rfStore h a [vh]
  have ha := a.isLt
  rw [rfRead, hstored, if_pos ⟨le_rfl, by simp, by omega⟩, hstored,
    if_neg fun ⟨_, hlt, _⟩ => absurd hlt (by simp), Nat.sub_self]
  rfl

end stored

/-! ## The events of a stored write (R234 to R237) -/

section events
variable {p : Params} {rf : Memory} {a : U16} {w : Binding}

theorem writeEvents_of_sys {e : Entry} (h : e.kind = .sys) (wb : List Binding) (d : Bytes) :
    writeEvents p wb rf e a d = [.sysWrite e.addr a d] := by
  rw [writeEvents, h]

theorem writeEvents_of_var {e : Entry} (h : e.kind = .var) (wb : List Binding) (d : Bytes) :
    writeEvents p wb rf e a d = indirection p wb rf a := by
  rw [writeEvents, h]

/-- A stored write of a VAR entry emits the events of register indirection. -/
theorem storeWrite_evt_of_var (s : State) {e : Entry} (h : e.kind = .var) (a : U16) (d : Bytes) :
    (storeWrite s e a d).evt = s.evt ++ indirection s.params s.wb (rfStore s.rf a d) a := by
  rw [storeWrite, emit_evt, writeEvents_of_var h]

theorem storeWrite_rf (s : State) (e : Entry) (a : U16) (d : Bytes) :
    (storeWrite s e a d).rf = rfStore s.rf a d := rfl

/-- The parse of a binding's block by its widget's item list, on a fresh target (R237). -/
def blockParse (p : Params) (rf : Memory) (w : Binding) : ParseEnd :=
  parseItems p (rfLoad rf w.sp w.lenDsc.toNat) (itemsOf p (widgetListOf p w.type)) 0 0 freshTarget

theorem redecode_of_ok (h : (blockParse p rf w).res = .ok) : redecode p rf w = some (.setRecord w.handle w.type
    ((blockParse p rf w).tgt.toList.take (itemsOf p (widgetListOf p w.type)).length)) := by
  rw [blockParse] at h ⊢
  rw [redecode, h]

theorem redecode_of_not_ok (h : (blockParse p rf w).res ≠ .ok) : redecode p rf w = none := by
  rw [blockParse] at h
  rw [redecode]
  split
  · exact absurd ‹_› h
  · rfl

/-- A widget event: SetScalar or SetRecord (10_state R56). -/
def IsWidgetEvent (ev : Event) : Prop := (∃ h v, ev = .setScalar h v) ∨ ∃ h ty r, ev = .setRecord h ty r

theorem isWidgetEvent_of_redecode {ev : Event} (h : redecode p rf w = some ev) : IsWidgetEvent ev := by
  by_cases hok : (blockParse p rf w).res = .ok
  · rw [redecode_of_ok hok, Option.some.injEq] at h
    exact .inr ⟨_, _, _, h.symm⟩
  · rw [redecode_of_not_ok hok] at h
    exact nomatch h

theorem bindingEvent_at_vp (h : a = w.vp) : bindingEvent p rf a w = some (.setScalar w.handle (rfRead rf w.vp)) :=
  if_pos h.symm

theorem bindingEvent_in_range (hvp : a ≠ w.vp) (hsp : w.sp.toNat ≤ a.toNat)
    (hend : a.toNat < w.sp.toNat + w.lenDsc.toNat) : bindingEvent p rf a w = redecode p rf w := by
  rw [bindingEvent, if_neg hvp.symm, if_pos ((inSpRange_iff w a).2 ⟨hsp, hend⟩)]

theorem bindingEvent_outside (hvp : a ≠ w.vp) (h : a.toNat < w.sp.toNat ∨ w.sp.toNat + w.lenDsc.toNat ≤ a.toNat) :
    bindingEvent p rf a w = none := by
  rw [bindingEvent, if_neg hvp.symm, if_neg fun hin => ?_]
  obtain ⟨hsp, hend⟩ := (inSpRange_iff w a).1 hin
  omega

theorem isWidgetEvent_of_bindingEvent {ev : Event} (h : bindingEvent p rf a w = some ev) : IsWidgetEvent ev := by
  by_cases hvp : a = w.vp
  · rw [bindingEvent_at_vp hvp, Option.some.injEq] at h
    exact .inl ⟨_, _, h.symm⟩
  · by_cases hin : w.sp.toNat ≤ a.toNat ∧ a.toNat < w.sp.toNat + w.lenDsc.toNat
    · rw [bindingEvent_in_range hvp hin.1 hin.2] at h
      exact isWidgetEvent_of_redecode h
    · rw [bindingEvent_outside hvp (by omega)] at h
      exact nomatch h

theorem isWidgetEvent_of_mem_indirection {wb : List Binding} {ev : Event} (h : ev ∈ indirection p wb rf a) :
    IsWidgetEvent ev := by
  obtain ⟨w, -, hw⟩ := List.mem_filterMap.1 h
  exact isWidgetEvent_of_bindingEvent hw

theorem indirection_length_le (wb : List Binding) : (indirection p wb rf a).length ≤ wb.length :=
  List.length_filterMap_le _ _

/-- Table order: the first binding's event comes before those of the rest. -/
theorem indirection_cons (ws : List Binding) :
    indirection p (w :: ws) rf a = indirection p [w] rf a ++ indirection p ws rf a :=
  List.filterMap_append (l := [w])

theorem indirection_singleton : indirection p [w] rf a = (bindingEvent p rf a w).toList := by
  rw [indirection, List.filterMap_cons]
  cases bindingEvent p rf a w <;> rfl

end events

/-! ## The obligations on REG.SET -/

/-- Settles O53: the four endings of REG.SET, and for the stored one the events by the kind of the owner. -/
theorem regSetStoresAndRunsItsHandler : Obligations.RegSetStoresAndRunsItsHandler := by
  unfold Obligations.RegSetStoresAndRunsItsHandler
  intro s hrf
  refine ⟨fun hshort => answers_regSet rfl (regSet_of_short hshort), fun hi lo d hdin =>
    ⟨fun hun => answers_regSet hdin (regSet_of_not_stored (.inr (.inl hun))), fun e ho =>
      ⟨fun h => answers_regSet hdin (regSet_of_not_stored ?_), fun hwr hd => ?_⟩⟩⟩
  · rcases h with hro | hnil
    · exact .inr (.inr ⟨e, ho, hro⟩)
    · exact .inl hnil
  · refine ⟨_, _, _, _, answers_regSet hdin (regSet_of_stored ho hwr hd), auxOfCount_toNat, storedAt_rfStore hrf _ _,
      fun hnone => crcEnAfter_none hnone _ _ _ _, fun hsys => writeEvents_of_sys hsys _ _, fun hvar => ?_⟩
    rw [writeEvents_of_var hvar]
    exact ⟨indirection_length_le _, fun ev hev => isWidgetEvent_of_mem_indirection hev⟩

/-- With no CRC_CFG, REG.SET leaves CRC_EN, whatever its input. -/
theorem regSet_crcEn_of_none {s : State} (h : s.params.crcCfg = none) (d : Bytes) :
    (regSet s d).st.crcEn = s.crcEn := by
  rcases regSet_cases s d with ⟨r, hr⟩ | ⟨e, -, -, -, -, hr⟩
  · rw [hr, answer_st]
  · rw [hr, answer_st, storeWrite_eq]
    exact crcEnAfter_none h _ _ _ _

theorem execRfWr_crcEn (s : State) (r : U16) {t : State} (h : exec (.rfWr r) s = .next t) : t.crcEn = s.crcEn := by
  rw [exec, execRfWr, finish_eq, Host.Outcome.next.injEq] at h
  rw [← h, record_crcEn]
  split <;> rfl

/-- Settles O54: CRC_EN after each ending of REG.SET; for a stored write it is `crcEnAfter`. -/
theorem crcCfgHookFollowsTheRegister : Obligations.CrcCfgHookFollowsTheRegister := by
  unfold Obligations.CrcCfgHookFollowsTheRegister
  intro s _
  refine ⟨fun hnone t ht => ?_, fun r t ht => execRfWr_crcEn s r ht, fun hi lo d hdin =>
    ⟨fun h t ht => ?_, fun e a k hd ho hwr hcfg => ⟨_, answers_regSet hdin (regSet_of_stored ho hwr hd), ?_⟩⟩⟩
  · rw [exec, execRegSet, finish_eq, Host.Outcome.next.injEq] at ht
    rw [← ht, record_crcEn, regSet_crcEn_of_none hnone]
  · rw [answers_regSet hdin (regSet_of_not_stored h), Host.Outcome.next.injEq] at ht
    rw [← ht, record_crcEn]
  · rw [record_crcEn, record_rf, storeWrite_eq, crcEnAfter_some hcfg]
    exact ⟨fun hle hlt => if_pos ⟨hle, hlt⟩, fun hout => if_neg (by omega)⟩

/-- Settles O55: one binding has at most one event, and the three cases of R235 say which. -/
theorem oneBindingGetsItsEvents : Obligations.OneBindingGetsItsEvents := by
  unfold Obligations.OneBindingGetsItsEvents
  intro s w hi lo d e hrf hwb hdin hd ho hvar hwr
  refine ⟨_, answers_regSet hdin (regSet_of_stored ho hwr hd), ?_⟩
  simp only [record_evt, record_rf, storeWrite_rf, storeWrite_evt_of_var s hvar, hwb, indirection_singleton]
  refine ⟨fun hvp => ⟨by rw [bindingEvent_at_vp hvp]; rfl, ?_, ?_⟩, fun hvp hsp hend => ⟨_, rfl, ?_, ?_⟩,
    fun hvp hout => ?_⟩
  · rintro vh vl more rfl
    rw [← hvp]
    exact rfRead_rfStore_of_two hrf _ vh vl more
  · rintro vh rfl
    rw [← hvp]
    exact rfRead_rfStore_of_one hrf _ vh
  · intro hok
    exact ⟨_, by rw [bindingEvent_in_range hvp hsp hend, redecode_of_ok hok]; rfl, rfl⟩
  · intro hbad
    rw [bindingEvent_in_range hvp hsp hend, redecode_of_not_ok hbad, Option.toList_none, List.append_nil]
  · rw [bindingEvent_outside hvp hout, Option.toList_none, List.append_nil]

/-- Settles O56: the three writes store the same register file, and the events of a table are those of its bindings in
order. -/
theorem eventsOfATableAreThoseOfItsBindings : Obligations.EventsOfATableAreThoseOfItsBindings := by
  unfold Obligations.EventsOfATableAreThoseOfItsBindings
  intro s w ws hi lo d e hwb hdin hd ho hvar hwr
  refine ⟨_, _, _, _, _, answers_regSet (s := { s with wb := [w] }) hdin (regSet_of_stored ho hwr hd),
    storeWrite_evt_of_var _ hvar _ _,
    answers_regSet (s := { s with wb := ws }) hdin (regSet_of_stored ho hwr hd), storeWrite_evt_of_var _ hvar _ _,
    answers_regSet hdin (regSet_of_stored ho hwr hd), ?_, rfl, rfl⟩
  rw [record_evt, storeWrite_evt_of_var s hvar, hwb, indirection_cons, List.append_assoc]

end Sys2Proof.Proofs.RegistryWrite
end

section
/-! PROOFS. The family of spec/44_address_registry.md, part two: REG.GET and the register dispatcher (R239 to R241), the
collaborator's access to RF and the binding table (R242 to R245). -/

namespace Sys2Proof.Proofs.RegistryAccess

open Sys2Proof Sys2Proof.Machine Sys2Proof.Proofs.CodecSend Sys2Proof.Proofs.RegistryWrite

/-! ## REG.GET by its cases (R239) -/

section regGet
variable {s : State} {hi lo n : Byte} {more : Bytes} {e : Entry}

theorem regGet_of_short {d : Bytes} (h : d.length < 3) : regGet s d = answer s .fail 0#32 [] := if_pos h

theorem regGet_of_unmatched (h : Unmatched s.params (addrOf hi lo).toNat) :
    regGet s (hi :: lo :: n :: more) = answer s .ok 0#32 [] := by
  rw [regGet, if_neg (by simp), half_eq_addrOf, matchEntry_eq_none_iff.2 h]

theorem regGet_of_unreadable (ho : Owns s.params (addrOf hi lo).toNat e) (h : e.rd = false) :
    regGet s (hi :: lo :: n :: more) = answer s .ok 0#32 [] := by
  rw [regGet, if_neg (by simp), half_eq_addrOf, matchEntry_eq_some_iff.2 ho]
  exact if_pos h

/-- The request echo and the registers' bytes (30_encoding R106). -/
theorem readResponse_cons :
    readResponse s (hi :: lo :: n :: more) = [s.params.cmdRd, hi, lo, n] ++ rfLoad s.rf (addrOf hi lo) n.toNat := by
  rw [readResponse, half_eq_addrOf]
  rfl

theorem rfLoad_length (m : Memory) (r : U16) (k : Nat) : (rfLoad m r k).length = 2 * k := by
  rw [rfLoad, List.length_map, List.length_range]

theorem byteAt_rfLoad (m : Memory) (r : U16) {k j : Nat} (h : j < 2 * k) :
    byteAt (rfLoad m r k) j = rfByte m (2 * r.toNat + j) := by
  rw [byteAt, List.getD_eq_getElem _ _ (by rwa [rfLoad_length])]
  simp only [rfLoad, List.getElem_map, List.getElem_range]

theorem rfByte_eq (m : Memory) (a : Nat) : rfByte m a = if a ≤ 0x1FFFF then memRead m a else 0x00#8 :=
  if_congr Nat.lt_succ_iff rfl rfl

theorem regGet_of_readable (ho : Owns s.params (addrOf hi lo).toNat e) (h : e.rd = true) :
    regGet s (hi :: lo :: n :: more) = answer s .ok (BitVec.ofNat 32 (4 + 2 * n.toNat))
      ([s.params.cmdRd, hi, lo, n] ++ rfLoad s.rf (addrOf hi lo) n.toNat) := by
  have hlen : (readResponse s (hi :: lo :: n :: more)).length = 4 + 2 * n.toNat := by
    rw [readResponse_cons, List.length_append, rfLoad_length]
    rfl
  have hn := n.isLt
  rw [regGet, if_neg (by simp), half_eq_addrOf, matchEntry_eq_some_iff.2 ho, hlen, auxOfCount_small (by omega),
    readResponse_cons]
  exact if_neg (by rw [h]; exact Bool.noConfusion)

theorem answers_regGet {q x : Bytes} {r : Res} {a : U32} (hdin : s.din = q) (h : regGet s q = answer s r a x) :
    Answers .regGet s s r a x := by
  subst hdin
  exact congrArg finish h

/-- REG.GET reads its argument and not the field DIN: its outputs are the same whatever DIN holds. -/
theorem regGet_din (s : State) (q : Bytes) :
    ∃ r a x, ∀ d, regGet { s with din := d } q = answer { s with din := d } r a x := by
  by_cases hshort : q.length < 3
  · exact ⟨_, _, _, fun d => regGet_of_short hshort⟩
  · simp only [regGet, if_neg hshort]
    cases matchEntry s.params (half q 0) with
    | none => exact ⟨_, _, _, fun d => rfl⟩
    | some e =>
      by_cases hrd : e.rd = false
      · exact ⟨_, _, _, fun d => if_pos hrd⟩
      · exact ⟨.ok, auxOfCount (readResponse s q).length, readResponse s q, fun d => if_neg hrd⟩

end regGet

/-- Settles O57: REG.GET by its cases, and each byte of what it loads. -/
theorem regGetEchoesThenReads : Obligations.RegGetEchoesThenReads := by
  unfold Obligations.RegGetEchoesThenReads
  intro s
  refine ⟨fun hshort => answers_regGet rfl (regGet_of_short hshort), fun hi lo n more hdin =>
    ⟨fun hun => answers_regGet hdin (regGet_of_unmatched hun), fun e ho =>
      ⟨fun hrd => answers_regGet hdin (regGet_of_unreadable ho hrd), fun hrd =>
        ⟨_, answers_regGet hdin (regGet_of_readable ho hrd), rfLoad_length .., fun j hj => ?_⟩⟩⟩⟩
  rw [byteAt_rfLoad _ _ hj, rfByte_eq]

/-! ## The register dispatcher (R240, R241) -/

section dispatch
variable {s : State} {cmd : Byte} {rest : Bytes}

theorem regDispatch_of_unknown (hw : cmd ≠ s.params.cmdWr) (hr : cmd ≠ s.params.cmdRd) :
    regDispatch s (cmd :: rest) = answer s .ok 0#32 [] := by
  rw [regDispatch, if_neg hw, if_neg hr]

theorem regDispatch_of_write (h : cmd = s.params.cmdWr) :
    regDispatch s (cmd :: rest) = answer (regSet s rest).st (regSet s rest).res (regSet s rest).aux [] := by
  rw [regDispatch, if_pos h]

theorem regDispatch_of_no_response (hw : cmd ≠ s.params.cmdWr) (hr : cmd = s.params.cmdRd) {r : Res} {a : U32}
    {resp : Bytes} (hget : regGet s rest = answer s r a resp) (h : r ≠ .ok ∨ resp = []) :
    regDispatch s (cmd :: rest) = answer s r 0#32 [] := by
  rw [regDispatch, if_neg hw, if_pos hr, hget]
  exact if_pos h

theorem regDispatch_of_response (hw : cmd ≠ s.params.cmdWr) (hr : cmd = s.params.cmdRd) {a : U32} {resp : Bytes}
    (hget : regGet s rest = answer s .ok a resp) (hresp : resp ≠ []) :
    regDispatch s (cmd :: rest) =
      answer (sendPacket s resp).st (sendPacket s resp).res (sendPacket s resp).aux resp := by
  rw [regDispatch, if_neg hw, if_pos hr, hget]
  exact if_neg fun h => h.elim (· rfl) hresp

theorem answers_regDisp {u : State} {q x : Bytes} {r : Res} {a : U32} (hdin : s.din = q)
    (h : regDispatch s q = answer u r a x) : Answers .regDisp s u r a x := by
  subst hdin
  exact congrArg finish h

/-- REG.DISP answers what the dispatcher answers on the payload in a state with any other DIN, its own DIN put back. -/
theorem answers_regDisp_of_din {d q x : Bytes} {u : State} {r : Res} {a : U32} (hdin : s.din = q)
    (h : regDispatch { s with din := d } q = answer u r a x) : Answers .regDisp s { u with din := s.din } r a x := by
  have hback := regDispatch_din { s with din := d } s.din q
  rw [h] at hback
  exact answers_regDisp hdin hback

end dispatch

/-- Settles O58: the three routes of the dispatcher; REG.SET, REG.GET and CDC.SENDP run on the state with their own
input as DIN, which the dispatcher does not read. -/
theorem regDispRoutesByItsFirstByte : Obligations.RegDispRoutesByItsFirstByte := by
  unfold Obligations.RegDispRoutesByItsFirstByte
  intro s
  refine ⟨fun hdin => answers_regDisp hdin rfl, fun cmd rest hdin =>
    ⟨fun hw hr => answers_regDisp hdin (regDispatch_of_unknown hw hr), fun hw => ?_, fun hw hr => ?_⟩⟩
  · exact ⟨_, _, _, _, finish_eq (regSet { s with din := rest } rest),
      answers_regDisp_of_din hdin (regDispatch_of_write (s := { s with din := rest }) hw)⟩
  · obtain ⟨r, a, resp, hget⟩ := regGet_din s rest
    refine ⟨r, a, resp, answers_regGet rfl (hget rest), fun h => ?_, fun hok hresp => ?_⟩
    · exact answers_regDisp hdin (regDispatch_of_no_response hw hr (hget s.din) h)
    · subst hok
      exact ⟨_, _, _, _, finish_eq (sendPacket { s with din := resp } resp),
        answers_regDisp_of_din hdin (regDispatch_of_response (s := { s with din := resp }) hw hr (hget resp) hresp)⟩

/-! ## RF.RD and RF.WR (R242, R243) -/

/-- What RFWrite leaves of every byte: the register's two, high byte first, and the rest as before. -/
theorem memRead_rfWrite {m : Memory} (h : Memory.wf m) (r : U16) (hi lo : Byte) (x : Nat) :
    memRead (rfWrite m r (hi ++ lo)) x =
      if x = 2 * r.toNat then hi else if x = 2 * r.toNat + 1 then lo else memRead m x := by
  obtain ⟨hhigh, hlow⟩ := Encoding.append_byte_inj.1 (CodecFrame.high_append_low (hi ++ lo))
  rw [rfWrite, memRead_memWrite (memWrite_wf h _ _), memRead_memWrite h, hhigh, hlow]
  by_cases hx : x = 2 * r.toNat
  · rw [if_neg (by omega), if_pos hx, if_pos hx]
  · rw [if_neg hx, if_neg hx]

theorem be_two_pair (hi lo : Byte) : be 2 (hi ++ lo : U16).toNat = [hi, lo] := by
  rw [toNat_pair, ← QueueCommands.unBE_pair]
  exact be_unBE [hi, lo]

/-- RF.RD of a register whose two bytes are known. -/
theorem answers_rfRd {s : State} {r : U16} {hi lo : Byte} (h : rfRead s.rf r = hi ++ lo) :
    Answers (.rfRd r) s s .ok ((hi ++ lo : U16).setWidth 32) [hi, lo] := by
  rw [Answers, exec, execRfRd, finish_answer, h, be_two_pair]

/-- Settles O59: RFWrite byte by byte, and RFRead of the two bytes it wrote. -/
theorem rfWrThenRfRdGivesTheRegister : Obligations.RfWrThenRfRdGivesTheRegister := by
  unfold Obligations.RfWrThenRfRdGivesTheRegister
  intro s r hrf
  refine ⟨fun hlen => congrArg finish (if_neg hlen), fun hi lo hdin => ?_, answers_rfRd rfl⟩
  refine ⟨rfWrite s.rf r (hi ++ lo), ?_, memRead_rfWrite hrf r hi lo, fun u hu => answers_rfRd ?_⟩
  · rw [← half_cons hi lo [], ← hdin]
    exact congrArg finish (if_pos (by rw [hdin]; rfl))
  · rw [hu, rfRead_rfWrite hrf, if_pos rfl]

/-! ## WB.ADD and WB.CLR (R244, R245) -/

/-- A field at an offset is the field at the start of what stands from there on. -/
theorem half_drop (d : Bytes) (a : Nat) : half d a = half (d.drop a) 0 := by
  rw [half, half, slice, slice, Nat.add_sub_cancel_left]
  rfl

/-- The binding that ten bytes spell, field by field (30_encoding R107). -/
theorem bindingOf_ten (h1 h0 pr ty s1 s0 l1 l0 v1 v0 : Byte) :
    bindingOf [h1, h0, pr, ty, s1, s0, l1, l0, v1, v0] =
      { handle := h1 ++ h0, priority := pr, type := ty, sp := s1 ++ s0, lenDsc := l1 ++ l0, vp := v1 ++ v0 } := by
  rw [bindingOf, half_cons, half_drop _ 4, half_drop _ 6, half_drop _ 8]
  simp only [List.drop_succ_cons, List.drop_zero, half_cons]
  rfl

/-- Settles O60: WB.ADD's two tests, then the append; WB.CLR has one ending. -/
theorem wbAddAppendsAndWbClrEmpties : Obligations.WbAddAppendsAndWbClrEmpties := by
  unfold Obligations.WbAddAppendsAndWbClrEmpties
  intro s
  refine ⟨fun h => ?_, fun h1 h0 pr ty s1 s0 l1 l0 v1 v0 hdin hroom => ⟨auxOfCount s.wb.length, auxOfCount_toNat, ?_⟩,
    finish_answer ..⟩
  · rw [Answers, exec, execWbAdd]
    rcases h with hlen | hfull
    · rw [if_neg hlen]
      rfl
    · rw [if_pos hfull, ite_self]
      rfl
  · rw [Answers, exec, execWbAdd, if_pos (by rw [hdin]; rfl), if_neg hroom, hdin, bindingOf_ten, finish_answer]

end Sys2Proof.Proofs.RegistryAccess
end

section
/-! PROOFS. The family of spec/60_exceptions.md: an illegal word (R273), a custom print of the wrong length (R275), a
refused PARAMS (R276), a set FAULT (R277, R278), and NOP (R288). -/

namespace Sys2Proof.Proofs.Exceptions

open Sys2Proof Sys2Proof.Machine Sys2Proof.Proofs.Encoding Sys2Proof.Proofs.MapperLists
  Sys2Proof.Proofs.StateStart

/-! ## NOP (R288) -/

/-- Settles O20: NOP's meaning is one return, and by the round trips the words of NOP are the one that encodes it. -/
theorem nopDoesNothing : Obligations.NopDoesNothing := by
  unfold Obligations.NopDoesNothing
  refine ⟨fun s => finish_answer .., fun w => ?_⟩
  have hword : encode .nop = 0x00000000#32 := rfl
  rw [decode_eq_ok_iff, hword, eq_comm]

/-! ## A set FAULT (R277, R278) -/

/-- Settles O7: the step looks at FAULT before the port, and a run stops at its first step. -/
theorem faultedMachineHasNoStep : Obligations.FaultedMachineHasNoStep := by
  unfold Obligations.FaultedMachineHasNoStep
  intro s f n hfault
  have hstep : step s = .fault (.halted f) := step_halted hfault
  exact ⟨hstep, runFor_fault hstep n⟩

/-! ## An illegal word (R273) -/

/-- A word that the table calls illegal does not decode: the words that decode are exactly the legal ones. -/
theorem decode_eq_error_of_illegal {w : U32} (h : legalWord w = false) : ∃ e, decode w = .error e := by
  cases hdecode : decode w with
  | error e => exact ⟨e, rfl⟩
  | ok i =>
    have hlegal : legalWord w = true := (decodeAcceptsExactlyTheLegalWords w).1 ⟨i, hdecode⟩
    exact absurd hlegal (Bool.eq_false_iff.1 h)

/-- Settles O5: the word does not decode, so the step rejects it. -/
theorem illegalWordFailsAndChangesNothing : Obligations.IllegalWordFailsAndChangesNothing := by
  unfold Obligations.IllegalWordFailsAndChangesNothing
  intro s c rest hrun hport hillegal
  obtain ⟨e, hdecode⟩ := decode_eq_error_of_illegal hillegal
  exact step_illegal hrun hport hdecode

/-! ## A refused PARAMS (R276)

Each check of `paramsOk`, read as the condition of R276 that fails it. -/

section refused
variable (p : Params)

theorem codecParamsOk_eq_false_iff :
    codecParamsOk p = false ↔ p.hdr.length < 1 ∨ 4 < p.hdr.length ∨ p.lenW < 1 ∨ 4 < p.lenW := by
  rw [codecParamsOk, decide_eq_false_iff_not]
  omega

theorem queueParamsOk_eq_false_iff :
    queueParamsOk p = false ↔ p.rxqBytes < 1 ∨ 65535 < p.rxqBytes ∨ p.txqBytes < 1 ∨ 65535 < p.txqBytes := by
  rw [queueParamsOk, decide_eq_false_iff_not]
  omega

theorem keyParamsOk_eq_false_iff :
    keyParamsOk p = false ↔
      (∃ d ∈ p.checkers, d.id < 2 ∨ 255 < d.id) ∨ ∃ d ∈ p.custom, d.kind < 16 ∨ 255 < d.kind := by
  simp only [keyParamsOk, Bool.and_eq_false_iff, List.all_eq_false, decide_eq_true_eq, not_and_or, Nat.not_le]

theorem listParamsOk_eq_false_iff :
    listParamsOk p = false ↔
      p.itemLists.length ≠ 16 ∨ ∃ l ∈ p.itemLists, 255 < (l.takeWhile fun it => it.len != 0).length := by
  simp only [listParamsOk, Bool.and_eq_false_iff, beq_eq_false_iff_ne, List.all_eq_false, decide_eq_true_eq, Nat.not_le]
  rfl

theorem widgetParamsOk_eq_false_iff : widgetParamsOk p = false ↔ ∃ e ∈ p.widgetList, 15 < e.2 := by
  simp only [widgetParamsOk, List.all_eq_false, decide_eq_true_eq, Nat.not_le]

theorem commandParamsOk_eq_false_iff : commandParamsOk p = false ↔ p.cmdWr = p.cmdRd := bne_eq_false_iff_eq

theorem tableParamsOk_eq_false_iff :
    tableParamsOk p = false ↔
      (∃ t, p.sysTable = some t ∧ ∃ e ∈ t, e.len < 1 ∨ 0x10000 < e.addr.toNat + e.len) ∨
        (p.sysTable = none ∧ (p.varLen < 1 ∨ 0x10000 < p.varBase + p.varLen)) := by
  cases h : p.sysTable with
  | none =>
    simp only [tableParamsOk, h, decide_eq_false_iff_not, not_and_or, Nat.not_le, reduceCtorEq, false_and, exists_false,
      false_or, true_and]
  | some t =>
    simp only [tableParamsOk, h, List.all_eq_false, decide_eq_true_eq, not_and_or, Nat.not_le, Option.some.injEq,
      exists_eq_left', reduceCtorEq, false_and, or_false]

theorem crcCfgParamsOk_eq_false_iff : crcCfgParamsOk p = false ↔ ∃ a k, p.crcCfg = some (a, k) ∧ 15 < k := by
  cases h : p.crcCfg with
  | none => simp [crcCfgParamsOk, h]
  | some c =>
    obtain ⟨a, k⟩ := c
    simp [crcCfgParamsOk, h]

/-- R276 whole: a PARAMS is refused if and only if one of its conditions holds. -/
theorem paramsOk_eq_false_iff : paramsOk p = false ↔ ParamsRefused p := by
  simp only [paramsOk, Bool.and_eq_false_iff, codecParamsOk_eq_false_iff, queueParamsOk_eq_false_iff,
    keyParamsOk_eq_false_iff, listParamsOk_eq_false_iff, widgetParamsOk_eq_false_iff, commandParamsOk_eq_false_iff,
    tableParamsOk_eq_false_iff, crcCfgParamsOk_eq_false_iff, ParamsRefused, or_assoc]

end refused

/-- R276: a refused PARAMS starts with FAULT set. -/
theorem startState_fault_of_refused {p : Params} (h : ParamsRefused p) : (startState p).fault = some .paramInvalid := by
  have hnot : ¬paramsOk p = true := Bool.eq_false_iff.1 ((paramsOk_eq_false_iff p).2 h)
  rw [startState, if_neg hnot]

/-- R276: a PARAMS that is not refused starts with FAULT = none. -/
theorem startState_fault_of_not_refused {p : Params} (h : ¬ParamsRefused p) : (startState p).fault = none := by
  have hok : paramsOk p = true := Bool.of_not_eq_false (mt (paramsOk_eq_false_iff p).1 h)
  rw [startState_of_paramsOk hok]
  rfl

/-- Settles O16: a refused PARAMS starts with FAULT set, and commands at the port do not clear it, so no run has a
step. -/
theorem paramsOutOfRangeNeverRun : Obligations.ParamsOutOfRangeNeverRun := by
  unfold Obligations.ParamsOutOfRangeNeverRun
  intro p
  refine ⟨fun hrefused => ?_, startState_fault_of_not_refused⟩
  have hfault := startState_fault_of_refused hrefused
  refine ⟨hfault, fun cmds n t hrun => ?_⟩
  obtain ⟨-, hstopped⟩ := faultedMachineHasNoStep { startState p with port := cmds } .paramInvalid n hfault
  rw [hstopped] at hrun
  cases hrun

/-! ## A custom print of the wrong length (R275) -/

section broken
variable {p : Params} {t : Target} {pre post : List Item} {it : Item} {size : Nat}

/-- MAP.PRINT's loop comes through good items to the item behind them, its buffer still of the size given. -/
theorem printItems_behind_good (hpre : ∀ x ∈ pre, GoodItem p x) (hfits : lenSum pre pre.length ≤ size) :
    ∃ buf : Bytes, buf.length = size ∧ printItems p t (pre ++ it :: post) 0 0 (List.replicate size 0#8) =
      printItems p t (it :: post) pre.length (lenSum pre pre.length) buf := by
  have hall : ∀ i < pre.length, Prints p t (pre ++ it :: post) size i := fun i hi => by
    refine prints_good ?_ ?_ t
    · rw [itemAt_append_of_lt _ _ hi]
      exact hpre _ (List.getElem_mem hi)
    · rw [lenSum_append_of_le _ _ hi]
      exact (lenSum_mono pre hi).trans hfits
  have hloop := printItems_eq_drop (by simp) hall
  rw [List.drop_left, lenSum_append_of_le _ _ le_rfl] at hloop
  exact ⟨_, bufferAfter_length hall, hloop⟩

/-- R275: an item that fits and prints OK with a wrong number of bytes breaks the contract. -/
theorem printItems_broken {i off : Nat} {buf b : Bytes} (hfits : off + it.len.toNat ≤ buf.length)
    (hitem : printItem p it.kind t i it.len.toNat = (.ok, b)) (hlen : b.length ≠ it.len.toNat) :
    printItems p t (it :: post) i off buf = .broken := by
  rw [printItems, if_neg hfits.not_gt, hitem]
  exact if_neg hlen

end broken

/-- Settles O52: the loop comes through the good items to the custom one, which fits and breaks its contract. -/
theorem customPrintOfWrongLengthFaults : Obligations.CustomPrintOfWrongLengthFaults := by
  unfold Obligations.CustomPrintOfWrongLengthFaults
  intro s l size pre it post d b hits hpre hfits hcustom hprint hlen
  obtain ⟨buf, hbuf, hloop⟩ := printItems_behind_good hpre ((Nat.le_add_right _ _).trans hfits)
  have hitem := (printItem_custom hcustom s.tgt pre.length it.len.toNat).trans hprint
  exact answers_mapPrint_of_broken hits (hloop.trans (printItems_broken (hfits.trans_eq hbuf.symm) hitem hlen))

end Sys2Proof.Proofs.Exceptions
end

section
/-! PROOFS. The family of spec/70_reset_and_hazards.md: a frame that declares more bytes than RXQ can hold (R297). -/

namespace Sys2Proof.Proofs.Hazards

open Sys2Proof Sys2Proof.Machine Sys2Proof.Proofs.QueueOrder
open Sys2Proof.Proofs.CodecSend Sys2Proof.Proofs.CodecFrame Sys2Proof.Proofs.CodecReceive

/-- A queue in shape never holds the whole of a frame longer than MAXC, so the bytes behind its preamble are too few. -/
theorem rest_length_lt_of_declares_more {bytes : Nat} {x : QState} {hdr len rest : Bytes} {declared : Nat}
    (hshape : RingShape bytes x) (hview : view x = unitElems (hdr ++ len ++ rest))
    (hlong : x.maxc.toNat < hdr.length + len.length + declared) : rest.length < declared := by
  obtain ⟨-, -, -, hcnt, -⟩ := hshape
  have hbytes : hdr.length + len.length + rest.length = x.cnt.toNat := by
    rw [← view_length, hview, unitElems, List.length_map, List.length_append, List.length_append]
  omega

/-- Where the checker answers INV on RXQ as it stands, Q.POPV's first turn ends it with nothing dropped (R126). -/
theorem popValid_of_checkList_inv {s : State} (hcfg : s.rxq.cfg = true) (hchk : s.rxq.chk ≠ 0#8) (hne : view s.rxq ≠ [])
    (hinv : checkList s s.rxq (view s.rxq) = .inv) : popValid .rx s = .returned (answer s .inv 0#32 []) := by
  obtain ⟨n, hn⟩ : ∃ n, s.rxq.cnt.toNat = n + 1 :=
    Nat.exists_eq_add_one.2 (view_length s.rxq ▸ List.length_pos_iff.2 hne)
  have hrun : runChecker s.params s.crcEn (s.queue .rx) = .inv := hinv
  rw [popValid_eq_popvLoop (q := .rx) hcfg hchk hne, queue_rx, hn, popvLoop, hrun]
  rfl

/-- Settles O44: RXQ holds fewer bytes than declared, so FRAME answers INV, and INV removes nothing. -/
theorem frameLongerThanRxqStalls : Obligations.FrameLongerThanRxqStalls := by
  unfold Obligations.FrameLongerThanRxqStalls
  intro s len rest hi hcfg hframe hheader hview hlen hlong
  have hshort : rest.length < unBE len :=
    rest_length_lt_of_declares_more (hi.shape hcfg) hview (by rwa [hlen])
  have hinv : checkList s s.rxq (view s.rxq) = .inv := by
    rw [hview, checkList_unitElems hframe, frameCheck_append hlen, if_pos hshort]
  have hne : view s.rxq ≠ [] := by
    rw [hview, ← List.length_pos_iff, unitElems, List.length_map, List.length_append, List.length_append]
    omega
  have hchk : s.rxq.chk ≠ 0#8 := by rw [hframe]; decide
  have hu : usable s.rxq = true := (usable_iff _).2 ⟨hcfg, hi.frameOnBytes hframe⟩
  exact answers_cdcRecv_of_pop_not_ok hu (popValid_of_checkList_inv hcfg hchk hne hinv) Res.noConfusion

end Sys2Proof.Proofs.Hazards
end
